-- ==== Sys2Proof/Word.lean ====
section
/-! DEFINITION. The widths of the unit's values (10_state.md R13 to R17; 00_scope.md R9).
Every value is unsigned; nothing in the instruction set is signed. -/

namespace Sys2Proof

/-- A general register, timer, flag register or memory byte: 8 bits (R13, R19, R24, R28). -/
abbrev Byte := BitVec 8

/-- `pc`, `I`, a stack entry, the key mask, an instruction word: 16 bits (R15, R16, R17, R21, R48). -/
abbrev Word := BitVec 16

/-- An address immediate `nnn`, and `cfg.pc_start`: 12 bits (R3, R49). -/
abbrev Addr12 := BitVec 12

/-- An index of a general register, a flag register or a key: one nibble (R13, R49). -/
abbrev RegIx := Fin 16

end Sys2Proof
end

