-- ==== Sys2Proof/Config.lean ====
section
/-! DEFINITION. What is fixed for a session: the configuration record `cfg` of 00_scope.md R3, the
implementation parameters of R6, and the two free values the spec leaves OPEN (R83, R37).
The unit never writes any of them (R3, 10_state.md R29). -/

namespace Sys2Proof

/-- A big-sprite width: "8 or 16" (R3, R5). -/
inductive SpriteWidth where
  | w8
  | w16
  deriving DecidableEq, Repr

/-- The width in pixels. -/
def SpriteWidth.pixels : SpriteWidth → Nat
  | .w8 => 8
  | .w16 => 16

/-- One entry `(width, height)` of `cfg.resolutions` (R3). -/
structure Resolution where
  width : Nat
  height : Nat
  deriving DecidableEq, Repr

/-- The configuration record `cfg`, the source's `VariantConfig` (R3). -/
structure VariantConfig where
  hiresEnabled : Bool
  scrollingEnabled : Bool
  flagRegistersEnabled : Bool
  logicQuirk : Bool
  shiftQuirk : Bool
  jumpQuirk : Bool
  vblankQuirk : Bool
  scrollQuirk : Bool
  /-- The post-increment amount of the dump/load pair, or none for no increment. -/
  loadStoreOffset : Option Nat
  /-- The big-sprite width of the zero-height draw, or none for no big sprite. -/
  dxy0LoresWidth : Option SpriteWidth
  pcStart : Addr12
  /-- Ascending; the first is the base resolution, the last the maximum. -/
  resolutions : List Resolution
  deriving DecidableEq, Repr

/-- The base resolution: "first = base" (R3). An empty list is refused by `VariantConfig.wf` (R5), so the
default here is never used by a session. -/
def VariantConfig.baseRes (c : VariantConfig) : Resolution := c.resolutions.headD ⟨1, 1⟩

/-- `max_res = (Wmax, Hmax)`, the last entry of `cfg.resolutions` (10_state.md R25). -/
def VariantConfig.maxRes (c : VariantConfig) : Resolution := c.resolutions.getLastD ⟨1, 1⟩

/-- `cfg` with the implementation parameters of R6. -/
structure Params where
  cfg : VariantConfig
  /-- `ADD_I_MASK12`: whether Fx1E masks `I` to 12 bits (OPEN, D4). -/
  addIMask12 : Bool
  /-- `DXY0_HIRES_WIDTH`; none is its default, `cfg.dxy0_lores_width` (D14). -/
  dxy0HiresWidth : Option SpriteWidth
  /-- `SMALL_FONT_BASE` (D17). -/
  smallFontBase : Nat
  /-- `BIG_FONT_BASE` (D17). -/
  bigFontBase : Nat
  /-- `BIG_GLYPH_BYTES` (D17, D36). -/
  bigGlyphBytes : Nat
  /-- `FONT_SMALL`, 80 bytes (D17). -/
  fontSmall : List Byte
  /-- `FONT_BIG`, `16 × BIG_GLYPH_BYTES` bytes (OPEN, D17). None: nobody supplied it, and its bytes are the
  free values `Config.openBigFontByte` (DESIGN CHOICE, log 3; safe). -/
  fontBig : Option (List Byte)
  deriving DecidableEq, Repr

/-- FREE VALUE (R83, D31; DESIGN CHOICE, log 4; safe): the `n`-th random byte drawn in a session. The source names no
generator, seed or distribution, so nothing is known of it. -/
opaque Config.randomByte : Nat → Byte

/-- FREE VALUE (R37, D17; DESIGN CHOICE, log 3; safe): byte `k` of a big font that nobody supplied. -/
opaque Config.openBigFontByte : Nat → Byte

end Sys2Proof
end

