-- ==== Sys2Proof/Machine/Startup.lean ====
section
/-! DEFINITION. What a session starts from: the default small font, the parameter set of `State.reset`, and the
initial contents of memory (20_memory.md R36, R37; 70_reset_and_hazards.md R134). -/

namespace Sys2Proof.Machine

/-- The default `FONT_SMALL`: the table of R37, five bytes a glyph. -/
def fontSmallDefault : List Byte :=
  [0xF0, 0x90, 0x90, 0x90, 0xF0] ++ [0x20, 0x60, 0x20, 0x20, 0x70] ++
  [0xF0, 0x10, 0xF0, 0x80, 0xF0] ++ [0xF0, 0x10, 0xF0, 0x10, 0xF0] ++
  [0x90, 0x90, 0xF0, 0x10, 0x10] ++ [0xF0, 0x80, 0xF0, 0x10, 0xF0] ++
  [0xF0, 0x80, 0xF0, 0x90, 0xF0] ++ [0xF0, 0x10, 0x20, 0x40, 0x40] ++
  [0xF0, 0x90, 0xF0, 0x90, 0xF0] ++ [0xF0, 0x90, 0xF0, 0x10, 0xF0] ++
  [0xF0, 0x90, 0xF0, 0x90, 0x90] ++ [0xE0, 0x90, 0xE0, 0x90, 0xE0] ++
  [0xF0, 0x80, 0x80, 0x80, 0xF0] ++ [0xE0, 0x90, 0x90, 0x90, 0xE0] ++
  [0xF0, 0x80, 0xF0, 0x80, 0xF0] ++ [0xF0, 0x80, 0xF0, 0x80, 0x80]

/-- The dialect of `State.reset`: `T1` of 95_test_vectors.md section 0, which opens every gate of R54.
DESIGN CHOICE (log 2; unsafe for a statement about `State.reset` alone): `cfg` is OPEN (D39). -/
def sessionConfig : VariantConfig where
  hiresEnabled := true
  scrollingEnabled := true
  flagRegistersEnabled := true
  logicQuirk := false
  shiftQuirk := false
  jumpQuirk := false
  vblankQuirk := false
  scrollQuirk := false
  loadStoreOffset := none
  dxy0LoresWidth := some .w16
  pcStart := 0x200
  resolutions := [⟨64, 32⟩, ⟨128, 64⟩]

/-- The parameters of `State.reset`: the defaults of R6, `ADD_I_MASK12 = false` as in 95_test_vectors.md section 0, no
big font supplied (log 2, log 3). -/
def sessionParams : Params where
  cfg := sessionConfig
  addIMask12 := false
  dxy0HiresWidth := none
  smallFontBase := 0x050
  bigFontBase := 0x0A0
  bigGlyphBytes := 10
  fontSmall := fontSmallDefault
  fontBig := none

/-- Byte `k` of `FONT_BIG`: the supplied byte, or a free value where nobody supplied one (R37, D17; log 3). -/
def bigFontByte (p : Params) (k : Nat) : Byte :=
  match p.fontBig with
  | some bytes => bytes.getD k 0
  | none => Config.openBigFontByte k

/-- What address `a` holds when a session is constructed, and so what an address that memory does not list reads as:
the fonts at their bases, 0x00 elsewhere (R134, R36, D19; log 14). -/
def initialByte (p : Params) (a : Nat) : Byte :=
  if p.smallFontBase ≤ a ∧ a < p.smallFontBase + 80 then p.fontSmall.getD (a - p.smallFontBase) 0
  else if p.bigFontBase ≤ a ∧ a < p.bigFontBase + 16 * p.bigGlyphBytes then bigFontByte p (a - p.bigFontBase)
  else 0

end Sys2Proof.Machine
end

