-- ==== Sys2Proof/Syntax.lean ====
section
/-! DEFINITION. The instructions: one constructor per row of the opcode map, 30_encoding.md R53 (43 rows, no aliases, R60).
Operand fields are those of R49: `x`, `y`, `n` one nibble each, `nn` a byte, `nnn` an address immediate. -/

namespace Sys2Proof

/-- The instruction set of R53, in the order of the opcode table. -/
inductive Instr where
  /-- 00E0, CLS: clear screen (R96). -/
  | cls
  /-- 00EE, RET: return (R62). -/
  | ret
  /-- 00Cn, SCD n: scroll down n (R101). -/
  | scd (n : Fin 16)
  /-- 00FB, SCR: scroll right (R102). -/
  | scr
  /-- 00FC, SCL: scroll left (R103). -/
  | scl
  /-- 00FD, EXIT: halt (R107). -/
  | exit
  /-- 00FE, LOW: set lo-res (R104). -/
  | low
  /-- 00FF, HIGH: set hi-res (R105). -/
  | high
  /-- 1nnn, JP nnn (R64). -/
  | jp (nnn : Addr12)
  /-- 2nnn, CALL nnn (R63). -/
  | call (nnn : Addr12)
  /-- 3xnn, SE Vx, nn (R66). -/
  | seImm (x : RegIx) (nn : Byte)
  /-- 4xnn, SNE Vx, nn (R67). -/
  | sneImm (x : RegIx) (nn : Byte)
  /-- 5xy0, SE Vx, Vy (R68). -/
  | seReg (x y : RegIx)
  /-- 6xnn, LD Vx, nn (R72). -/
  | ldImm (x : RegIx) (nn : Byte)
  /-- 7xnn, ADD Vx, nn (R73). -/
  | addImm (x : RegIx) (nn : Byte)
  /-- 8xy0, LD Vx, Vy (R74). -/
  | ldReg (x y : RegIx)
  /-- 8xy1, OR Vx, Vy (R75). -/
  | orReg (x y : RegIx)
  /-- 8xy2, AND Vx, Vy (R76). -/
  | andReg (x y : RegIx)
  /-- 8xy3, XOR Vx, Vy (R77). -/
  | xorReg (x y : RegIx)
  /-- 8xy4, ADD Vx, Vy (R78). -/
  | addReg (x y : RegIx)
  /-- 8xy5, SUB Vx, Vy (R79). -/
  | subReg (x y : RegIx)
  /-- 8xy6, SHR Vx, Vy (R80). -/
  | shrReg (x y : RegIx)
  /-- 8xy7, SUBN Vx, Vy (R81). -/
  | subnReg (x y : RegIx)
  /-- 8xyE, SHL Vx, Vy (R82). -/
  | shlReg (x y : RegIx)
  /-- 9xy0, SNE Vx, Vy (R69). -/
  | sneReg (x y : RegIx)
  /-- Annn, LD I, nnn (R85). -/
  | ldI (nnn : Addr12)
  /-- Bnnn, JP V0, nnn (R65). -/
  | jpV0 (nnn : Addr12)
  /-- Cxnn, RND Vx, nn (R83). -/
  | rnd (x : RegIx) (nn : Byte)
  /-- Dxyn, DRW Vx, Vy, n (R98). -/
  | drw (x y : RegIx) (n : Fin 16)
  /-- Ex9E, SKP Vx (R108). -/
  | skp (x : RegIx)
  /-- ExA1, SKNP Vx (R109). -/
  | sknp (x : RegIx)
  /-- Fx07, LD Vx, DT (R111). -/
  | ldVxDT (x : RegIx)
  /-- Fx0A, LD Vx, K (R110). -/
  | ldVxK (x : RegIx)
  /-- Fx15, LD DT, Vx (R112). -/
  | ldDTVx (x : RegIx)
  /-- Fx18, LD ST, Vx (R113). -/
  | ldSTVx (x : RegIx)
  /-- Fx1E, ADD I, Vx (R88). -/
  | addI (x : RegIx)
  /-- Fx29, LD F, Vx (R86). -/
  | ldF (x : RegIx)
  /-- Fx30, LD HF, Vx (R87). -/
  | ldHF (x : RegIx)
  /-- Fx33, LD B, Vx (R89). -/
  | ldB (x : RegIx)
  /-- Fx55, LD [I], Vx (R91). -/
  | ldMemVx (x : RegIx)
  /-- Fx65, LD Vx, [I] (R92). -/
  | ldVxMem (x : RegIx)
  /-- Fx75, LD R, Vx (R93). -/
  | ldRVx (x : RegIx)
  /-- Fx85, LD Vx, R (R94). -/
  | ldVxR (x : RegIx)
  deriving DecidableEq, Repr

end Sys2Proof
end

