-- ==== Sys2Proof/Machine/Gates.lean ====
section
/-! DEFINITION. The gates of 30_encoding.md R54: which rows of the opcode map a dialect has.
The `flags` gate is the source's; the other two are the spec's decision D8 (log 19). -/

namespace Sys2Proof

/-- A gate of R54. -/
inductive Gate where
  | flags
  | scrolling
  | hires
  deriving DecidableEq, Repr

/-- The condition of a gate (R54). -/
def Gate.isOpen (c : VariantConfig) : Gate → Bool
  | .flags => c.flagRegistersEnabled
  | .scrolling => c.scrollingEnabled
  | .hires => c.hiresEnabled

/-- The gate of an instruction's row, none for an ungated row (R53, R54). Dxy0 is not gated: it decodes in every
dialect. -/
def Instr.gate : Instr → Option Gate
  | .ldRVx _ | .ldVxR _ => some .flags
  | .scd _ | .scr | .scl => some .scrolling
  | .exit | .low | .high | .ldHF _ => some .hires
  | .cls | .ret | .jp _ | .call _ | .seImm _ _ | .sneImm _ _ | .seReg _ _ | .ldImm _ _ | .addImm _ _
  | .ldReg _ _ | .orReg _ _ | .andReg _ _ | .xorReg _ _ | .addReg _ _ | .subReg _ _ | .shrReg _ _ | .subnReg _ _
  | .shlReg _ _ | .sneReg _ _ | .ldI _ | .jpV0 _ | .rnd _ _ | .drw _ _ _ | .skp _ | .sknp _ | .ldVxDT _ | .ldVxK _
  | .ldDTVx _ | .ldSTVx _ | .addI _ | .ldF _ | .ldB _ | .ldMemVx _ | .ldVxMem _ => none

end Sys2Proof
end

