-- ==== Sys2Proof/WellFormed.lean ====
section
/-! DEFINITION. What is well formed: a configuration (00_scope.md R5), a parameter set (20_memory.md R36) and an
instruction of a dialect (30_encoding.md R54). The widths of the operand fields, the two big-sprite widths and the
12 bits of `pc_start` are in the types. -/

namespace Sys2Proof

/-- "ascending" (R3, R5): neither axis shrinks from an entry to the next, and the entry changes.
DESIGN CHOICE (log 10; safe): the spec does not say how pairs are compared. -/
def resolutionsAscend : List Resolution → Bool
  | a :: b :: rest =>
    decide (a.width ≤ b.width) && decide (a.height ≤ b.height) && decide (a ≠ b) && resolutionsAscend (b :: rest)
  | [_] => true
  | [] => true

/-- An entry is positive and divides the maximum exactly on each axis (R5). -/
def Resolution.scalesTo (m r : Resolution) : Bool :=
  decide (0 < r.width) && decide (0 < r.height) && decide (m.width % r.width = 0) && decide (m.height % r.height = 0)

/-- R5: the configurations a session may be built for. -/
def VariantConfig.wf (c : VariantConfig) : Bool :=
  !c.resolutions.isEmpty
    && resolutionsAscend c.resolutions
    && c.resolutions.all (Resolution.scalesTo c.maxRes)
    && decide (c.maxRes.width ≤ 256) && decide (c.maxRes.height ≤ 256)

/-- One past the last byte of the small font table: 80 bytes (R36). -/
def Params.smallFontEnd (p : Params) : Nat := p.smallFontBase + 80

/-- One past the last byte of the big font table: `16 × BIG_GLYPH_BYTES` bytes (R36). -/
def Params.bigFontEnd (p : Params) : Nat := p.bigFontBase + 16 * p.bigGlyphBytes

/-- R36: both font tables inside memory, disjoint, ending at or below `cfg.pc_start`. -/
def Params.fontsPlaced (p : Params) : Bool :=
  decide (p.smallFontEnd ≤ 0x1000) && decide (p.bigFontEnd ≤ 0x1000)
    && (decide (p.smallFontEnd ≤ p.bigFontBase) || decide (p.bigFontEnd ≤ p.smallFontBase))
    && decide (p.smallFontEnd ≤ p.cfg.pcStart.toNat) && decide (p.bigFontEnd ≤ p.cfg.pcStart.toNat)

/-- The tables have the lengths R6 gives them (DEDUCED, log 11; safe). -/
def Params.fontsSized (p : Params) : Bool :=
  decide (p.fontSmall.length = 80) && p.fontBig.all (fun b => decide (b.length = 16 * p.bigGlyphBytes))

/-- R5, R36, R134: a model refuses any other parameter set. -/
def Params.wf (p : Params) : Bool := p.cfg.wf && p.fontsPlaced && p.fontsSized

/-- R54: the instruction's row is ungated, or its gate is open in the dialect. -/
def Instr.wf (c : VariantConfig) (i : Instr) : Bool :=
  match i.gate with
  | none => true
  | some g => g.isOpen c

end Sys2Proof
end

