-- ==== Sys2Proof/Decode.lean ====
section
/-! DEFINITION. The decoder of 30_encoding.md R48 to R58 and, after it, the encoder written from the same map.
A word is decomposed into nibbles and dispatched on the leading one (R49, R53). -/

namespace Sys2Proof

/-! ### The fields of R49 -/

/-- `op = w[15:12]`. -/
def fieldOp (w : Word) : Nat := w.toNat / 4096 % 16

/-- `x = w[11:8]`. -/
def fieldX (w : Word) : RegIx := Fin.ofNat 16 (w.toNat / 256)

/-- `y = w[7:4]`. -/
def fieldY (w : Word) : RegIx := Fin.ofNat 16 (w.toNat / 16)

/-- `n = w[3:0]`. -/
def fieldN (w : Word) : Fin 16 := Fin.ofNat 16 w.toNat

/-- `nn = w[7:0]`. -/
def fieldNN (w : Word) : Byte := BitVec.ofNat 8 w.toNat

/-- `nnn = w[11:0]`. -/
def fieldNNN (w : Word) : Addr12 := BitVec.ofNat 12 w.toNat

/-! ### The opcode map of R53 -/

/-- Words 00nn: the byte selects the operation; 00Cn carries the amount of a scroll. -/
def decodeGroup0 (w : Word) : Option Instr :=
  match (fieldNN w).toNat with
  | 0xE0 => some .cls
  | 0xEE => some .ret
  | 0xFB => some .scr
  | 0xFC => some .scl
  | 0xFD => some .exit
  | 0xFE => some .low
  | 0xFF => some .high
  | _ => if (fieldY w).val = 0xC then some (.scd (fieldN w)) else none

/-- Words 8xyN: the last nibble selects the operation. -/
def decodeGroup8 (w : Word) : Option Instr :=
  let x := fieldX w
  let y := fieldY w
  match (fieldN w).val with
  | 0x0 => some (.ldReg x y)
  | 0x1 => some (.orReg x y)
  | 0x2 => some (.andReg x y)
  | 0x3 => some (.xorReg x y)
  | 0x4 => some (.addReg x y)
  | 0x5 => some (.subReg x y)
  | 0x6 => some (.shrReg x y)
  | 0x7 => some (.subnReg x y)
  | 0xE => some (.shlReg x y)
  | _ => none

/-- Words ExNN. -/
def decodeGroupE (w : Word) : Option Instr :=
  match (fieldNN w).toNat with
  | 0x9E => some (.skp (fieldX w))
  | 0xA1 => some (.sknp (fieldX w))
  | _ => none

/-- Words FxNN. -/
def decodeGroupF (w : Word) : Option Instr :=
  let x := fieldX w
  match (fieldNN w).toNat with
  | 0x07 => some (.ldVxDT x)
  | 0x0A => some (.ldVxK x)
  | 0x15 => some (.ldDTVx x)
  | 0x18 => some (.ldSTVx x)
  | 0x1E => some (.addI x)
  | 0x29 => some (.ldF x)
  | 0x30 => some (.ldHF x)
  | 0x33 => some (.ldB x)
  | 0x55 => some (.ldMemVx x)
  | 0x65 => some (.ldVxMem x)
  | 0x75 => some (.ldRVx x)
  | 0x85 => some (.ldVxR x)
  | _ => none

/-- The one row of R53 a word matches, before the gates of R54; none for the words of R56. -/
def decodeWord (w : Word) : Option Instr :=
  match fieldOp w with
  | 0x0 => if (fieldX w).val = 0 then decodeGroup0 w else none
  | 0x1 => some (.jp (fieldNNN w))
  | 0x2 => some (.call (fieldNNN w))
  | 0x3 => some (.seImm (fieldX w) (fieldNN w))
  | 0x4 => some (.sneImm (fieldX w) (fieldNN w))
  | 0x5 => if (fieldN w).val = 0 then some (.seReg (fieldX w) (fieldY w)) else none
  | 0x6 => some (.ldImm (fieldX w) (fieldNN w))
  | 0x7 => some (.addImm (fieldX w) (fieldNN w))
  | 0x8 => decodeGroup8 w
  | 0x9 => if (fieldN w).val = 0 then some (.sneReg (fieldX w) (fieldY w)) else none
  | 0xA => some (.ldI (fieldNNN w))
  | 0xB => some (.jpV0 (fieldNNN w))
  | 0xC => some (.rnd (fieldX w) (fieldNN w))
  | 0xD => some (.drw (fieldX w) (fieldY w) (fieldN w))
  | 0xE => decodeGroupE w
  | 0xF => decodeGroupF w
  | _ => none

/-- Why a decode is refused. -/
inductive DecodeReject where
  /-- The word matches no row: an "unmapped opcode" (R55, R56). -/
  | unmapped
  /-- The word matches a row whose gate is closed in this dialect (R54). -/
  | gated (g : Gate)
  /-- Fewer than two bytes: no instruction word (R48). -/
  | tooShort
  deriving DecidableEq, Repr

/-- `Decode(w, cfg)` (R53, R54, R55): a rejection by name is what a step turns into `IllegalInstruction(w)`. -/
def decode (c : VariantConfig) (w : Word) : Except DecodeReject Instr :=
  match decodeWord w with
  | none => .error .unmapped
  | some i =>
    match i.gate with
    | none => .ok i
    | some g => if g.isOpen c then .ok i else .error (.gated g)

/-- The word of two fetched bytes: the byte at the lower address is the most significant (20_memory.md R39). -/
def wordOfBytes (hi lo : Byte) : Word := BitVec.ofNat 16 (hi.toNat * 256 + lo.toNat)

/-- The byte stored at the lower address (R39). -/
def highByte (w : Word) : Byte := BitVec.ofNat 8 (w.toNat / 256)

/-- The byte stored at the next address (R39). -/
def lowByte (w : Word) : Byte := BitVec.ofNat 8 w.toNat

/-- The decoder on any bytes: one instruction and the bytes after it. -/
def decodeBytes (c : VariantConfig) : List Byte → Except DecodeReject (Instr × List Byte)
  | hi :: lo :: rest => (decode c (wordOfBytes hi lo)).map (fun i => (i, rest))
  | [_] => .error .tooShort
  | [] => .error .tooShort

/-- The instruction read from the word whose bits are `w`, numbered as opcode_table.json numbers them, in the dialect
of `sessionParams` (log 2). Bits at and above `nbits` are 0; every instruction is one 16-bit word (R48). -/
def decodeTableWord (nbits w : Nat) : Option Instr :=
  let word : Word := BitVec.ofNat 16 (w % 2 ^ nbits)
  match decodeBytes Machine.sessionParams.cfg [highByte word, lowByte word] with
  | .ok (i, _) => some i
  | .error _ => none

/-! ### The encoder: the formats of R50 -/

/-- A word from its four nibbles, most significant first (R8). -/
def wordOfNibbles (a b c d : Nat) : Word := BitVec.ofNat 16 (a * 4096 + b * 256 + c * 16 + d)

/-- Format A: a leading nibble and an address immediate. -/
def wordA (op : Nat) (nnn : Addr12) : Word := BitVec.ofNat 16 (op * 4096 + nnn.toNat)

/-- Format XNN (and X, whose byte is fixed): a leading nibble, a register and a byte. -/
def wordXNN (op : Nat) (x : RegIx) (nn : Byte) : Word := BitVec.ofNat 16 (op * 4096 + x.val * 256 + nn.toNat)

/-- The word of an instruction (R50, R53). -/
def encode : Instr → Word
  | .cls => 0x00E0
  | .ret => 0x00EE
  | .scd n => wordOfNibbles 0 0 0xC n
  | .scr => 0x00FB
  | .scl => 0x00FC
  | .exit => 0x00FD
  | .low => 0x00FE
  | .high => 0x00FF
  | .jp nnn => wordA 0x1 nnn
  | .call nnn => wordA 0x2 nnn
  | .seImm x nn => wordXNN 0x3 x nn
  | .sneImm x nn => wordXNN 0x4 x nn
  | .seReg x y => wordOfNibbles 0x5 x y 0x0
  | .ldImm x nn => wordXNN 0x6 x nn
  | .addImm x nn => wordXNN 0x7 x nn
  | .ldReg x y => wordOfNibbles 0x8 x y 0x0
  | .orReg x y => wordOfNibbles 0x8 x y 0x1
  | .andReg x y => wordOfNibbles 0x8 x y 0x2
  | .xorReg x y => wordOfNibbles 0x8 x y 0x3
  | .addReg x y => wordOfNibbles 0x8 x y 0x4
  | .subReg x y => wordOfNibbles 0x8 x y 0x5
  | .shrReg x y => wordOfNibbles 0x8 x y 0x6
  | .subnReg x y => wordOfNibbles 0x8 x y 0x7
  | .shlReg x y => wordOfNibbles 0x8 x y 0xE
  | .sneReg x y => wordOfNibbles 0x9 x y 0x0
  | .ldI nnn => wordA 0xA nnn
  | .jpV0 nnn => wordA 0xB nnn
  | .rnd x nn => wordXNN 0xC x nn
  | .drw x y n => wordOfNibbles 0xD x y n
  | .skp x => wordXNN 0xE x 0x9E
  | .sknp x => wordXNN 0xE x 0xA1
  | .ldVxDT x => wordXNN 0xF x 0x07
  | .ldVxK x => wordXNN 0xF x 0x0A
  | .ldDTVx x => wordXNN 0xF x 0x15
  | .ldSTVx x => wordXNN 0xF x 0x18
  | .addI x => wordXNN 0xF x 0x1E
  | .ldF x => wordXNN 0xF x 0x29
  | .ldHF x => wordXNN 0xF x 0x30
  | .ldB x => wordXNN 0xF x 0x33
  | .ldMemVx x => wordXNN 0xF x 0x55
  | .ldVxMem x => wordXNN 0xF x 0x65
  | .ldRVx x => wordXNN 0xF x 0x75
  | .ldVxR x => wordXNN 0xF x 0x85

/-- The two bytes of an instruction, in the order they lie in memory (R39, R48). -/
def encodeBytes (i : Instr) : List Byte := [highByte (encode i), lowByte (encode i)]

/-! ### The table's masks -/

/-- A row's `match` and `mask` of opcode_table.json (R53). -/
structure OpcodeRow where
  pattern : Word
  mask : Word
  deriving DecidableEq, Repr

/-- The row of each instruction, its mask and match as opcode_table.json gives them (R53). -/
def Instr.row : Instr → OpcodeRow
  | .cls => ⟨0x00E0, 0xFFFF⟩
  | .ret => ⟨0x00EE, 0xFFFF⟩
  | .scd _ => ⟨0x00C0, 0xFFF0⟩
  | .scr => ⟨0x00FB, 0xFFFF⟩
  | .scl => ⟨0x00FC, 0xFFFF⟩
  | .exit => ⟨0x00FD, 0xFFFF⟩
  | .low => ⟨0x00FE, 0xFFFF⟩
  | .high => ⟨0x00FF, 0xFFFF⟩
  | .jp _ => ⟨0x1000, 0xF000⟩
  | .call _ => ⟨0x2000, 0xF000⟩
  | .seImm _ _ => ⟨0x3000, 0xF000⟩
  | .sneImm _ _ => ⟨0x4000, 0xF000⟩
  | .seReg _ _ => ⟨0x5000, 0xF00F⟩
  | .ldImm _ _ => ⟨0x6000, 0xF000⟩
  | .addImm _ _ => ⟨0x7000, 0xF000⟩
  | .ldReg _ _ => ⟨0x8000, 0xF00F⟩
  | .orReg _ _ => ⟨0x8001, 0xF00F⟩
  | .andReg _ _ => ⟨0x8002, 0xF00F⟩
  | .xorReg _ _ => ⟨0x8003, 0xF00F⟩
  | .addReg _ _ => ⟨0x8004, 0xF00F⟩
  | .subReg _ _ => ⟨0x8005, 0xF00F⟩
  | .shrReg _ _ => ⟨0x8006, 0xF00F⟩
  | .subnReg _ _ => ⟨0x8007, 0xF00F⟩
  | .shlReg _ _ => ⟨0x800E, 0xF00F⟩
  | .sneReg _ _ => ⟨0x9000, 0xF00F⟩
  | .ldI _ => ⟨0xA000, 0xF000⟩
  | .jpV0 _ => ⟨0xB000, 0xF000⟩
  | .rnd _ _ => ⟨0xC000, 0xF000⟩
  | .drw _ _ _ => ⟨0xD000, 0xF000⟩
  | .skp _ => ⟨0xE09E, 0xF0FF⟩
  | .sknp _ => ⟨0xE0A1, 0xF0FF⟩
  | .ldVxDT _ => ⟨0xF007, 0xF0FF⟩
  | .ldVxK _ => ⟨0xF00A, 0xF0FF⟩
  | .ldDTVx _ => ⟨0xF015, 0xF0FF⟩
  | .ldSTVx _ => ⟨0xF018, 0xF0FF⟩
  | .addI _ => ⟨0xF01E, 0xF0FF⟩
  | .ldF _ => ⟨0xF029, 0xF0FF⟩
  | .ldHF _ => ⟨0xF030, 0xF0FF⟩
  | .ldB _ => ⟨0xF033, 0xF0FF⟩
  | .ldMemVx _ => ⟨0xF055, 0xF0FF⟩
  | .ldVxMem _ => ⟨0xF065, 0xF0FF⟩
  | .ldRVx _ => ⟨0xF075, 0xF0FF⟩
  | .ldVxR _ => ⟨0xF085, 0xF0FF⟩

end Sys2Proof
end

