-- ==== Sys2Proof/Machine/State.lean ====
section
/-! DEFINITION. The state of the unit as plain data (10_state.md R13 to R32), its value after reset
(70_reset_and_hazards.md R134, R135), and the reasons a call of the model can stop. -/

namespace Sys2Proof.Machine

/-- `exec_state` (R22; 90_conflicts.md C3: `running` is `exec_state ≠ Halted`). -/
inductive ExecState where
  | running
  | halted
  | waitingForKey (r : RegIx)
  deriving DecidableEq, Repr

/-- The fault causes a step can raise (60_exceptions.md R114, codes 1 to 4). -/
inductive FaultCause where
  | illegalInstruction
  | stackOverflow
  | stackUnderflow
  | addressOutOfRange
  deriving DecidableEq, Repr

/-- The numeric code of a cause (R114, D46). -/
def FaultCause.code : FaultCause → Nat
  | .illegalInstruction => 1
  | .stackOverflow => 2
  | .stackUnderflow => 3
  | .addressOutOfRange => 4

/-- What the fault register holds once a fault is raised (R23). -/
structure FaultRecord where
  cause : FaultCause
  /-- `pc` at the start of the faulting step. -/
  faultPc : Word
  /-- The instruction word, none for a fault of the fetch itself. -/
  faultOpcode : Option Word
  /-- The address `AddressOutOfRange` reports, none for the other causes. -/
  faultAddr : Option Nat
  deriving DecidableEq, Repr

/-- Memory: the bytes that differ from the initial contents, by rising address (20_memory.md R33; log 14). -/
abbrev Memory := List Host.Cell

/-- A backing pixel, `(row, column)` (R26). -/
abbrev Pixel := Nat × Nat

/-- The framebuffer: the cells that are true, in rising order of row and then column (R26; log 13). -/
abbrev Framebuffer := List Pixel

/-- The machine's state. -/
structure State where
  /-- `cfg` and the parameters: fixed for the session, no architectural state, written by nothing (R3, R29; log 1). -/
  params : Params
  /-- `V[0..16]` (R13, R14). -/
  v : Vector Byte 16
  /-- `I` (R15). -/
  i : Word
  /-- `pc` (R16). -/
  pc : Word
  /-- `stack[0..16]` (R17). -/
  stack : Vector Word 16
  /-- `sp`, the number of occupied entries (R18). -/
  sp : Nat
  /-- `DT` (R19). -/
  dt : Byte
  /-- `ST` (R20). -/
  st : Byte
  /-- `keys` (R21). -/
  keys : BitVec 16
  /-- `exec_state` (R22). -/
  execState : ExecState
  /-- `fault` (R23). -/
  fault : Option FaultRecord
  /-- `FR[0..16]` (R24). -/
  fr : Vector Byte 16
  /-- `curr_res` (R25). -/
  currRes : Resolution
  /-- `FB` (R26). -/
  fb : Framebuffer
  /-- `vblank_pending` (R27). -/
  vblankPending : Bool
  /-- `memory` (R28). -/
  mem : Memory
  /-- Whether `load_rom` may still succeed: no step has run and no load has succeeded (R38, R118).
  DEDUCED (log 6; safe). -/
  loadOpen : Bool
  /-- How many random bytes have been drawn: the argument of `Config.randomByte` (R83; log 4). The model's own. -/
  draws : Nat
  deriving DecidableEq, Repr

/-- Why a transaction of the model fails with a fault of its own. A fault of a STEP is not one of these: it is a next
state whose `fault` register is written (60_exceptions.md R116, log 7). -/
inductive Fault where
  /-- Raised by `loadRom` only, never by a step: the ROM does not fit, a step has run, or a load has succeeded
  (R118, code 5). Safe: the spec refuses the same calls. -/
  | romLoadError
  deriving DecidableEq, Repr

/-- The numeric code of `RomLoadError` (R114, D46). -/
def Fault.code : Fault → Nat
  | .romLoadError => 5

/-- Why the model gives a call no meaning. -/
inductive Refusal where
  /-- Raised by an arm of `exec` for an instruction without a meaning; no arm raises it. Safe. -/
  | notModelled (mnemonic : String)
  /-- Raised by `step` in a state whose parameters are ill formed, which `State.construct` never builds:
  "A model refuses an ill-formed configuration rather than giving it a meaning" (R5, R36). Safe. -/
  | illFormedParams
  /-- Raised by `pressKey` and `releaseKey` for a code above 15 (R120, R121, D23). Safe. -/
  | keyCodeOutOfRange
  deriving DecidableEq, Repr

/-- What `exec` and `step` answer. -/
abbrev Result := Host.Outcome State Fault Refusal

/-- The state a session with parameters `p` starts in (R134, R135); every register value here is the spec's
decision D19. -/
def State.init (p : Params) : State where
  params := p
  v := Vector.replicate 16 0
  i := 0
  pc := p.cfg.pcStart.setWidth 16
  stack := Vector.replicate 16 0
  sp := 0
  dt := 0
  st := 0
  keys := 0
  execState := .running
  fault := none
  fr := Vector.replicate 16 0
  currRes := p.cfg.baseRes
  fb := []
  vblankPending := false
  mem := []
  loadOpen := true
  draws := 0

/-- `reset(cfg, params)`: the construction of a session, which refuses an ill-formed parameter set (R134). -/
def State.construct (p : Params) : Option State := if p.wf then some (State.init p) else none

/-- The machine right after reset, for the parameters of `sessionParams` (R134, R135; log 2). No ROM is loaded (R136). -/
def State.reset : State := State.init sessionParams

end Sys2Proof.Machine
end

