-- ==== Sys2Proof/Machine/Ops.lean ====
section
/-! DEFINITION. The named operations over memory, registers, stack and framebuffer, and taking a fault. Every
meaning goes through them. -/

namespace Sys2Proof.Machine

/-! ### Memory (20_memory.md R33 to R47) -/

/-- Reading the list: the listed byte, or `d a` for an unlisted address. -/
def Memory.lookup (d : Nat → Byte) (a : Nat) : Memory → Byte
  | [] => d a
  | (b, w) :: m => if b = a then w else Memory.lookup d a m

/-- Listing a byte at its place in the rising order. -/
def Memory.insert (a : Nat) (w : Byte) : Memory → Memory
  | [] => [(a, w)]
  | (b, u) :: m =>
    if a < b then (a, w) :: (b, u) :: m
    else if a = b then (a, w) :: m
    else (b, u) :: Memory.insert a w m

/-- Unlisting an address. -/
def Memory.erase (a : Nat) : Memory → Memory
  | [] => []
  | (b, u) :: m => if b = a then m else (b, u) :: Memory.erase a m

/-- Writing keeps the canonical form: the initial byte is never listed (log 14). -/
def Memory.write (d : Nat → Byte) (a : Nat) (w : Byte) (m : Memory) : Memory :=
  if w = d a then Memory.erase a m else Memory.insert a w m

/-- Every listed address lies above `lo`, below 4096, in rising order, and its byte is not the initial one. -/
def Memory.wfAbove (d : Nat → Byte) (lo : Nat) : Memory → Bool
  | [] => true
  | (b, w) :: m => decide (lo ≤ b) && decide (b < 0x1000) && decide (w ≠ d b) && Memory.wfAbove d (b + 1) m

/-- The canonical form of memory: rising addresses below 4096, no byte equal to the initial one. -/
def Memory.wf (d : Nat → Byte) (m : Memory) : Bool := Memory.wfAbove d 0 m

/-- `memory[a]` (R11, R33). -/
def State.readByte (s : State) (a : Nat) : Byte := Memory.lookup (initialByte s.params) a s.mem

/-- `memory[a] <- w` (R11, R33). -/
def State.writeByte (s : State) (a : Nat) (w : Byte) : State :=
  { s with mem := Memory.write (initialByte s.params) a w s.mem }

/-- Bytes written at `a`, `a + 1`, … in order (R40). -/
def State.writeBytes (s : State) (a : Nat) : List Byte → State
  | [] => s
  | w :: ws => State.writeBytes (s.writeByte a w) (a + 1) ws

/-! ### Registers -/

/-- `V[r]` (R13). -/
def State.getV (s : State) (r : RegIx) : Byte := s.v[r]

/-- `V[r] <- b` (R13): every register is writable, none is hardwired. -/
def State.setV (s : State) (r : RegIx) (b : Byte) : State := { s with v := s.v.set r b }

/-- A register file after `for k in 0 .. x: file[k] <- f k`. -/
def copyUpTo (f : RegIx → Byte) (file : Vector Byte 16) : Nat → Vector Byte 16
  | 0 => file.set (0 : RegIx) (f 0)
  | k + 1 =>
    let r : RegIx := Fin.ofNat 16 (k + 1)
    (copyUpTo f file k).set r (f r)

/-- `for k in 0 .. x: V[k] <- f k` (R92, R94). -/
def State.setVUpTo (s : State) (x : RegIx) (f : RegIx → Byte) : State := { s with v := copyUpTo f s.v x.val }

/-- `FR[r]` (R24). -/
def State.getFR (s : State) (r : RegIx) : Byte := s.fr[r]

/-- `for k in 0 .. x: FR[k] <- f k` (R93). -/
def State.setFRUpTo (s : State) (x : RegIx) (f : RegIx → Byte) : State := { s with fr := copyUpTo f s.fr x.val }

/-- `V[0], …, V[x]` in order (R91). -/
def State.vUpTo (s : State) (x : RegIx) : List Byte := s.v.toList.take (x.val + 1)

/-- `pc <- target` (R10). -/
def State.setPc (s : State) (target : Word) : State := { s with pc := target }

/-- `I <- a` (R15). -/
def State.setI (s : State) (a : Word) : State := { s with i := a }

/-- `pc <- p + 2`, done before the instruction's own effects (30_encoding.md R52, R139). -/
def State.advance (s : State) : State := s.setPc (s.pc + 2)

/-- A skip adds 2 more when its predicate holds (40_control_flow.md R61). -/
def State.skipIf (s : State) (c : Bool) : State := if c then s.setPc (s.pc + 2) else s

/-! ### The return stack (R17, R18) -/

/-- `stack[k]` (R17). -/
def State.stackEntry (s : State) (k : Nat) : Word := s.stack.toList.getD k 0

/-- `stack[sp] <- a; sp <- sp + 1`, none when the stack is full (R63). -/
def State.push (s : State) (a : Word) : Option State :=
  if s.sp < 16 then some { s with stack := s.stack.setIfInBounds s.sp a, sp := s.sp + 1 } else none

/-- `sp <- sp - 1` and the entry now on top's place, none when the stack is empty (R62). The entry is not cleared. -/
def State.pop (s : State) : Option (Word × State) :=
  if s.sp = 0 then none else some (s.stackEntry (s.sp - 1), { s with sp := s.sp - 1 })

/-! ### Taking a fault (60_exceptions.md R115, R116, R117)

There is no return from a fault: it is "engine-fatal for the current session" and nothing clears it (R117). -/

/-- Fault entry: `s` is the state at the start of the step, so nothing else of the step persists and `pc` keeps the
address of the faulting instruction (R116). -/
def State.enterFault (s : State) (cause : FaultCause) (opcode : Option Word) (addr : Option Nat) : State :=
  { s with fault := some ⟨cause, s.pc, opcode, addr⟩ }

/-- A raise ends the step in the state after fault entry (R12, R116; log 7). -/
def raise (s : State) (cause : FaultCause) (opcode : Option Word) (addr : Option Nat) : Result :=
  .next (s.enterFault cause opcode addr)

/-- A raise by an executing instruction, whose word is its encoding (log 12). -/
def raiseIn (i : Instr) (s : State) (cause : FaultCause) (addr : Option Nat) : Result :=
  raise s cause (some (encode i)) addr

/-- The lowest address above 0xFFF among the bytes from `base` on (20_memory.md R34; 90_conflicts.md C6). -/
def reportedAddress (base : Nat) : Nat := max base 0x1000

/-- Whether one of the `len` bytes at `base`, `base + 1`, … lies above 0xFFF (R34, R84). -/
def outOfRange (base len : Nat) : Bool := decide (0 < len ∧ 0x1000 < base + len)

/-- The address check an instruction makes before its first write (R84): raise, or go on. -/
def checkRange (i : Instr) (s : State) (base len : Nat) (k : Result) : Result :=
  if outOfRange base len then raiseIn i s .addressOutOfRange (some (reportedAddress base)) else k

/-! ### The fetch (30_encoding.md R52, 20_memory.md R39) -/

/-- The word at `pc`, or the address the fetch reports when `pc > 0xFFE`. -/
def State.fetch (s : State) : Except Nat Word :=
  if 0xFFE < s.pc.toNat then .error (reportedAddress s.pc.toNat)
  else .ok (wordOfBytes (s.readByte s.pc.toNat) (s.readByte (s.pc.toNat + 1)))

/-- An instruction word stored at `a`, its high byte first (R39). -/
def State.writeWord (s : State) (a : Nat) (w : Word) : State := s.writeBytes a [highByte w, lowByte w]

/-! ### The framebuffer (43_display.md R95 to R103) -/

/-- The raster order of pixels: by row, then by column. -/
def Pixel.before (p q : Pixel) : Bool := decide (p.1 < q.1) || (decide (p.1 = q.1) && decide (p.2 < q.2))

/-- `FB[r][c]` (R26). -/
def State.pixel (s : State) (r c : Nat) : Bool := s.fb.contains (r, c)

/-- `FB[r][c] <- not FB[r][c]` at one pixel. -/
def Framebuffer.toggle (q : Pixel) : Framebuffer → Framebuffer
  | [] => [q]
  | p :: ps =>
    if Pixel.before q p then q :: p :: ps
    else if q = p then ps
    else p :: Framebuffer.toggle q ps

/-- XOR a list of pixels in, and whether any of them went from 1 to 0 (R98, D32). -/
def Framebuffer.xorAll : List Pixel → Framebuffer → Bool × Framebuffer
  | [], fb => (false, fb)
  | q :: qs, fb =>
    let rest := Framebuffer.xorAll qs (Framebuffer.toggle q fb)
    (fb.contains q || rest.1, rest.2)

/-- Every pixel lies at or after `lo` in raster order, in rising order, inside `h` rows by `w` columns. -/
def Framebuffer.wfFrom (h w : Nat) (lo : Pixel) : Framebuffer → Bool
  | [] => true
  | p :: ps =>
    !(Pixel.before p lo) && decide (p.1 < h) && decide (p.2 < w) && Framebuffer.wfFrom h w (p.1, p.2 + 1) ps

/-- The canonical form of the framebuffer: each true cell listed once, in raster order, inside the grid (log 13). -/
def Framebuffer.wf (h w : Nat) (fb : Framebuffer) : Bool := Framebuffer.wfFrom h w (0, 0) fb

/-- Every cell moves down `d` rows; the vacated rows become false (R101). -/
def Framebuffer.scrollDown (h d : Nat) (fb : Framebuffer) : Framebuffer :=
  (fb.map fun p => (p.1 + d, p.2)).filter fun p => decide (p.1 < h)

/-- Every cell moves right `d` columns; the vacated columns become false (R102). -/
def Framebuffer.scrollRight (w d : Nat) (fb : Framebuffer) : Framebuffer :=
  (fb.map fun p => (p.1, p.2 + d)).filter fun p => decide (p.2 < w)

/-- Every cell moves left `d` columns; the vacated columns become false (R103). -/
def Framebuffer.scrollLeft (d : Nat) (fb : Framebuffer) : Framebuffer :=
  (fb.filter fun p => decide (d ≤ p.2)).map fun p => (p.1, p.2 - d)

end Sys2Proof.Machine
end

