-- ==== Sys2Proof/Machine/Operands.lean ====
section
/-! DEFINITION. Every operand form: which register an instruction reads, which address it computes, the shape and
place of a sprite, the distance of a scroll. -/

namespace Sys2Proof.Machine

/-- The source register of a shift: `x` under `cfg.shift_quirk`, else `y` (41_register_alu.md R80). -/
def shiftSource (c : VariantConfig) (x y : RegIx) : RegIx := if c.shiftQuirk then x else y

/-- The offset register of Bnnn: `nnn[11:8]` under `cfg.jump_quirk`, else 0 (40_control_flow.md R65). -/
def jumpOffsetReg (c : VariantConfig) (nnn : Addr12) : RegIx :=
  if c.jumpQuirk then Fin.ofNat 16 (nnn.toNat / 256) else 0

/-- The low nibble of a register: a glyph number (42_index_memory.md R86) or a key (44_keys_timers_system.md R108). -/
def lowNibble (b : Byte) : RegIx := Fin.ofNat 16 b.toNat

/-- `SMALL_FONT_BASE + 5 · d` (R86, D45). -/
def smallGlyphAddr (p : Params) (d : RegIx) : Word := BitVec.ofNat 16 (p.smallFontBase + 5 * d.val)

/-- `BIG_FONT_BASE + BIG_GLYPH_BYTES · d` (R87, D36). -/
def bigGlyphAddr (p : Params) (d : RegIx) : Word := BitVec.ofNat 16 (p.bigFontBase + p.bigGlyphBytes * d.val)

/-- `I + b` modulo 2^16, masked to 12 bits when `ADD_I_MASK12` (R88, D4). -/
def addToIndex (p : Params) (i : Word) (b : Byte) : Word :=
  let t : Word := BitVec.ofNat 16 (i.toNat + b.toNat)
  if p.addIMask12 then t &&& 0xFFF else t

/-- The post-increment of the dump/load pair: `I + x + k` modulo 2^16 for `cfg.load_store_offset = Some(k)`, else `I`
unchanged (R90, D42). -/
def postIncrement (c : VariantConfig) (i : Word) (x : RegIx) : Word :=
  match c.loadStoreOffset with
  | some k => BitVec.ofNat 16 (i.toNat + x.val + k)
  | none => i

/-- The decimal digits of a byte: hundreds, tens, units (R89, D20). -/
def bcdDigits (b : Byte) : List Byte :=
  [BitVec.ofNat 8 (b.toNat / 100), BitVec.ofNat 8 (b.toNat / 10 % 10), BitVec.ofNat 8 (b.toNat % 10)]

/-- Whether key `k` is held: bit `k` of the mask (10_state.md R21). -/
def State.keyHeld (s : State) (k : RegIx) : Bool := s.keys.getLsbD k.val

/-! ### Sprites (43_display.md R95, R97, R98) -/

/-- `sx = Wmax div W` (10_state.md R25). -/
def State.scaleX (s : State) : Nat := s.params.cfg.maxRes.width / s.currRes.width

/-- `sy = Hmax div H` (R25). -/
def State.scaleY (s : State) : Nat := s.params.cfg.maxRes.height / s.currRes.height

/-- `hires_mode`: `curr_res` is the last of several resolutions (R95). -/
def State.hiresMode (s : State) : Bool :=
  decide (s.currRes = s.params.cfg.maxRes) && decide (1 < s.params.cfg.resolutions.length)

/-- A sprite's rows and its width in pixels. -/
structure SpriteShape where
  rows : Nat
  width : Nat
  deriving DecidableEq, Repr

/-- One or two bytes a row (R97). -/
def SpriteShape.bytesPerRow (sh : SpriteShape) : Nat := sh.width / 8

/-- The bytes a draw reads (R98). -/
def SpriteShape.bytes (sh : SpriteShape) : Nat := sh.rows * sh.bytesPerRow

/-- The shape of Dxyn: `n` rows of 8 pixels; for `n = 0` the big sprite where the dialect has one, else no rows
(R97, D14, D15). -/
def State.spriteShape (s : State) (n : Fin 16) : SpriteShape :=
  if n.val ≠ 0 then ⟨n.val, 8⟩
  else if s.params.cfg.hiresEnabled then
    match s.params.cfg.dxy0LoresWidth with
    | some w0 => ⟨16, (if s.hiresMode then s.params.dxy0HiresWidth.getD w0 else w0).pixels⟩
    | none => ⟨0, 8⟩
  else ⟨0, 8⟩

/-- `sprite_bit(r, c)`: the leftmost pixel of a row is bit 7 of its byte, the left byte first (R97, D13). -/
def State.spriteBit (s : State) (sh : SpriteShape) (r c : Nat) : Bool :=
  (s.readByte (s.i.toNat + sh.bytesPerRow * r + c / 8)).getLsbD (7 - c % 8)

/-- `lx0 = V[x] mod W`: the start wraps (R98). -/
def State.spriteX (s : State) (x : RegIx) : Nat := (s.getV x).toNat % s.currRes.width

/-- `ly0 = V[y] mod H` (R98). -/
def State.spriteY (s : State) (y : RegIx) : Nat := (s.getV y).toNat % s.currRes.height

/-- The backing block of logical pixel `(lx, ly)`, less what falls outside the buffer (R95, R98). -/
def State.backingBlock (s : State) (lx ly : Nat) : List Pixel :=
  (List.range s.scaleY).flatMap fun dy =>
    (List.range s.scaleX).filterMap fun dx =>
      let br := ly * s.scaleY + dy
      let bc := lx * s.scaleX + dx
      if br < s.params.cfg.maxRes.height ∧ bc < s.params.cfg.maxRes.width then some (br, bc) else none

/-- The backing pixels of a sprite's 1-bits, in the order of R98's loops. -/
def State.spritePixels (s : State) (x y : RegIx) (n : Fin 16) : List Pixel :=
  let sh := s.spriteShape n
  (List.range sh.rows).flatMap fun r =>
    (List.range sh.width).flatMap fun c =>
      if s.spriteBit sh r c then s.backingBlock (s.spriteX x + c) (s.spriteY y + r) else []

/-! ### Scroll distances (R100) -/

/-- Vertical distance: scaled by `sy` under `cfg.scroll_quirk`. -/
def State.scrollRows (s : State) (amount : Nat) : Nat :=
  if s.params.cfg.scrollQuirk then amount * s.scaleY else amount

/-- Horizontal distance: scaled by `sx` under `cfg.scroll_quirk`. -/
def State.scrollCols (s : State) (amount : Nat) : Nat :=
  if s.params.cfg.scrollQuirk then amount * s.scaleX else amount

/-- The amount of SCR and SCL in logical columns (R102, R103, D9). -/
def sideScroll : Nat := 4

end Sys2Proof.Machine
end

