-- ==== Sys2Proof/Machine/ControlFlow.lean ====
section
/-! DEFINITION. Control flow: 40_control_flow.md R61 to R69. Each meaning takes the state at the START of the step
(`pc` is the instruction's own address) and answers the state after it; `s.advance` is the `pc <- p + 2` of
30_encoding.md R52 (log 9). -/

namespace Sys2Proof.Machine

/-- RET (R62). -/
def execRet (s : State) : Result :=
  match s.advance.pop with
  | some (target, t) => .next (t.setPc target)
  | none => raiseIn .ret s .stackUnderflow none

/-- CALL nnn (R63): pushes the address of the call + 2. -/
def execCall (nnn : Addr12) (s : State) : Result :=
  match s.advance.push s.advance.pc with
  | some t => .next (t.setPc (nnn.setWidth 16))
  | none => raiseIn (.call nnn) s .stackOverflow none

/-- JP nnn (R64). -/
def execJp (nnn : Addr12) (s : State) : Result := .next (s.advance.setPc (nnn.setWidth 16))

/-- JP V0, nnn (R65): the exact sum, not masked. -/
def execJpV0 (nnn : Addr12) (s : State) : Result :=
  .next (s.advance.setPc (nnn.setWidth 16 + (s.getV (jumpOffsetReg s.params.cfg nnn)).setWidth 16))

/-- SE Vx, nn (R66). -/
def execSeImm (x : RegIx) (nn : Byte) (s : State) : Result := .next (s.advance.skipIf (decide (s.getV x = nn)))

/-- SNE Vx, nn (R67). -/
def execSneImm (x : RegIx) (nn : Byte) (s : State) : Result := .next (s.advance.skipIf (decide (s.getV x ≠ nn)))

/-- SE Vx, Vy (R68). -/
def execSeReg (x y : RegIx) (s : State) : Result := .next (s.advance.skipIf (decide (s.getV x = s.getV y)))

/-- SNE Vx, Vy (R69). -/
def execSneReg (x y : RegIx) (s : State) : Result := .next (s.advance.skipIf (decide (s.getV x ≠ s.getV y)))

end Sys2Proof.Machine
end

