-- ==== Sys2Proof/Machine/Flags.lean ====
section
/-! DEFINITION. Every flag computation of the instruction set (41_register_alu.md R70, R71): an 8-bit result and the
value `V[0xF]` receives. -/

namespace Sys2Proof.Machine

/-- `bool(c)` as a byte (00_scope.md R9). -/
def boolByte (c : Bool) : Byte := if c then 1 else 0

/-- Addition: the exact sum modulo 256, and the carry `bool(sum > 255)` (R70, R78). -/
def addFlag (a b : Byte) : Byte × Bool :=
  let sum := a.toNat + b.toNat
  (BitVec.ofNat 8 sum, decide (255 < sum))

/-- Subtraction `a − b`: modulo 256, and the not-underflow bit `bool(a ≥ b)` (R70, R79, R81). -/
def subFlag (a b : Byte) : Byte × Bool :=
  (BitVec.ofInt 8 ((a.toNat : Int) - (b.toNat : Int)), decide (b.toNat ≤ a.toNat))

/-- Shift right by one: the result, and the bit shifted out, bit 0 (R70, R80). -/
def shrFlag (a : Byte) : Byte × Bool := (a >>> 1, a.getLsbD 0)

/-- Shift left by one: the result, and the bit shifted out, bit 7 (R70, R82). -/
def shlFlag (a : Byte) : Byte × Bool := (a <<< 1, a.getLsbD 7)

/-- `V[0xF]`, the flag register (10_state.md R14). -/
def flagReg : RegIx := 15

/-- The result goes to `V[x]` and after it the flag to `V[0xF]` (R71, D7). -/
def State.setResultFlag (s : State) (x : RegIx) (r : Byte × Bool) : State :=
  (s.setV x r.1).setV flagReg (boolByte r.2)

/-- The result of OR, AND, XOR: `V[0xF]` is cleared after it only under `cfg.logic_quirk` (R75, R76, R77). -/
def State.setLogic (s : State) (x : RegIx) (b : Byte) : State :=
  if s.params.cfg.logicQuirk then (s.setV x b).setV flagReg 0 else s.setV x b

end Sys2Proof.Machine
end

