-- ==== Sys2Proof/Machine/Display.lean ====
section
/-! DEFINITION. The framebuffer writer: 43_display.md R95 to R105. -/

namespace Sys2Proof.Machine

/-- The framebuffer replaced. -/
def State.setFb (s : State) (fb : Framebuffer) : State := { s with fb := fb }

/-- CLS (R96). -/
def execCls (s : State) : Result := .next (s.advance.setFb [])

/-- The vblank signal of a draw: set under `cfg.vblank_quirk`, else unchanged (R99, D16). -/
def State.signalVblank (s : State) : State :=
  { s with vblankPending := s.params.cfg.vblankQuirk || s.vblankPending }

/-- Sprite pixels XORed in, then the collision flag, then the vblank signal (R98). -/
def State.draw (s : State) (pixels : List Pixel) : State :=
  let r := Framebuffer.xorAll pixels s.fb
  ((s.setFb r.2).setV flagReg (boolByte r.1)).signalVblank

/-- DRW Vx, Vy, n (R97, R98, R99). -/
def execDrw (x y : RegIx) (n : Fin 16) (s : State) : Result :=
  checkRange (.drw x y n) s s.i.toNat (s.spriteShape n).bytes (.next (s.advance.draw (s.spritePixels x y n)))

/-- SCD n (R101). -/
def execScd (n : Fin 16) (s : State) : Result :=
  .next (s.advance.setFb (s.fb.scrollDown s.params.cfg.maxRes.height (s.scrollRows n.val)))

/-- SCR (R102). -/
def execScr (s : State) : Result :=
  .next (s.advance.setFb (s.fb.scrollRight s.params.cfg.maxRes.width (s.scrollCols sideScroll)))

/-- SCL (R103). -/
def execScl (s : State) : Result :=
  .next (s.advance.setFb (s.fb.scrollLeft (s.scrollCols sideScroll)))

/-- `curr_res` switched and every cell cleared, also when the resolution does not change (R104, R105, D37). -/
def State.switchRes (s : State) (r : Resolution) : State := { s with currRes := r, fb := [] }

/-- LOW (R104). -/
def execLow (s : State) : Result := .next (s.advance.switchRes s.params.cfg.baseRes)

/-- HIGH (R105). -/
def execHigh (s : State) : Result := .next (s.advance.switchRes s.params.cfg.maxRes)

end Sys2Proof.Machine
end

