-- ==== Sys2Proof/Machine/IndexMemory.lean ====
section
/-! DEFINITION. Index register, font addresses, BCD, register dump and load, flag registers: 42_index_memory.md
R84 to R94. The data addressing mode is "index plus constant", exact and unmasked (R84). -/

namespace Sys2Proof.Machine

/-- LD I, nnn (R85). -/
def execLdI (nnn : Addr12) (s : State) : Result := .next (s.advance.setI (nnn.setWidth 16))

/-- LD F, Vx (R86). -/
def execLdF (x : RegIx) (s : State) : Result :=
  .next (s.advance.setI (smallGlyphAddr s.params (lowNibble (s.getV x))))

/-- LD HF, Vx (R87). -/
def execLdHF (x : RegIx) (s : State) : Result :=
  .next (s.advance.setI (bigGlyphAddr s.params (lowNibble (s.getV x))))

/-- ADD I, Vx (R88): `V[0xF]` is not written (D34). -/
def execAddI (x : RegIx) (s : State) : Result := .next (s.advance.setI (addToIndex s.params s.i (s.getV x)))

/-- LD B, Vx (R89). -/
def execLdB (x : RegIx) (s : State) : Result :=
  checkRange (.ldB x) s s.i.toNat 3 (.next (s.advance.writeBytes s.i.toNat (bcdDigits (s.getV x))))

/-- LD [I], Vx (R91), with the post-increment of R90. -/
def execLdMemVx (x : RegIx) (s : State) : Result :=
  checkRange (.ldMemVx x) s s.i.toNat (x.val + 1)
    (.next ((s.advance.writeBytes s.i.toNat (s.vUpTo x)).setI (postIncrement s.params.cfg s.i x)))

/-- LD Vx, [I] (R92), with the post-increment of R90. -/
def execLdVxMem (x : RegIx) (s : State) : Result :=
  checkRange (.ldVxMem x) s s.i.toNat (x.val + 1)
    (.next ((s.advance.setVUpTo x fun k => s.readByte (s.i.toNat + k.val)).setI (postIncrement s.params.cfg s.i x)))

/-- LD R, Vx (R93). -/
def execLdRVx (x : RegIx) (s : State) : Result := .next (s.advance.setFRUpTo x s.getV)

/-- LD Vx, R (R94). -/
def execLdVxR (x : RegIx) (s : State) : Result := .next (s.advance.setVUpTo x s.getFR)

end Sys2Proof.Machine
end

