-- ==== Sys2Proof/Machine/KeysTimers.lean ====
section
/-! DEFINITION. Halt, key and timer instructions: 44_keys_timers_system.md R107 to R113. -/

namespace Sys2Proof.Machine

/-- `exec_state <- e` (10_state.md R22). -/
def State.setExec (s : State) (e : ExecState) : State := { s with execState := e }

/-- `DT <- b` (10_state.md R19). -/
def State.setDt (s : State) (b : Byte) : State := { s with dt := b }

/-- `ST <- b` (10_state.md R20). -/
def State.setSt (s : State) (b : Byte) : State := { s with st := b }

/-- EXIT (R107): terminal. -/
def execExit (s : State) : Result := .next (s.advance.setExec .halted)

/-- SKP Vx (R108): the key of the low nibble (D12). -/
def execSkp (x : RegIx) (s : State) : Result := .next (s.advance.skipIf (s.keyHeld (lowNibble (s.getV x))))

/-- SKNP Vx (R109). -/
def execSknp (x : RegIx) (s : State) : Result := .next (s.advance.skipIf (!s.keyHeld (lowNibble (s.getV x))))

/-- LD Vx, K (R110): `V[x]` is written later, by the host's key release. -/
def execLdVxK (x : RegIx) (s : State) : Result := .next (s.advance.setExec (.waitingForKey x))

/-- LD Vx, DT (R111). -/
def execLdVxDT (x : RegIx) (s : State) : Result := .next (s.advance.setV x s.dt)

/-- LD DT, Vx (R112). -/
def execLdDTVx (x : RegIx) (s : State) : Result := .next (s.advance.setDt (s.getV x))

/-- LD ST, Vx (R113). -/
def execLdSTVx (x : RegIx) (s : State) : Result := .next (s.advance.setSt (s.getV x))

end Sys2Proof.Machine
end

