-- ==== Sys2Proof/Machine/RegisterAlu.lean ====
section
/-! DEFINITION. Register and arithmetic instructions: 41_register_alu.md R70 to R83. Every source register is read in
the starting state, before any write (R71). -/

namespace Sys2Proof.Machine

/-- LD Vx, nn (R72). -/
def execLdImm (x : RegIx) (nn : Byte) (s : State) : Result := .next (s.advance.setV x nn)

/-- ADD Vx, nn (R73): byte wraparound, no flag. -/
def execAddImm (x : RegIx) (nn : Byte) (s : State) : Result :=
  .next (s.advance.setV x (addFlag (s.getV x) nn).1)

/-- LD Vx, Vy (R74). -/
def execLdReg (x y : RegIx) (s : State) : Result := .next (s.advance.setV x (s.getV y))

/-- OR Vx, Vy (R75). -/
def execOrReg (x y : RegIx) (s : State) : Result := .next (s.advance.setLogic x (s.getV x ||| s.getV y))

/-- AND Vx, Vy (R76). -/
def execAndReg (x y : RegIx) (s : State) : Result := .next (s.advance.setLogic x (s.getV x &&& s.getV y))

/-- XOR Vx, Vy (R77). -/
def execXorReg (x y : RegIx) (s : State) : Result := .next (s.advance.setLogic x (s.getV x ^^^ s.getV y))

/-- ADD Vx, Vy (R78). -/
def execAddReg (x y : RegIx) (s : State) : Result :=
  .next (s.advance.setResultFlag x (addFlag (s.getV x) (s.getV y)))

/-- SUB Vx, Vy (R79): `Vx − Vy`. -/
def execSubReg (x y : RegIx) (s : State) : Result :=
  .next (s.advance.setResultFlag x (subFlag (s.getV x) (s.getV y)))

/-- SHR Vx, Vy (R80). -/
def execShrReg (x y : RegIx) (s : State) : Result :=
  .next (s.advance.setResultFlag x (shrFlag (s.getV (shiftSource s.params.cfg x y))))

/-- SUBN Vx, Vy (R81): `Vy − Vx`. -/
def execSubnReg (x y : RegIx) (s : State) : Result :=
  .next (s.advance.setResultFlag x (subFlag (s.getV y) (s.getV x)))

/-- SHL Vx, Vy (R82). -/
def execShlReg (x y : RegIx) (s : State) : Result :=
  .next (s.advance.setResultFlag x (shlFlag (s.getV (shiftSource s.params.cfg x y))))

/-- `V[x] <- rand & nn`, for a random byte the step supplies; the draw is counted (R83). -/
def State.setRandom (s : State) (x : RegIx) (rand nn : Byte) : State :=
  { s.setV x (rand &&& nn) with draws := s.draws + 1 }

/-- RND Vx, nn (R83): the byte is the free value of this draw (D31; log 4). -/
def execRnd (x : RegIx) (nn : Byte) (s : State) : Result :=
  .next (s.advance.setRandom x (Config.randomByte s.draws) nn)

end Sys2Proof.Machine
end

