-- ==== Sys2Proof/Machine/Cycle.lean ====
section
/-! DEFINITION. One turn of the execution cycle of a running unit: fetch, decode, execute (30_encoding.md R52), with
the checks in the order of 60_exceptions.md R115. -/

namespace Sys2Proof.Machine

/-- The decode and execution of the fetched word `w`; a rejected word raises `IllegalInstruction(w)` (R54, R55). -/
def runWord (s : State) (w : Word) : Result :=
  match decode s.params.cfg w with
  | .ok i => exec i s
  | .error _ => raise s .illegalInstruction (some w) none

/-- Fetch, then decode and execute; a fetch above 0xFFE raises with no word recorded (R52, R114). -/
def cycle (s : State) : Result :=
  match s.fetch with
  | .ok w => runWord s w
  | .error a => raise s .addressOutOfRange none (some a)

/-- One `step()` of a unit with well-formed parameters: a faulted, halted or waiting unit changes no state
(R52, 10_state.md R22, 60_exceptions.md R117); a running one runs the cycle, and `load_rom` is closed from then on
(20_memory.md R38). -/
def stepUnit (s : State) : Result :=
  match s.fault, s.execState with
  | none, .running => cycle { s with loadOpen := false }
  | _, _ => .next s

end Sys2Proof.Machine
end

