-- ==== Sys2Proof/Machine/Step.lean ====
section
/-! DEFINITION. `step()`, and placing the next instruction word. -/

namespace Sys2Proof.Machine

/-- One `step()` (30_encoding.md R52). An ill-formed parameter set is refused rather than given a meaning
(00_scope.md R5, 20_memory.md R36). -/
def step (s : State) : Host.Outcome State Fault Refusal :=
  if s.params.wf then stepUnit s else .refused .illFormedParams

/-- `s` with the instruction word whose bits are `w` (those at and above `nbits` zero) stored at `pc`, its high byte
first. A `pc` above 0xFFE fetches nothing, and there nothing is stored. Nothing else changes: a running unit without a fault and with `pc ≤ 0xFFE` fetches exactly that word. It stands
for the host's `load_rom` of a one-instruction program (log 18). -/
def State.withFetchWord (s : State) (nbits w : Nat) : State :=
  if s.pc.toNat ≤ 0xFFE then s.writeWord s.pc.toNat (BitVec.ofNat 16 (w % 2 ^ nbits)) else s

end Sys2Proof.Machine
end

