-- ==== Sys2Proof/Machine/Transactions.lean ====
section
/-! DEFINITION. The host's transactions and queries: 60_exceptions.md R118 to R128, 20_memory.md R38, R44,
43_display.md R106, and the host's duties and the end of a run of 70_reset_and_hazards.md R136, R137, R142. -/

namespace Sys2Proof.Machine

/-! ### `step()` with its result (R126) -/

/-- What `step()` returns to the host. -/
inductive StepResult where
  /-- One instruction was fetched, decoded and executed. -/
  | executed
  /-- `exec_state` was `Halted` or `WaitingForKey(r)`; nothing changed. -/
  | idle
  /-- This step raised the cause, or an earlier step had. -/
  | faulted (cause : FaultCause)
  deriving DecidableEq, Repr

/-- The result of a step from `s` to `t`: an earlier fault, then an idle state, then a fault of this step (R115, R126). -/
def stepResult (s t : State) : StepResult :=
  match s.fault, s.execState, t.fault with
  | some f, _, _ => .faulted f.cause
  | none, .halted, _ => .idle
  | none, .waitingForKey _, _ => .idle
  | none, .running, some f => .faulted f.cause
  | none, .running, none => .executed

/-! ### Keys (R120, R121) -/

/-- The mask bit of key `k`. -/
def keyBit (k : Nat) : BitVec 16 := BitVec.ofNat 16 (2 ^ k)

/-- `press_key(k)` (R120): refused above 15. -/
def pressKey (k : Nat) (s : State) : Result :=
  if k ≤ 15 then .next { s with keys := s.keys ||| keyBit k } else .refused .keyCodeOutOfRange

/-- The end of a key wait by the release of key `k`, in a unit without a fault (R121). -/
def State.resolveWait (s : State) (k : Nat) : State :=
  match s.fault, s.execState with
  | none, .waitingForKey r => { s.setV r (BitVec.ofNat 8 k) with execState := .running }
  | _, _ => s

/-- `release_key(k)` (R121): refused above 15; any valid release ends a wait (D21). -/
def releaseKey (k : Nat) (s : State) : Result :=
  if k ≤ 15 then .next (State.resolveWait { s with keys := s.keys &&& ~~~(keyBit k) } k)
  else .refused .keyCodeOutOfRange

/-! ### The frame tick (R124) -/

/-- A timer counts down and stops at 0. -/
def countDown (b : Byte) : Byte := if b = 0 then 0 else b - 1

/-- `decrement_once()` (R124), in every state. -/
def decrementOnce (s : State) : State :=
  { s with dt := countDown s.dt, st := countDown s.st, vblankPending := false }

/-! ### `load_rom` (20_memory.md R38, 60_exceptions.md R118) -/

/-- The bytes fit between `pc_start` and the end of memory (R38). -/
def romFits (bytes : List Byte) (s : State) : Bool := decide (bytes.length ≤ 4096 - s.params.cfg.pcStart.toNat)

/-- `load_rom(bytes)`: fails and writes nothing when the bytes do not fit, when a step has run, or when an earlier
load succeeded. -/
def loadRom (bytes : List Byte) (s : State) : Result :=
  if s.loadOpen && romFits bytes s then
    .next { s.writeBytes s.params.cfg.pcStart.toNat bytes with loadOpen := false }
  else .fault .romLoadError

/-! ### Queries (R127): they read state and change nothing -/

/-- `is_sound_active()` (R125). -/
def isSoundActive (s : State) : Bool := decide (0 < s.st.toNat)

/-- `is_halted()` (R127). -/
def isHalted (s : State) : Bool := decide (s.execState = .halted)

/-- `is_vblank_pending()` (R127). -/
def isVblankPending (s : State) : Bool := s.vblankPending

/-- `fault_status()` (R127). -/
def faultStatus (s : State) : Option FaultRecord := s.fault

/-- `pixel_snapshot()`: the whole `Hmax × Wmax` grid, row by row, and the active resolution (43_display.md R106). -/
def pixelSnapshot (s : State) : List (List Bool) × Resolution :=
  ((List.range s.params.cfg.maxRes.height).map fun r =>
    (List.range s.params.cfg.maxRes.width).map fun c => s.pixel r c, s.currRes)

/-- The queries of R127. -/
inductive Query where
  | isSoundActive
  | pixelSnapshot
  | isHalted
  | isVblankPending
  | faultStatus
  deriving DecidableEq, Repr

/-- What a query returns. -/
inductive Answer where
  | flag (b : Bool)
  | snapshot (grid : List (List Bool)) (active : Resolution)
  | faultRegister (f : Option FaultRecord)
  deriving DecidableEq, Repr

/-- The answer of a query: a function of the state alone (R127). -/
def ask (q : Query) (s : State) : Answer :=
  match q with
  | .isSoundActive => .flag (isSoundActive s)
  | .pixelSnapshot => .snapshot (pixelSnapshot s).1 (pixelSnapshot s).2
  | .isHalted => .flag (isHalted s)
  | .isVblankPending => .flag (isVblankPending s)
  | .faultStatus => .faultRegister (faultStatus s)

/-! ### Sequences of transactions (20_memory.md R44, 60_exceptions.md R128) -/

/-- A transaction the host makes; the queries are left out, since they change nothing (R127). -/
inductive Transaction where
  | loadRom (bytes : List Byte)
  | step
  | decrementOnce
  | pressKey (k : Nat)
  | releaseKey (k : Nat)
  deriving DecidableEq, Repr

/-- One atomic transaction (R44, R128). -/
def perform (tr : Transaction) (s : State) : Result :=
  match tr with
  | .loadRom bytes => loadRom bytes s
  | .step => step s
  | .decrementOnce => .next (decrementOnce s)
  | .pressKey k => pressKey k s
  | .releaseKey k => releaseKey k s

/-- The state after one transaction: a refused or failed one changes no state (R118, R120, R121). -/
def after (tr : Transaction) (s : State) : State :=
  match perform tr s with
  | .next t => t
  | .fault _ => s
  | .refused _ => s

/-- The state after the host's transactions, in the order the host makes them (R44). -/
def afterAll : List Transaction → State → State
  | [], s => s
  | tr :: trs, s => afterAll trs (after tr s)

/-! ### Single-stepping (60_exceptions.md R132)

The unit has no breakpoint, watchpoint, trace or performance counter, and so no state for one. -/

/-- Everything the host can make the unit do: a transaction, or a query (R128). -/
inductive HostCall where
  | transact (tr : Transaction)
  | query (q : Query)
  deriving DecidableEq, Repr

/-- The transaction of a call, none for a query. -/
def HostCall.transaction : HostCall → Option Transaction
  | .transact tr => some tr
  | .query _ => none

/-- The state after one call: a query changes nothing (R127). -/
def afterCall (c : HostCall) (s : State) : State :=
  match c with
  | .transact tr => after tr s
  | .query _ => s

/-- The state after the host's calls, in the order the host makes them. -/
def afterCalls : List HostCall → State → State
  | [], s => s
  | c :: cs, s => afterCalls cs (afterCall c s)

/-- How a host single-steps: `step()` once, then the queries (R132). -/
def singleStepCalls (qs : List Query) : List HostCall := .transact .step :: qs.map .query

/-- What the host has after single-stepping: the state, the result of the step, and the answers. -/
def singleStep (qs : List Query) (s : State) : State × StepResult × List Answer :=
  let t := afterCalls (singleStepCalls qs) s
  (t, stepResult s t, qs.map fun q => ask q t)

/-! ### The host's duties (70_reset_and_hazards.md R136, R142)

A duty constrains the order of the transactions, so each is a predicate on a sequence and the state it starts from. A frame
is the span between two frame ticks, which is how the host calls `decrement_once` once per frame. A key event acts at once
(60_exceptions.md R120, R121), so one delivered before a step is seen by it in every sequence. -/

/-- The boot duty (R136, R142), from the construction of a session on: `load_rom` once and first, then steps, ticks and
keys, and no transaction after a load that failed. Under it `load_rom` is closed exactly when a load has succeeded. -/
def keepsBootDuty : List Transaction → State → Bool
  | [], _ => true
  | tr :: trs, s =>
    match tr with
    | .loadRom bytes => s.loadOpen && (romFits bytes s || trs.isEmpty) && keepsBootDuty trs (after tr s)
    | .step | .decrementOnce | .pressKey _ | .releaseKey _ => !s.loadOpen && keepsBootDuty trs (after tr s)

/-- The vblank duty (R142): under `cfg.vblank_quirk` the host makes no `step()` while `is_vblank_pending()` is true. The
unit does not gate itself (43_display.md R99). -/
def hostMayStep (s : State) : Bool := !(s.params.cfg.vblankQuirk && isVblankPending s)

/-- Every `step` of the sequence is made under the vblank duty (R142). -/
def keepsVblankDuty : List Transaction → State → Bool
  | [], _ => true
  | tr :: trs, s => (decide (tr ≠ .step) || hostMayStep s) && keepsVblankDuty trs (after tr s)

/-- The unit waits for a key (44_keys_timers_system.md R110). -/
def isWaiting (s : State) : Bool :=
  match s.execState with
  | .waitingForKey _ => true
  | .running | .halted => false

/-- The wait duty (R142): the host keeps calling `step()` during a key wait, so no frame ends in a wait without a step of
its own. `stepped` says whether the frame has had one. -/
def keepsWaitDuty (stepped : Bool) : List Transaction → State → Bool
  | [], _ => true
  | tr :: trs, s =>
    match tr with
    | .step => keepsWaitDuty true trs (after tr s)
    | .decrementOnce => (stepped || !isWaiting s) && keepsWaitDuty false trs (after tr s)
    | .loadRom _ | .pressKey _ | .releaseKey _ => keepsWaitDuty stepped trs (after tr s)

/-- The sequences a host that keeps every duty of R142 makes from the state of a new session. -/
def keepsDuties (trs : List Transaction) (s : State) : Bool :=
  keepsBootDuty trs s && keepsVblankDuty trs s && keepsWaitDuty false trs s

/-- A run that R142 admits: the session is constructed, and the host keeps its duties. -/
def admitted (p : Params) (trs : List Transaction) : Bool :=
  match State.construct p with
  | some s => keepsDuties trs s
  | none => false

/-! ### The end of a run (70_reset_and_hazards.md R137) -/

/-- How a run has ended. -/
inductive RunEnd where
  | halted
  | faulted
  | spinning
  deriving DecidableEq, Repr

/-- The word at `pc` is `1nnn` with `nnn = pc`: a jump to itself. -/
def spinsHere (s : State) : Bool :=
  match s.fetch with
  | .ok w => decide (w = wordA 0x1 (s.pc.setWidth 12) ∧ s.pc.toNat < 0x1000)
  | .error _ => false

/-- Whether the run has ended in this state, and how; a key wait is a hold, not an end. -/
def runEnd (s : State) : Option RunEnd :=
  match s.fault, s.execState with
  | some _, _ => some .faulted
  | none, .halted => some .halted
  | none, .waitingForKey _ => none
  | none, .running => if spinsHere s then some .spinning else none

end Sys2Proof.Machine
end

