-- ==== Sys2Proof/Safety.lean ====
section
/-! DEFINITION. The terms claims are stated in: which pieces of state an instruction leaves alone, the invariant of the
unit (10_state.md R31), which backing pixels a sprite covers, and when a step executes a draw. -/

namespace Sys2Proof.Machine

/-! ### Frames -/

/-- A piece of state. -/
inductive Component where
  | params | v | i | pc | stack | sp | dt | st | keys | execState | fault | fr | currRes | fb | vblankPending | mem
  | loadOpen | draws
  deriving DecidableEq, Repr

/-- `t` has the same piece of state as `s`; for memory also byte by byte, at every address. -/
def Unchanged (s t : State) : Component → Prop
  | .params => t.params = s.params
  | .v => t.v = s.v ∧ ∀ r, t.getV r = s.getV r
  | .i => t.i = s.i
  | .pc => t.pc = s.pc
  | .stack => t.stack = s.stack ∧ ∀ k, t.stackEntry k = s.stackEntry k
  | .sp => t.sp = s.sp
  | .dt => t.dt = s.dt
  | .st => t.st = s.st
  | .keys => t.keys = s.keys
  | .execState => t.execState = s.execState
  | .fault => t.fault = s.fault
  | .fr => t.fr = s.fr ∧ ∀ r, t.getFR r = s.getFR r
  | .currRes => t.currRes = s.currRes
  | .fb => t.fb = s.fb ∧ ∀ r c, t.pixel r c = s.pixel r c
  | .vblankPending => t.vblankPending = s.vblankPending
  | .mem => t.mem = s.mem ∧ ∀ a, t.readByte a = s.readByte a
  | .loadOpen => t.loadOpen = s.loadOpen
  | .draws => t.draws = s.draws

/-- Every piece of state but those of `cs` is unchanged. -/
def KeepsAllBut (cs : List Component) (s t : State) : Prop := ∀ c, c ∉ cs → Unchanged s t c

/-- Only `pc`, which advances by 2, and the registers of `rs` may differ. -/
def RegisterStep (s t : State) (rs : List RegIx) : Prop :=
  t.pc = s.pc + 2 ∧ (∀ r, r ∉ rs → t.getV r = s.getV r) ∧ KeepsAllBut [.pc, .v] s t

/-! ### The invariant -/

/-- The state between two transactions (R31), with the canonical forms of the model's lists, the bound R16 gives `pc`,
and the facts R116 and R142 state of a fault and of the vblank signal. -/
structure State.Inv (s : State) : Prop where
  /-- The session's parameters are well formed (00_scope.md R5, 20_memory.md R36). -/
  params_wf : s.params.wf = true
  /-- Memory lists rising addresses below 4096 and no initial byte. -/
  mem_wf : Memory.wf (initialByte s.params) s.mem = true
  /-- The framebuffer lists cells of the `Hmax × Wmax` grid, once each, in raster order. -/
  fb_wf : Framebuffer.wf s.params.cfg.maxRes.height s.params.cfg.maxRes.width s.fb = true
  /-- `0 ≤ sp ≤ 16` (R18). -/
  sp_le : s.sp ≤ 16
  /-- `curr_res` is the first or the last entry of `cfg.resolutions` (R25). -/
  res_known : s.currRes = s.params.cfg.baseRes ∨ s.currRes = s.params.cfg.maxRes
  /-- "at most 0x10FE, from Bnnn" (R16). -/
  pc_le : s.pc.toNat ≤ 0x10FE
  /-- A call pushes at most 0x1000 (40_control_flow.md R63). -/
  stack_le : ∀ k, (s.stackEntry k).toNat ≤ 0x1000
  /-- A faulted unit was running (60_exceptions.md R116). -/
  fault_running : s.fault ≠ none → s.execState = .running
  /-- Without `cfg.vblank_quirk` the signal stays false (70_reset_and_hazards.md R142). -/
  vblank_quirk : s.vblankPending = true → s.params.cfg.vblankQuirk = true
  /-- `load_rom` is open only before the first step, so in a running unit without a fault (20_memory.md R38). -/
  load_open : s.loadOpen = true → s.fault = none ∧ s.execState = .running

/-! ### Drawing -/

/-- Whether the sprite of a draw has a 1-bit over the backing pixel at row `r`, column `c`: the logical pixel that
covers it lies inside the sprite, which does not wrap (43_display.md R95, R97, R98). -/
def State.spriteCovers (s : State) (x y : RegIx) (n : Fin 16) (r c : Nat) : Bool :=
  let sh := s.spriteShape n
  let lr := r / s.scaleY
  let lc := c / s.scaleX
  decide (s.spriteY y ≤ lr) && decide (lr - s.spriteY y < sh.rows)
    && decide (s.spriteX x ≤ lc) && decide (lc - s.spriteX x < sh.width)
    && s.spriteBit sh (lr - s.spriteY y) (lc - s.spriteX x)

/-- The pixel lies in the backing grid (10_state.md R26). -/
def State.onGrid (s : State) (r c : Nat) : Prop :=
  r < s.params.cfg.maxRes.height ∧ c < s.params.cfg.maxRes.width

/-- The bytes a draw reads all lie in memory (R98). -/
def State.spriteInMemory (s : State) (n : Fin 16) : Prop :=
  (s.spriteShape n).bytes = 0 ∨ s.i.toNat + (s.spriteShape n).bytes ≤ 0x1000

/-- The next step executes a Dxyn, with no fault. -/
def executesDraw (s : State) : Bool :=
  match s.fault, s.execState, s.fetch with
  | none, .running, .ok w =>
    match decode s.params.cfg w with
    | .ok (.drw _ _ n) => s.params.wf && !outOfRange s.i.toNat (s.spriteShape n).bytes
    | _ => false
  | _, _, _ => false

/-- How many draws the steps of a sequence of transactions execute. -/
def drawCount : List Transaction → State → Nat
  | [], _ => 0
  | tr :: trs, s => (if tr = .step ∧ executesDraw s = true then 1 else 0) + drawCount trs (after tr s)

end Sys2Proof.Machine
end

