-- ==== Sys2Proof/Certificates/Slice0/Obligations.lean ====
section
/-! DEFINITION. The statements for the provers, from the numbered rules of spec/.
"The spec's Dk" is a decision of spec/92_eei_decisions.md, which the spec marks as its own; a statement that rests on one
has basis 'derived'. `exec i s` takes the state at the start of the step (log 9). -/

open Sys2Proof Sys2Proof.Machine

/-! ### Control flow (40_control_flow.md) -/

/-- R62. RET takes the top entry of the return stack as `pc` and frees it without clearing it; on an empty stack it
raises `StackUnderflow` and writes nothing else (the spec's D6; a raise is a next state by log 7). -/
def Obligations.RetPopsOrUnderflows : Prop :=
  ∀ s : State,
    (0 < s.sp → ∃ t, exec .ret s = .next t ∧ t.sp = s.sp - 1 ∧ t.pc = s.stackEntry (s.sp - 1) ∧
      KeepsAllBut [.pc, .sp] s t) ∧
    (s.sp = 0 → ∃ t, exec .ret s = .next t ∧ t.fault.map (·.cause) = some .stackUnderflow ∧
      KeepsAllBut [.fault] s t)

/-- R63. CALL pushes the address of the call + 2 and jumps; with 16 entries occupied it raises `StackOverflow` and
writes nothing else (the spec's D6; a raise is a next state by log 7). -/
def Obligations.CallPushesOrOverflows : Prop :=
  ∀ (nnn : Addr12) (s : State),
    (s.sp < 16 → ∃ t, exec (.call nnn) s = .next t ∧ t.sp = s.sp + 1 ∧ t.pc.toNat = nnn.toNat ∧
      t.stackEntry s.sp = s.pc + 2 ∧ (∀ k, k ≠ s.sp → t.stackEntry k = s.stackEntry k) ∧
      KeepsAllBut [.pc, .sp, .stack] s t) ∧
    (s.sp = 16 → ∃ t, exec (.call nnn) s = .next t ∧ t.fault.map (·.cause) = some .stackOverflow ∧
      KeepsAllBut [.fault] s t)

/-- R64. JP nnn. -/
def Obligations.JumpSetsPc : Prop :=
  ∀ (nnn : Addr12) (s : State), ∃ t, exec (.jp nnn) s = .next t ∧ t.pc.toNat = nnn.toNat ∧ KeepsAllBut [.pc] s t

/-- JP V0, nnn: the exact, unmasked sum (the spec's D5) of `nnn` and `V[0]`, or `V[x]` with `x = nnn[11:8]` under
`cfg.jump_quirk`. -/
def Obligations.JumpPlusOffsetSetsPc : Prop :=
  ∀ (nnn : Addr12) (s : State), ∃ t, exec (.jpV0 nnn) s = .next t ∧ KeepsAllBut [.pc] s t ∧
    (s.params.cfg.jumpQuirk = false → t.pc.toNat = nnn.toNat + (s.getV 0).toNat) ∧
    (s.params.cfg.jumpQuirk = true → ∀ x : RegIx, x.val = nnn.toNat / 256 →
      t.pc.toNat = nnn.toNat + (s.getV x).toNat)

/-- R66 to R69. A skip adds 2 more to `pc` exactly when its predicate holds, and changes nothing else. -/
def Obligations.SkipsAdvanceByTwoOrFour : Prop :=
  ∀ (x y : RegIx) (nn : Byte) (s : State),
    (∃ t, exec (.seImm x nn) s = .next t ∧ t.pc = s.pc + (if s.getV x = nn then 4 else 2) ∧ KeepsAllBut [.pc] s t) ∧
    (∃ t, exec (.sneImm x nn) s = .next t ∧ t.pc = s.pc + (if s.getV x = nn then 2 else 4) ∧
      KeepsAllBut [.pc] s t) ∧
    (∃ t, exec (.seReg x y) s = .next t ∧ t.pc = s.pc + (if s.getV x = s.getV y then 4 else 2) ∧
      KeepsAllBut [.pc] s t) ∧
    (∃ t, exec (.sneReg x y) s = .next t ∧ t.pc = s.pc + (if s.getV x = s.getV y then 2 else 4) ∧
      KeepsAllBut [.pc] s t)

/-! ### Registers and arithmetic (41_register_alu.md) -/

/-- R72, R73. Immediate load, and immediate add with byte wraparound and no flag. -/
def Obligations.ImmediateLoadAndAdd : Prop :=
  ∀ (x : RegIx) (nn : Byte) (s : State),
    (∃ t, exec (.ldImm x nn) s = .next t ∧ t.getV x = nn ∧ RegisterStep s t [x]) ∧
    (∃ t, exec (.addImm x nn) s = .next t ∧ (t.getV x).toNat = ((s.getV x).toNat + nn.toNat) % 256 ∧
      RegisterStep s t [x])

/-- The register copy 8xy0, which the spec includes by its D11. -/
def Obligations.RegisterCopy : Prop :=
  ∀ (x y : RegIx) (s : State), ∃ t, exec (.ldReg x y) s = .next t ∧ t.getV x = s.getV y ∧ RegisterStep s t [x]

/-- R75, R76, R77. OR, AND, XOR: the bitwise result in `V[x]`, and `V[0xF]` cleared after it under `cfg.logic_quirk`
only. -/
def Obligations.LogicResultAndQuirk : Prop :=
  ∀ (x y : RegIx) (s : State) (i : Instr) (result : Byte),
    (i = .orReg x y ∧ result = s.getV x ||| s.getV y) ∨ (i = .andReg x y ∧ result = s.getV x &&& s.getV y) ∨
      (i = .xorReg x y ∧ result = s.getV x ^^^ s.getV y) →
    ∃ t, exec i s = .next t ∧
      (s.params.cfg.logicQuirk = false → t.getV x = result ∧ RegisterStep s t [x]) ∧
      (s.params.cfg.logicQuirk = true → (x ≠ 15 → t.getV x = result) ∧ t.getV 15 = 0 ∧ RegisterStep s t [x, 15])

/-- R78. ADD: the exact sum modulo 256, and the carry in `V[0xF]`, which is what remains there for `x = 0xF`. -/
def Obligations.AddStoresSumAndCarry : Prop :=
  ∀ (x y : RegIx) (s : State), ∃ t, exec (.addReg x y) s = .next t ∧
    (x ≠ 15 → (t.getV x).toNat = ((s.getV x).toNat + (s.getV y).toNat) % 256) ∧
    (t.getV 15).toNat = (if 255 < (s.getV x).toNat + (s.getV y).toNat then 1 else 0) ∧
    RegisterStep s t [x, 15]

/-- R79. SUB: `Vx − Vy` modulo 256, and the not-underflow bit in `V[0xF]`. -/
def Obligations.SubStoresDifferenceAndNotUnderflow : Prop :=
  ∀ (x y : RegIx) (s : State), ∃ t, exec (.subReg x y) s = .next t ∧
    (x ≠ 15 → (t.getV x).toNat = ((s.getV x).toNat + 256 - (s.getV y).toNat) % 256) ∧
    (t.getV 15).toNat = (if (s.getV y).toNat ≤ (s.getV x).toNat then 1 else 0) ∧
    RegisterStep s t [x, 15]

/-- SUBN: `Vy − Vx` modulo 256, and its not-underflow bit (the operand order is the spec's general knowledge). -/
def Obligations.SubnStoresReverseDifference : Prop :=
  ∀ (x y : RegIx) (s : State), ∃ t, exec (.subnReg x y) s = .next t ∧
    (x ≠ 15 → (t.getV x).toNat = ((s.getV y).toNat + 256 - (s.getV x).toNat) % 256) ∧
    (t.getV 15).toNat = (if (s.getV x).toNat ≤ (s.getV y).toNat then 1 else 0) ∧
    RegisterStep s t [x, 15]

/-- R80, R82. SHR and SHL: the source is `V[x]` under `cfg.shift_quirk` and `V[y]` otherwise; the bit shifted out goes to
`V[0xF]`. -/
def Obligations.ShiftsMoveOnePlace : Prop :=
  ∀ (x y : RegIx) (s : State) (v : Nat), v = (s.getV (if s.params.cfg.shiftQuirk then x else y)).toNat →
    (∃ t, exec (.shrReg x y) s = .next t ∧ (x ≠ 15 → (t.getV x).toNat = v / 2) ∧ (t.getV 15).toNat = v % 2 ∧
      RegisterStep s t [x, 15]) ∧
    (∃ t, exec (.shlReg x y) s = .next t ∧ (x ≠ 15 → (t.getV x).toNat = v * 2 % 256) ∧
      (t.getV 15).toNat = v / 128 ∧ RegisterStep s t [x, 15])

/-- RND (the spec's D31): the free byte of this draw under the mask, for every draw; one draw is used up. -/
def Obligations.RandomByteUnderMask : Prop :=
  ∀ (x : RegIx) (nn : Byte) (s : State), ∃ t, exec (.rnd x nn) s = .next t ∧
    t.getV x = Config.randomByte s.draws &&& nn ∧ t.draws = s.draws + 1 ∧ t.pc = s.pc + 2 ∧
    (∀ r, r ≠ x → t.getV r = s.getV r) ∧ KeepsAllBut [.pc, .v, .draws] s t

/-! ### Index register and memory (42_index_memory.md, 20_memory.md) -/

/-- R85. LD I, nnn. -/
def Obligations.LoadIndexImmediate : Prop :=
  ∀ (nnn : Addr12) (s : State), ∃ t, exec (.ldI nnn) s = .next t ∧ t.i.toNat = nnn.toNat ∧ t.pc = s.pc + 2 ∧
    KeepsAllBut [.pc, .i] s t

/-- LD F and LD HF: the glyph of the low nibble of `V[x]`, in the tables of the spec's D17, D36 and D45. -/
def Obligations.GlyphAddresses : Prop :=
  ∀ (x : RegIx) (s : State), s.params.wf = true →
    (∃ t, exec (.ldF x) s = .next t ∧ t.i.toNat = s.params.smallFontBase + 5 * ((s.getV x).toNat % 16) ∧
      t.pc = s.pc + 2 ∧ KeepsAllBut [.pc, .i] s t) ∧
    (∃ t, exec (.ldHF x) s = .next t ∧
      t.i.toNat = s.params.bigFontBase + s.params.bigGlyphBytes * ((s.getV x).toNat % 16) ∧
      t.pc = s.pc + 2 ∧ KeepsAllBut [.pc, .i] s t)

/-- ADD I, Vx: modulo 2^16, or to 12 bits under `ADD_I_MASK12` (the spec's D4); no flag (D34). -/
def Obligations.AddToIndex : Prop :=
  ∀ (x : RegIx) (s : State), ∃ t, exec (.addI x) s = .next t ∧
    (s.params.addIMask12 = false → t.i.toNat = (s.i.toNat + (s.getV x).toNat) % 65536) ∧
    (s.params.addIMask12 = true → t.i.toNat = (s.i.toNat + (s.getV x).toNat) % 4096) ∧
    t.pc = s.pc + 2 ∧ KeepsAllBut [.pc, .i] s t

/-- LD B, Vx inside memory: hundreds, tens and units at `I`, `I + 1`, `I + 2` (the order is the spec's D20), and every
other byte as before. -/
def Obligations.BcdStoresDigits : Prop :=
  ∀ (x : RegIx) (s : State), s.Inv → s.i.toNat + 2 ≤ 0xFFF → ∃ t, exec (.ldB x) s = .next t ∧
    (t.readByte s.i.toNat).toNat = (s.getV x).toNat / 100 ∧
    (t.readByte (s.i.toNat + 1)).toNat = (s.getV x).toNat / 10 % 10 ∧
    (t.readByte (s.i.toNat + 2)).toNat = (s.getV x).toNat % 10 ∧
    (∀ a, a < s.i.toNat ∨ s.i.toNat + 3 ≤ a → t.readByte a = s.readByte a) ∧
    t.pc = s.pc + 2 ∧ KeepsAllBut [.pc, .mem] s t

/-- LD [I], Vx inside memory: `V[k]` at `I + k` for `k ≤ x`, every other byte as before, and the post-increment of
`cfg.load_store_offset`, not masked (the spec's D42). -/
def Obligations.RegisterDump : Prop :=
  ∀ (x : RegIx) (s : State), s.Inv → s.i.toNat + x.val ≤ 0xFFF → ∃ t, exec (.ldMemVx x) s = .next t ∧
    (∀ k : RegIx, k ≤ x → t.readByte (s.i.toNat + k.val) = s.getV k) ∧
    (∀ a, a < s.i.toNat ∨ s.i.toNat + x.val < a → t.readByte a = s.readByte a) ∧
    (s.params.cfg.loadStoreOffset = none → t.i = s.i) ∧
    (∀ k, s.params.cfg.loadStoreOffset = some k → t.i.toNat = (s.i.toNat + x.val + k) % 65536) ∧
    t.pc = s.pc + 2 ∧ KeepsAllBut [.pc, .i, .mem] s t

/-- LD Vx, [I] inside memory: `V[k]` from `I + k` for `k ≤ x`, every other register and all of memory as before, and the
same post-increment (the spec's D42). -/
def Obligations.RegisterLoad : Prop :=
  ∀ (x : RegIx) (s : State), s.i.toNat + x.val ≤ 0xFFF → ∃ t, exec (.ldVxMem x) s = .next t ∧
    (∀ k : RegIx, k ≤ x → t.getV k = s.readByte (s.i.toNat + k.val)) ∧
    (∀ k : RegIx, x < k → t.getV k = s.getV k) ∧
    (s.params.cfg.loadStoreOffset = none → t.i = s.i) ∧
    (∀ k, s.params.cfg.loadStoreOffset = some k → t.i.toNat = (s.i.toNat + x.val + k) % 65536) ∧
    t.pc = s.pc + 2 ∧ KeepsAllBut [.pc, .i, .v] s t

/-- LD B, LD [I], LD Vx [I] and DRW raise `AddressOutOfRange` when their last byte lies above 0xFFF, report the lowest
such address, and write nothing else (the spec's D5 and D6). -/
def Obligations.OutOfRangeRaisesAndWritesNothing : Prop :=
  ∀ (x y : RegIx) (n : Fin 16) (s : State) (i : Instr) (len : Nat),
    (i = .ldB x ∧ len = 3) ∨ (i = .ldMemVx x ∧ len = x.val + 1) ∨ (i = .ldVxMem x ∧ len = x.val + 1) ∨
      (i = .drw x y n ∧ len = (s.spriteShape n).bytes ∧ 0 < len) →
    0xFFF < s.i.toNat + len - 1 →
    ∃ t, exec i s = .next t ∧
      t.fault = some ⟨.addressOutOfRange, s.pc, some (encode i), some (max s.i.toNat 0x1000)⟩ ∧
      KeepsAllBut [.fault] s t

/-- LD R, Vx and LD Vx, R: `V[0]` to `V[x]` to and from the flag registers, for every `x` (the spec's D29). -/
def Obligations.FlagRegisterDumpAndLoad : Prop :=
  ∀ (x : RegIx) (s : State),
    (∃ t, exec (.ldRVx x) s = .next t ∧ (∀ k, k ≤ x → t.getFR k = s.getV k) ∧
      (∀ k, x < k → t.getFR k = s.getFR k) ∧ t.pc = s.pc + 2 ∧ KeepsAllBut [.pc, .fr] s t) ∧
    (∃ t, exec (.ldVxR x) s = .next t ∧ (∀ k, k ≤ x → t.getV k = s.getFR k) ∧
      (∀ k, x < k → t.getV k = s.getV k) ∧ t.pc = s.pc + 2 ∧ KeepsAllBut [.pc, .v] s t)

/-- Equal memories are equal data: two canonical listings over the same initial contents that read alike at every
address are the same list (the model's canonical form, log 14). -/
def Obligations.MemoryIsItsReads : Prop :=
  ∀ (p : Params) (m m' : Memory), Memory.wf (initialByte p) m = true → Memory.wf (initialByte p) m' = true →
    (∀ a, Memory.lookup (initialByte p) a m = Memory.lookup (initialByte p) a m') → m = m'

/-- Stores are what a later fetch reads (the spec's D27): after LD [I], Vx, a unit whose `pc` is `I + k` fetches the word
of `V[k]` and `V[k + 1]`. -/
def Obligations.FetchSeesStores : Prop :=
  ∀ (x k k' : RegIx) (s t : State), s.Inv → s.i.toNat + x.val ≤ 0xFFF → k'.val = k.val + 1 → k' ≤ x →
    exec (.ldMemVx x) s = .next t →
    State.fetch { t with pc := BitVec.ofNat 16 (s.i.toNat + k.val) } = .ok (wordOfBytes (s.getV k) (s.getV k'))

/-! ### The framebuffer (43_display.md) -/

/-- R96. CLS. -/
def Obligations.ClearScreen : Prop :=
  ∀ s : State, ∃ t, exec .cls s = .next t ∧ (∀ r c, t.pixel r c = false) ∧ t.pc = s.pc + 2 ∧
    KeepsAllBut [.pc, .fb] s t

/-- The shape of a sprite: `n` rows of 8 pixels; for `n = 0` the big sprite of 16 rows, its width chosen as the spec's
D14 says, or no rows where the dialect has none (D15). -/
def Obligations.SpriteShape : Prop :=
  ∀ (n : Fin 16) (s : State),
    (n ≠ 0 → s.spriteShape n = ⟨n.val, 8⟩) ∧
    (n = 0 → s.params.cfg.hiresEnabled = true → ∀ w0, s.params.cfg.dxy0LoresWidth = some w0 →
      (s.hiresMode = false → s.spriteShape n = ⟨16, w0.pixels⟩) ∧
      (s.hiresMode = true → s.spriteShape n = ⟨16, (s.params.dxy0HiresWidth.getD w0).pixels⟩)) ∧
    (n = 0 → s.params.cfg.hiresEnabled = false ∨ s.params.cfg.dxy0LoresWidth = none → (s.spriteShape n).rows = 0)

/-- DRW, backing pixel by backing pixel, in every state of the invariant whose sprite lies in memory: a pixel of the grid
flips exactly when a 1-bit of the sprite covers it, `V[0xF]` is 1 exactly when one of them was true (the spec's D32), and
the vblank signal is set under `cfg.vblank_quirk` (D16). -/
def Obligations.DrawFlipsTheCoveredPixels : Prop :=
  ∀ (x y : RegIx) (n : Fin 16) (s : State), s.Inv → s.spriteInMemory n → ∃ t, exec (.drw x y n) s = .next t ∧
    (∀ r c, s.onGrid r c → t.pixel r c = (s.pixel r c != s.spriteCovers x y n r c)) ∧
    (∀ r c, ¬ s.onGrid r c → t.pixel r c = false) ∧
    (t.getV 15 = 0 ∨ t.getV 15 = 1) ∧
    (t.getV 15 = 1 ↔ ∃ r c, s.onGrid r c ∧ s.spriteCovers x y n r c = true ∧ s.pixel r c = true) ∧
    t.vblankPending = (s.params.cfg.vblankQuirk || s.vblankPending) ∧
    (∀ r, r ≠ 15 → t.getV r = s.getV r) ∧ t.pc = s.pc + 2 ∧
    KeepsAllBut [.pc, .v, .fb, .vblankPending] s t

/-- Two draws of the same sprite flip each pixel by the two places the sprite is drawn at. At the same place, which is
always the case unless `x` or `y` names `V[0xF]`, they give back the framebuffer itself, and the second draw reports a
collision exactly when the sprite covers a pixel that was false before the first (which is how the corner case of the
spec's draw rule holds on a screen that is clear under the sprite; log 20). -/
def Obligations.DrawTwiceRestores : Prop :=
  ∀ (x y : RegIx) (n : Fin 16) (s : State), s.Inv → s.spriteInMemory n →
    ∃ t u, exec (.drw x y n) s = .next t ∧ exec (.drw x y n) t = .next u ∧
      (∀ r c, s.onGrid r c →
        u.pixel r c = ((s.pixel r c != s.spriteCovers x y n r c) != t.spriteCovers x y n r c)) ∧
      (x ≠ 15 → t.spriteX x = s.spriteX x) ∧ (y ≠ 15 → t.spriteY y = s.spriteY y) ∧
      (t.spriteX x = s.spriteX x → t.spriteY y = s.spriteY y → u.fb = s.fb ∧
        (u.getV 15 = 1 ↔ ∃ r c, s.onGrid r c ∧ s.spriteCovers x y n r c = true ∧ s.pixel r c = false))

/-- "`00E0` followed by any draw leaves exactly the drawn pixels set and all others false", and that draw reports no
collision (for a sprite in memory). -/
def Obligations.ClearThenDrawShowsTheSprite : Prop :=
  ∀ (x y : RegIx) (n : Fin 16) (s : State), s.Inv → s.spriteInMemory n →
    ∃ t u, exec .cls s = .next t ∧ exec (.drw x y n) t = .next u ∧ u.getV 15 = 0 ∧
      ∀ r c, s.onGrid r c → u.pixel r c = s.spriteCovers x y n r c

/-- R101. SCD n: every row moves down by `n`, or by `n · sy` under `cfg.scroll_quirk`; the vacated rows are false. -/
def Obligations.ScrollDownMovesRows : Prop :=
  ∀ (n : Fin 16) (s : State) (d : Nat),
    d = (if s.params.cfg.scrollQuirk then n.val * (s.params.cfg.maxRes.height / s.currRes.height) else n.val) →
    ∃ t, exec (.scd n) s = .next t ∧
      (∀ r c, s.onGrid r c → t.pixel r c = (decide (d ≤ r) && s.pixel (r - d) c)) ∧ t.pc = s.pc + 2 ∧
      KeepsAllBut [.pc, .fb] s t

/-- SCR and SCL: every column moves by 4 (the spec's D9), or by `4 · sx` under `cfg.scroll_quirk`; the vacated columns are
false. -/
def Obligations.SideScrollsMoveColumns : Prop :=
  ∀ (s : State) (d : Nat), s.Inv →
    d = (if s.params.cfg.scrollQuirk then 4 * (s.params.cfg.maxRes.width / s.currRes.width) else 4) →
    (∃ t, exec .scr s = .next t ∧
      (∀ r c, s.onGrid r c → t.pixel r c = (decide (d ≤ c) && s.pixel r (c - d))) ∧ t.pc = s.pc + 2 ∧
      KeepsAllBut [.pc, .fb] s t) ∧
    (∃ t, exec .scl s = .next t ∧
      (∀ r c, s.onGrid r c →
        t.pixel r c = (decide (c + d < s.params.cfg.maxRes.width) && s.pixel r (c + d))) ∧ t.pc = s.pc + 2 ∧
      KeepsAllBut [.pc, .fb] s t)

/-- LOW and HIGH select the first and the last entry of `cfg.resolutions` and clear the screen, also when the resolution
does not change (the spec's D37). -/
def Obligations.ResolutionSwitchClears : Prop :=
  ∀ s : State, s.params.wf = true →
    (∃ t, exec .low s = .next t ∧ s.params.cfg.resolutions.head? = some t.currRes ∧ (∀ r c, t.pixel r c = false) ∧
      t.pc = s.pc + 2 ∧ KeepsAllBut [.pc, .fb, .currRes] s t) ∧
    (∃ t, exec .high s = .next t ∧ s.params.cfg.resolutions.getLast? = some t.currRes ∧
      (∀ r c, t.pixel r c = false) ∧ t.pc = s.pc + 2 ∧ KeepsAllBut [.pc, .fb, .currRes] s t)

/-! ### Halt, keys and timers (44_keys_timers_system.md) -/

/-- R107, R110. EXIT halts; LD Vx, K starts a wait and writes no register. -/
def Obligations.ExitHaltsAndKeyWaitStarts : Prop :=
  ∀ (x : RegIx) (s : State),
    (∃ t, exec .exit s = .next t ∧ t.execState = .halted ∧ t.pc = s.pc + 2 ∧ KeepsAllBut [.pc, .execState] s t) ∧
    (∃ t, exec (.ldVxK x) s = .next t ∧ t.execState = .waitingForKey x ∧ t.pc = s.pc + 2 ∧
      KeepsAllBut [.pc, .execState] s t)

/-- SKP and SKNP test the mask bit of the low nibble of `V[x]` (the spec's D12). -/
def Obligations.KeySkips : Prop :=
  ∀ (x : RegIx) (s : State),
    (∃ t, exec (.skp x) s = .next t ∧
      t.pc = s.pc + (if s.keys.getLsbD ((s.getV x).toNat % 16) then 4 else 2) ∧ KeepsAllBut [.pc] s t) ∧
    (∃ t, exec (.sknp x) s = .next t ∧
      t.pc = s.pc + (if s.keys.getLsbD ((s.getV x).toNat % 16) then 2 else 4) ∧ KeepsAllBut [.pc] s t)

/-- R111, R112, R113. The timer transfers; the sound is active from an `LD ST, Vx` on exactly when it wrote more than 0. -/
def Obligations.TimerTransfers : Prop :=
  ∀ (x : RegIx) (s : State),
    (∃ t, exec (.ldVxDT x) s = .next t ∧ t.getV x = s.dt ∧ RegisterStep s t [x]) ∧
    (∃ t, exec (.ldDTVx x) s = .next t ∧ t.dt = s.getV x ∧ t.pc = s.pc + 2 ∧ KeepsAllBut [.pc, .dt] s t) ∧
    (∃ t, exec (.ldSTVx x) s = .next t ∧ t.st = s.getV x ∧ (isSoundActive t = true ↔ 0 < (s.getV x).toNat) ∧
      t.pc = s.pc + 2 ∧ KeepsAllBut [.pc, .st] s t)

/-! ### One step (30_encoding.md R52, 60_exceptions.md) -/

/-- A step runs the decoded instruction: on a running unit without a fault, `step` is `exec` of what the two bytes at `pc`
decode to, with `load_rom` closed (log 6). -/
def Obligations.StepRunsTheDecodedInstruction : Prop :=
  ∀ (s : State) (i : Instr), s.params.wf = true → s.fault = none → s.execState = .running → s.pc.toNat ≤ 0xFFE →
    decode s.params.cfg (wordOfBytes (s.readByte s.pc.toNat) (s.readByte (s.pc.toNat + 1))) = .ok i →
    step s = exec i { s with loadOpen := false }

/-- A step runs the encoded instruction: for every instruction of the dialect whose two bytes lie at `pc`, high byte
first (the spec's D1). -/
def Obligations.StepRunsTheEncodedInstruction : Prop :=
  ∀ (s : State) (i : Instr), s.params.wf = true → s.fault = none → s.execState = .running → s.pc.toNat ≤ 0xFFE →
    i.wf s.params.cfg = true → [s.readByte s.pc.toNat, s.readByte (s.pc.toNat + 1)] = encodeBytes i →
    step s = exec i { s with loadOpen := false }

/-- A fetch above 0xFFE and a word outside the dialect raise, with the record the fault table gives, and write nothing
else (the spec's D5 and D6; `load_rom` closes, log 6). -/
def Obligations.FetchAndDecodeFaults : Prop :=
  ∀ s : State, s.params.wf = true → s.fault = none → s.execState = .running →
    (0xFFE < s.pc.toNat → ∃ t, step s = .next t ∧
      t.fault = some ⟨.addressOutOfRange, s.pc, none, some (max s.pc.toNat 0x1000)⟩ ∧
      KeepsAllBut [.fault, .loadOpen] s t) ∧
    (s.pc.toNat ≤ 0xFFE → ∀ w, w = wordOfBytes (s.readByte s.pc.toNat) (s.readByte (s.pc.toNat + 1)) →
      (∀ i, decode s.params.cfg w ≠ .ok i) → ∃ t, step s = .next t ∧
      t.fault = some ⟨.illegalInstruction, s.pc, some w, none⟩ ∧ KeepsAllBut [.fault, .loadOpen] s t)

/-- Faults are precise (the spec's D6): an instruction that leaves another fault register behind has changed nothing else,
records its own address and word, and is one of the six that can raise, for the reason the fault table gives. -/
def Obligations.FaultsArePrecise : Prop :=
  ∀ (i : Instr) (s t : State), exec i s = .next t → t.fault ≠ s.fault →
    KeepsAllBut [.fault] s t ∧ ∃ cause addr, t.fault = some ⟨cause, s.pc, some (encode i), addr⟩ ∧
      ((i = .ret ∧ s.sp = 0 ∧ cause = .stackUnderflow ∧ addr = none) ∨
        ((∃ nnn, i = .call nnn) ∧ 16 ≤ s.sp ∧ cause = .stackOverflow ∧ addr = none) ∨
        (((∃ x y n, i = .drw x y n) ∨ (∃ x, i = .ldB x ∨ i = .ldMemVx x ∨ i = .ldVxMem x)) ∧
          cause = .addressOutOfRange ∧ addr = some (max s.i.toNat 0x1000)))

/-- A step always answers a next state: with well-formed parameters nothing the unit fetches stops the model. -/
def Obligations.EveryStepAnswers : Prop :=
  ∀ s : State, s.params.wf = true → ∃ t, step s = .next t

/-- The writers of every piece of state. No instruction writes the configuration, the parameters, the key mask or the load
window. `pc` advances by 2 but for the jumps, calls, returns and skips, and for an instruction that raises, which keeps
it; timers change only by their two instructions, memory only by LD B and LD [I], the flag registers only by LD R, the
stack only by CALL, the resolution only by LOW and HIGH, `exec_state` only by EXIT and LD Vx, K, the vblank signal only by
DRW under its quirk, the fault register only by the six instructions that can raise. The writers of `V` register by
register are `WritersOfGeneralRegisters`. -/
def Obligations.WritersOfEachPieceOfState : Prop :=
  ∀ (i : Instr) (s t : State), exec i s = .next t →
    t.params = s.params ∧ t.keys = s.keys ∧ t.loadOpen = s.loadOpen ∧
    (t.v ≠ s.v →
      (∃ x nn, i = .ldImm x nn ∨ i = .addImm x nn ∨ i = .rnd x nn) ∨
      (∃ x y, i = .ldReg x y ∨ i = .orReg x y ∨ i = .andReg x y ∨ i = .xorReg x y ∨ i = .addReg x y ∨ i = .subReg x y ∨
        i = .shrReg x y ∨ i = .subnReg x y ∨ i = .shlReg x y) ∨
      (∃ x y n, i = .drw x y n) ∨ ∃ x, i = .ldVxDT x ∨ i = .ldVxMem x ∨ i = .ldVxR x) ∧
    (t.pc ≠ s.pc + 2 →
      (i = .ret ∨ (∃ nnn, i = .jp nnn ∨ i = .call nnn ∨ i = .jpV0 nnn) ∨
        (∃ x nn, i = .seImm x nn ∨ i = .sneImm x nn) ∨ (∃ x y, i = .seReg x y ∨ i = .sneReg x y) ∨
        ∃ x, i = .skp x ∨ i = .sknp x) ∨
      (t.pc = s.pc ∧ t.fault ≠ none ∧
        ((∃ x y n, i = .drw x y n) ∨ ∃ x, i = .ldB x ∨ i = .ldMemVx x ∨ i = .ldVxMem x))) ∧
    (t.fault ≠ s.fault → i = .ret ∨ (∃ nnn, i = .call nnn) ∨ (∃ x y n, i = .drw x y n) ∨
      ∃ x, i = .ldB x ∨ i = .ldMemVx x ∨ i = .ldVxMem x) ∧
    (t.dt ≠ s.dt → ∃ x, i = .ldDTVx x) ∧
    (t.st ≠ s.st → ∃ x, i = .ldSTVx x) ∧
    (t.mem ≠ s.mem → ∃ x, i = .ldB x ∨ i = .ldMemVx x) ∧
    (t.fr ≠ s.fr → ∃ x, i = .ldRVx x) ∧
    (t.stack ≠ s.stack → ∃ nnn, i = .call nnn) ∧
    (t.sp ≠ s.sp → i = .ret ∨ ∃ nnn, i = .call nnn) ∧
    (t.i ≠ s.i → (∃ nnn, i = .ldI nnn) ∨
      ∃ x, i = .addI x ∨ i = .ldF x ∨ i = .ldHF x ∨ i = .ldMemVx x ∨ i = .ldVxMem x) ∧
    (t.currRes ≠ s.currRes → i = .low ∨ i = .high) ∧
    (t.fb ≠ s.fb → i = .cls ∨ i = .scr ∨ i = .scl ∨ i = .low ∨ i = .high ∨ (∃ n, i = .scd n) ∨
      ∃ x y n, i = .drw x y n) ∧
    (t.execState ≠ s.execState → i = .exit ∨ ∃ x, i = .ldVxK x) ∧
    (t.vblankPending ≠ s.vblankPending → s.params.cfg.vblankQuirk = true ∧ ∃ x y n, i = .drw x y n) ∧
    (t.draws ≠ s.draws → ∃ x nn, i = .rnd x nn)

/-- Which instructions write which general register: those that name it as `x`, the two loads up to `x`, and for `V[0xF]`
also the instructions that define a flag outcome, OR, AND and XOR among them under `cfg.logic_quirk` only. -/
def Obligations.WritersOfGeneralRegisters : Prop :=
  ∀ (i : Instr) (s t : State) (r : RegIx), exec i s = .next t → t.getV r ≠ s.getV r →
    (∃ nn, i = .ldImm r nn ∨ i = .addImm r nn ∨ i = .rnd r nn) ∨
      (∃ y, i = .ldReg r y ∨ i = .orReg r y ∨ i = .andReg r y ∨ i = .xorReg r y ∨ i = .addReg r y ∨ i = .subReg r y ∨
        i = .shrReg r y ∨ i = .subnReg r y ∨ i = .shlReg r y) ∨
      i = .ldVxDT r ∨ (∃ x, r ≤ x ∧ (i = .ldVxMem x ∨ i = .ldVxR x)) ∨
      (r = 15 ∧ ((∃ x y, i = .addReg x y ∨ i = .subReg x y ∨ i = .shrReg x y ∨ i = .subnReg x y ∨ i = .shlReg x y) ∨
        (s.params.cfg.logicQuirk = true ∧ ∃ x y, i = .orReg x y ∨ i = .andReg x y ∨ i = .xorReg x y) ∨
        ∃ x y n, i = .drw x y n))

/-! ### Encoding (30_encoding.md) -/

/-- Decoding the encoding of any instruction, with any operands, gives it back. -/
def Obligations.DecodeOfEncode : Prop := ∀ i : Instr, decodeWord (encode i) = some i

/-- Each word has at most one meaning: a word that decodes is the encoding of what it decodes to. -/
def Obligations.EncodeOfDecode : Prop := ∀ (w : Word) (i : Instr), decodeWord w = some i → encode i = w

/-- The words that match no row are exactly those of the list of illegal words, by leading nibble. -/
def Obligations.IllegalWordsAreTheListed : Prop :=
  ∀ w : Word, decodeWord w = none ↔
    ((w.toNat ≤ 0x00BF ∨ (0x00D0 ≤ w.toNat ∧ w.toNat ≤ 0x00DF) ∨ (0x00E1 ≤ w.toNat ∧ w.toNat ≤ 0x00ED) ∨
        (0x00EF ≤ w.toNat ∧ w.toNat ≤ 0x00FA) ∨ (0x0100 ≤ w.toNat ∧ w.toNat ≤ 0x0FFF)) ∨
      (w.toNat / 4096 = 5 ∧ w.toNat % 16 ≠ 0) ∨
      (w.toNat / 4096 = 8 ∧ w.toNat % 16 ∈ [0x8, 0x9, 0xA, 0xB, 0xC, 0xD, 0xF]) ∨
      (w.toNat / 4096 = 9 ∧ w.toNat % 16 ≠ 0) ∨
      (w.toNat / 4096 = 0xE ∧ w.toNat % 256 ∉ [0x9E, 0xA1]) ∨
      (w.toNat / 4096 = 0xF ∧
        w.toNat % 256 ∉ [0x07, 0x0A, 0x15, 0x18, 0x1E, 0x29, 0x30, 0x33, 0x55, 0x65, 0x75, 0x85]))

/-- A word that matches a row of opcode_table.json under its mask decodes to an instruction of that row, and an encoding
matches its own row. -/
def Obligations.DecodingFollowsTheMaskTable : Prop :=
  (∀ i : Instr, encode i &&& i.row.mask = i.row.pattern) ∧
    ∀ (i : Instr) (w : Word), w &&& i.row.mask = i.row.pattern → ∃ j, decodeWord w = some j ∧ j.row = i.row

/-- The gates (the spec's D8 for scrolling and hires): a dialect decodes the encoding of an instruction exactly when its
row's feature is enabled, and rejects it by that gate otherwise. -/
def Obligations.GatesOfTheDialect : Prop :=
  ∀ (c : VariantConfig) (i : Instr) (enabled : Bool),
    enabled = (match i with
      | .ldRVx _ | .ldVxR _ => c.flagRegistersEnabled
      | .scd _ | .scr | .scl => c.scrollingEnabled
      | .exit | .low | .high | .ldHF _ => c.hiresEnabled
      | _ => true) →
    (enabled = true → decode c (encode i) = .ok i) ∧
    (enabled = false → ∃ g, i.gate = some g ∧ decode c (encode i) = .error (.gated g))

/-- Words written out from the encodings decode to their instructions. -/
def Obligations.SampleWordsDecode : Prop :=
  decodeWord 0x00E0 = some .cls ∧ decodeWord 0x00C3 = some (.scd 3) ∧ decodeWord 0x2ABC = some (.call 0xABC) ∧
    decodeWord 0x7301 = some (.addImm 3 0x01) ∧ decodeWord 0x812E = some (.shlReg 1 2) ∧
    decodeWord 0xB210 = some (.jpV0 0x210) ∧ decodeWord 0xD125 = some (.drw 1 2 5) ∧
    decodeWord 0xE39E = some (.skp 3) ∧ decodeWord 0xF155 = some (.ldMemVx 1) ∧ decodeWord 0xF000 = none

/-! ### Reset (70_reset_and_hazards.md R134, R135) -/

/-- Construction: an ill-formed parameter set is refused, and a well-formed one gives the reset values of the spec's
D19. -/
def Obligations.ResetValues : Prop :=
  ∀ p : Params,
    (p.wf = false → State.construct p = none) ∧
    (p.wf = true → ∃ s, State.construct p = some s ∧ s.params = p ∧ (∀ r, s.getV r = 0) ∧ s.i = 0 ∧
      s.pc.toNat = p.cfg.pcStart.toNat ∧ (∀ k, s.stackEntry k = 0) ∧ s.sp = 0 ∧ s.dt = 0 ∧ s.st = 0 ∧ s.keys = 0 ∧
      s.execState = .running ∧ s.fault = none ∧ (∀ r, s.getFR r = 0) ∧
      p.cfg.resolutions.head? = some s.currRes ∧ (∀ r c, s.pixel r c = false) ∧ s.vblankPending = false)

/-- Reset memory: the fonts at their bases (the spec's D17), 0x00 everywhere else (D19). -/
def Obligations.ResetMemory : Prop :=
  ∀ (p : Params), p.wf = true →
    (∀ (k : Nat) (b : Byte), p.fontSmall[k]? = some b → (State.init p).readByte (p.smallFontBase + k) = b) ∧
    (∀ (big : List Byte) (k : Nat) (b : Byte), p.fontBig = some big → big[k]? = some b →
      (State.init p).readByte (p.bigFontBase + k) = b) ∧
    (∀ a, (a < p.smallFontBase ∨ p.smallFontEnd ≤ a) → (a < p.bigFontBase ∨ p.bigFontEnd ≤ a) →
      (State.init p).readByte a = 0)

/-- The invariant holds at reset, for every well-formed parameter set. -/
def Obligations.InvariantAtReset : Prop :=
  State.reset.Inv ∧ ∀ (p : Params) (s : State), State.construct p = some s → s.Inv

/-! ### Invariants and whole-machine rules -/

/-- Every step keeps the invariant. -/
def Obligations.StepKeepsTheInvariant : Prop := ∀ s t : State, s.Inv → step s = .next t → t.Inv

/-- Every other transaction of the host keeps the invariant. -/
def Obligations.TransactionsKeepTheInvariant : Prop :=
  ∀ (tr : Transaction) (s t : State), tr ≠ .step → s.Inv → perform tr s = .next t → t.Inv

/-- `press_key` and `release_key` (the spec's D21, D22, D23): a code above 15 is refused; a press sets its bit alone; a
release clears its bit, and ends a key wait of a unit without a fault by writing the code to the awaited register. -/
def Obligations.KeyEvents : Prop :=
  ∀ (k : Nat) (s : State),
    (15 < k → pressKey k s = .refused .keyCodeOutOfRange ∧ releaseKey k s = .refused .keyCodeOutOfRange) ∧
    (k ≤ 15 →
      (∃ t, pressKey k s = .next t ∧ (∀ j, j < 16 → t.keys.getLsbD j = (decide (j = k) || s.keys.getLsbD j)) ∧
        KeepsAllBut [.keys] s t) ∧
      ∃ t, releaseKey k s = .next t ∧ (∀ j, j < 16 → t.keys.getLsbD j = (decide (j ≠ k) && s.keys.getLsbD j)) ∧
        (∀ r, s.fault = none → s.execState = .waitingForKey r → (t.getV r).toNat = k ∧
          (∀ q, q ≠ r → t.getV q = s.getV q) ∧ t.execState = .running ∧ KeepsAllBut [.keys, .v, .execState] s t) ∧
        (s.fault ≠ none ∨ (∀ r, s.execState ≠ .waitingForKey r) → KeepsAllBut [.keys] s t))

/-- The frame tick (the spec's D16, D28): both timers count down and stop at 0, the vblank signal is cleared, nothing else
changes, in every state. -/
def Obligations.FrameTick : Prop :=
  ∀ s : State, (decrementOnce s).dt.toNat = s.dt.toNat - 1 ∧ (decrementOnce s).st.toNat = s.st.toNat - 1 ∧
    (decrementOnce s).vblankPending = false ∧ KeepsAllBut [.dt, .st, .vblankPending] s (decrementOnce s)

/-- `load_rom` (the spec's D24): before the first step and once only, the bytes go to `pc_start` and on, no other byte
changes, and no second load succeeds; a ROM that does not fit, or a load that comes too late, fails. -/
def Obligations.LoadRomOnce : Prop :=
  ∀ (bytes : List Byte) (s : State), s.Inv →
    (s.loadOpen = true → bytes.length ≤ 4096 - s.params.cfg.pcStart.toNat → ∃ t, loadRom bytes s = .next t ∧
      (∀ (k : Nat) (b : Byte), bytes[k]? = some b → t.readByte (s.params.cfg.pcStart.toNat + k) = b) ∧
      (∀ a, a < s.params.cfg.pcStart.toNat ∨ s.params.cfg.pcStart.toNat + bytes.length ≤ a →
        t.readByte a = s.readByte a) ∧
      KeepsAllBut [.mem, .loadOpen] s t ∧ ∀ more, loadRom more t = .fault .romLoadError) ∧
    (s.loadOpen = false ∨ 4096 - s.params.cfg.pcStart.toNat < bytes.length →
      loadRom bytes s = .fault .romLoadError) ∧
    (∀ t, step s = .next t → loadRom bytes t = .fault .romLoadError)

/-- A stopped unit stays stopped (the spec's D6, D22, D24): once it is halted or faulted, no sequence of transactions
changes anything but the key mask, the timers and the vblank signal. -/
def Obligations.StoppedUnitStaysStopped : Prop :=
  ∀ (trs : List Transaction) (s : State), s.Inv → s.fault ≠ none ∨ s.execState = .halted →
    KeepsAllBut [.keys, .dt, .st, .vblankPending] s (afterAll trs s)

/-- A key wait is a hold: without a release of a key no sequence of transactions ends it or changes anything but the key
mask, the timers and the vblank signal. -/
def Obligations.KeyWaitHolds : Prop :=
  ∀ (trs : List Transaction) (s : State) (r : RegIx), s.Inv → s.execState = .waitingForKey r →
    (∀ k, .releaseKey k ∉ trs) → KeepsAllBut [.keys, .dt, .st, .vblankPending] s (afterAll trs s)

/-- A spinning unit (the spec's D33) keeps spinning: steps and frame ticks change nothing but the timers, the vblank signal
and the load window (log 6). -/
def Obligations.SpinningUnitKeepsSpinning : Prop :=
  ∀ (trs : List Transaction) (s : State), s.Inv → runEnd s = some .spinning →
    (∀ tr ∈ trs, tr = .step ∨ tr = .decrementOnce) →
    KeepsAllBut [.dt, .st, .vblankPending, .loadOpen] s (afterAll trs s) ∧ runEnd (afterAll trs s) = some .spinning

/-- Under the vblank duty (the spec's D16 and D26) the unit executes at most one Dxyn between two frame ticks when
`cfg.vblank_quirk` is true. -/
def Obligations.OneDrawPerFrame : Prop :=
  ∀ (trs : List Transaction) (s : State), s.Inv → s.params.cfg.vblankQuirk = true → .decrementOnce ∉ trs →
    keepsVblankDuty trs s = true → drawCount trs s ≤ 1

/-- A run the host's duties admit (R136, R142 with the spec's D26) makes no transaction before `load_rom`, no second load,
and none after a load that failed; at its first step the ROM lies at `pc_start`, where `pc` points. -/
def Obligations.AdmittedRunsLoadOnceThenStep : Prop :=
  ∀ (p : Params) (trs : List Transaction), admitted p trs = true → ∃ s, State.construct p = some s ∧
    (trs = [] ∨ ∃ bytes rest, trs = .loadRom bytes :: rest ∧ (∀ more, .loadRom more ∉ rest) ∧
      (rest ≠ [] → bytes.length ≤ 4096 - p.cfg.pcStart.toNat ∧ ∃ t, loadRom bytes s = .next t ∧
        ∀ pre post, rest = pre ++ .step :: post → .step ∉ pre →
          (afterAll pre t).pc.toNat = p.cfg.pcStart.toNat ∧
          ∀ (k : Nat) (b : Byte), bytes[k]? = some b → (afterAll pre t).readByte (p.cfg.pcStart.toNat + k) = b))
end

