-- ==== Sys2Proof/Laws/State.lean ====
section
/-! SUPPORT. One lemma per field per update of the state, true by `rfl`, so that no proof unfolds a record update. -/

namespace Sys2Proof.Machine

variable (s : State)

/-! ### `State.setPc` -/

@[simp] theorem State.setPc_params (a : Word) : (s.setPc a).params = s.params := rfl
@[simp] theorem State.setPc_v (a : Word) : (s.setPc a).v = s.v := rfl
@[simp] theorem State.setPc_i (a : Word) : (s.setPc a).i = s.i := rfl
@[simp] theorem State.setPc_pc (a : Word) : (s.setPc a).pc = a := rfl
@[simp] theorem State.setPc_stack (a : Word) : (s.setPc a).stack = s.stack := rfl
@[simp] theorem State.setPc_sp (a : Word) : (s.setPc a).sp = s.sp := rfl
@[simp] theorem State.setPc_dt (a : Word) : (s.setPc a).dt = s.dt := rfl
@[simp] theorem State.setPc_st (a : Word) : (s.setPc a).st = s.st := rfl
@[simp] theorem State.setPc_keys (a : Word) : (s.setPc a).keys = s.keys := rfl
@[simp] theorem State.setPc_execState (a : Word) : (s.setPc a).execState = s.execState := rfl
@[simp] theorem State.setPc_fault (a : Word) : (s.setPc a).fault = s.fault := rfl
@[simp] theorem State.setPc_fr (a : Word) : (s.setPc a).fr = s.fr := rfl
@[simp] theorem State.setPc_currRes (a : Word) : (s.setPc a).currRes = s.currRes := rfl
@[simp] theorem State.setPc_fb (a : Word) : (s.setPc a).fb = s.fb := rfl
@[simp] theorem State.setPc_vblankPending (a : Word) : (s.setPc a).vblankPending = s.vblankPending := rfl
@[simp] theorem State.setPc_mem (a : Word) : (s.setPc a).mem = s.mem := rfl
@[simp] theorem State.setPc_loadOpen (a : Word) : (s.setPc a).loadOpen = s.loadOpen := rfl
@[simp] theorem State.setPc_draws (a : Word) : (s.setPc a).draws = s.draws := rfl
@[simp] theorem State.setPc_getV (a : Word) (q : RegIx) :
    (s.setPc a).getV q = s.getV q := rfl
@[simp] theorem State.setPc_getFR (a : Word) (q : RegIx) :
    (s.setPc a).getFR q = s.getFR q := rfl
@[simp] theorem State.setPc_readByte (a : Word) (q : Nat) :
    (s.setPc a).readByte q = s.readByte q := rfl
@[simp] theorem State.setPc_pixel (a : Word) (r c : Nat) :
    (s.setPc a).pixel r c = s.pixel r c := rfl
@[simp] theorem State.setPc_stackEntry (a : Word) (k : Nat) :
    (s.setPc a).stackEntry k = s.stackEntry k := rfl
@[simp] theorem State.setPc_keyHeld (a : Word) (q : RegIx) :
    (s.setPc a).keyHeld q = s.keyHeld q := rfl

/-! ### `State.setI` -/

@[simp] theorem State.setI_params (a : Word) : (s.setI a).params = s.params := rfl
@[simp] theorem State.setI_v (a : Word) : (s.setI a).v = s.v := rfl
@[simp] theorem State.setI_i (a : Word) : (s.setI a).i = a := rfl
@[simp] theorem State.setI_pc (a : Word) : (s.setI a).pc = s.pc := rfl
@[simp] theorem State.setI_stack (a : Word) : (s.setI a).stack = s.stack := rfl
@[simp] theorem State.setI_sp (a : Word) : (s.setI a).sp = s.sp := rfl
@[simp] theorem State.setI_dt (a : Word) : (s.setI a).dt = s.dt := rfl
@[simp] theorem State.setI_st (a : Word) : (s.setI a).st = s.st := rfl
@[simp] theorem State.setI_keys (a : Word) : (s.setI a).keys = s.keys := rfl
@[simp] theorem State.setI_execState (a : Word) : (s.setI a).execState = s.execState := rfl
@[simp] theorem State.setI_fault (a : Word) : (s.setI a).fault = s.fault := rfl
@[simp] theorem State.setI_fr (a : Word) : (s.setI a).fr = s.fr := rfl
@[simp] theorem State.setI_currRes (a : Word) : (s.setI a).currRes = s.currRes := rfl
@[simp] theorem State.setI_fb (a : Word) : (s.setI a).fb = s.fb := rfl
@[simp] theorem State.setI_vblankPending (a : Word) : (s.setI a).vblankPending = s.vblankPending := rfl
@[simp] theorem State.setI_mem (a : Word) : (s.setI a).mem = s.mem := rfl
@[simp] theorem State.setI_loadOpen (a : Word) : (s.setI a).loadOpen = s.loadOpen := rfl
@[simp] theorem State.setI_draws (a : Word) : (s.setI a).draws = s.draws := rfl
@[simp] theorem State.setI_getV (a : Word) (q : RegIx) :
    (s.setI a).getV q = s.getV q := rfl
@[simp] theorem State.setI_getFR (a : Word) (q : RegIx) :
    (s.setI a).getFR q = s.getFR q := rfl
@[simp] theorem State.setI_readByte (a : Word) (q : Nat) :
    (s.setI a).readByte q = s.readByte q := rfl
@[simp] theorem State.setI_pixel (a : Word) (r c : Nat) :
    (s.setI a).pixel r c = s.pixel r c := rfl
@[simp] theorem State.setI_stackEntry (a : Word) (k : Nat) :
    (s.setI a).stackEntry k = s.stackEntry k := rfl
@[simp] theorem State.setI_keyHeld (a : Word) (q : RegIx) :
    (s.setI a).keyHeld q = s.keyHeld q := rfl

/-! ### `State.setV` -/

@[simp] theorem State.setV_params (x : RegIx) (b : Byte) : (s.setV x b).params = s.params := rfl
@[simp] theorem State.setV_i (x : RegIx) (b : Byte) : (s.setV x b).i = s.i := rfl
@[simp] theorem State.setV_pc (x : RegIx) (b : Byte) : (s.setV x b).pc = s.pc := rfl
@[simp] theorem State.setV_stack (x : RegIx) (b : Byte) : (s.setV x b).stack = s.stack := rfl
@[simp] theorem State.setV_sp (x : RegIx) (b : Byte) : (s.setV x b).sp = s.sp := rfl
@[simp] theorem State.setV_dt (x : RegIx) (b : Byte) : (s.setV x b).dt = s.dt := rfl
@[simp] theorem State.setV_st (x : RegIx) (b : Byte) : (s.setV x b).st = s.st := rfl
@[simp] theorem State.setV_keys (x : RegIx) (b : Byte) : (s.setV x b).keys = s.keys := rfl
@[simp] theorem State.setV_execState (x : RegIx) (b : Byte) : (s.setV x b).execState = s.execState := rfl
@[simp] theorem State.setV_fault (x : RegIx) (b : Byte) : (s.setV x b).fault = s.fault := rfl
@[simp] theorem State.setV_fr (x : RegIx) (b : Byte) : (s.setV x b).fr = s.fr := rfl
@[simp] theorem State.setV_currRes (x : RegIx) (b : Byte) : (s.setV x b).currRes = s.currRes := rfl
@[simp] theorem State.setV_fb (x : RegIx) (b : Byte) : (s.setV x b).fb = s.fb := rfl
@[simp] theorem State.setV_vblankPending (x : RegIx) (b : Byte) : (s.setV x b).vblankPending = s.vblankPending := rfl
@[simp] theorem State.setV_mem (x : RegIx) (b : Byte) : (s.setV x b).mem = s.mem := rfl
@[simp] theorem State.setV_loadOpen (x : RegIx) (b : Byte) : (s.setV x b).loadOpen = s.loadOpen := rfl
@[simp] theorem State.setV_draws (x : RegIx) (b : Byte) : (s.setV x b).draws = s.draws := rfl
@[simp] theorem State.setV_getFR (x : RegIx) (b : Byte) (q : RegIx) :
    (s.setV x b).getFR q = s.getFR q := rfl
@[simp] theorem State.setV_readByte (x : RegIx) (b : Byte) (q : Nat) :
    (s.setV x b).readByte q = s.readByte q := rfl
@[simp] theorem State.setV_pixel (x : RegIx) (b : Byte) (r c : Nat) :
    (s.setV x b).pixel r c = s.pixel r c := rfl
@[simp] theorem State.setV_stackEntry (x : RegIx) (b : Byte) (k : Nat) :
    (s.setV x b).stackEntry k = s.stackEntry k := rfl
@[simp] theorem State.setV_keyHeld (x : RegIx) (b : Byte) (q : RegIx) :
    (s.setV x b).keyHeld q = s.keyHeld q := rfl

/-! ### `State.setVUpTo` -/

@[simp] theorem State.setVUpTo_params (x : RegIx) (f : RegIx → Byte) : (s.setVUpTo x f).params = s.params := rfl
@[simp] theorem State.setVUpTo_i (x : RegIx) (f : RegIx → Byte) : (s.setVUpTo x f).i = s.i := rfl
@[simp] theorem State.setVUpTo_pc (x : RegIx) (f : RegIx → Byte) : (s.setVUpTo x f).pc = s.pc := rfl
@[simp] theorem State.setVUpTo_stack (x : RegIx) (f : RegIx → Byte) : (s.setVUpTo x f).stack = s.stack := rfl
@[simp] theorem State.setVUpTo_sp (x : RegIx) (f : RegIx → Byte) : (s.setVUpTo x f).sp = s.sp := rfl
@[simp] theorem State.setVUpTo_dt (x : RegIx) (f : RegIx → Byte) : (s.setVUpTo x f).dt = s.dt := rfl
@[simp] theorem State.setVUpTo_st (x : RegIx) (f : RegIx → Byte) : (s.setVUpTo x f).st = s.st := rfl
@[simp] theorem State.setVUpTo_keys (x : RegIx) (f : RegIx → Byte) : (s.setVUpTo x f).keys = s.keys := rfl
@[simp] theorem State.setVUpTo_execState (x : RegIx) (f : RegIx → Byte) : (s.setVUpTo x f).execState = s.execState := rfl
@[simp] theorem State.setVUpTo_fault (x : RegIx) (f : RegIx → Byte) : (s.setVUpTo x f).fault = s.fault := rfl
@[simp] theorem State.setVUpTo_fr (x : RegIx) (f : RegIx → Byte) : (s.setVUpTo x f).fr = s.fr := rfl
@[simp] theorem State.setVUpTo_currRes (x : RegIx) (f : RegIx → Byte) : (s.setVUpTo x f).currRes = s.currRes := rfl
@[simp] theorem State.setVUpTo_fb (x : RegIx) (f : RegIx → Byte) : (s.setVUpTo x f).fb = s.fb := rfl
@[simp] theorem State.setVUpTo_vblankPending (x : RegIx) (f : RegIx → Byte) : (s.setVUpTo x f).vblankPending = s.vblankPending := rfl
@[simp] theorem State.setVUpTo_mem (x : RegIx) (f : RegIx → Byte) : (s.setVUpTo x f).mem = s.mem := rfl
@[simp] theorem State.setVUpTo_loadOpen (x : RegIx) (f : RegIx → Byte) : (s.setVUpTo x f).loadOpen = s.loadOpen := rfl
@[simp] theorem State.setVUpTo_draws (x : RegIx) (f : RegIx → Byte) : (s.setVUpTo x f).draws = s.draws := rfl
@[simp] theorem State.setVUpTo_getFR (x : RegIx) (f : RegIx → Byte) (q : RegIx) :
    (s.setVUpTo x f).getFR q = s.getFR q := rfl
@[simp] theorem State.setVUpTo_readByte (x : RegIx) (f : RegIx → Byte) (q : Nat) :
    (s.setVUpTo x f).readByte q = s.readByte q := rfl
@[simp] theorem State.setVUpTo_pixel (x : RegIx) (f : RegIx → Byte) (r c : Nat) :
    (s.setVUpTo x f).pixel r c = s.pixel r c := rfl
@[simp] theorem State.setVUpTo_stackEntry (x : RegIx) (f : RegIx → Byte) (k : Nat) :
    (s.setVUpTo x f).stackEntry k = s.stackEntry k := rfl
@[simp] theorem State.setVUpTo_keyHeld (x : RegIx) (f : RegIx → Byte) (q : RegIx) :
    (s.setVUpTo x f).keyHeld q = s.keyHeld q := rfl

/-! ### `State.setFRUpTo` -/

@[simp] theorem State.setFRUpTo_params (x : RegIx) (f : RegIx → Byte) : (s.setFRUpTo x f).params = s.params := rfl
@[simp] theorem State.setFRUpTo_v (x : RegIx) (f : RegIx → Byte) : (s.setFRUpTo x f).v = s.v := rfl
@[simp] theorem State.setFRUpTo_i (x : RegIx) (f : RegIx → Byte) : (s.setFRUpTo x f).i = s.i := rfl
@[simp] theorem State.setFRUpTo_pc (x : RegIx) (f : RegIx → Byte) : (s.setFRUpTo x f).pc = s.pc := rfl
@[simp] theorem State.setFRUpTo_stack (x : RegIx) (f : RegIx → Byte) : (s.setFRUpTo x f).stack = s.stack := rfl
@[simp] theorem State.setFRUpTo_sp (x : RegIx) (f : RegIx → Byte) : (s.setFRUpTo x f).sp = s.sp := rfl
@[simp] theorem State.setFRUpTo_dt (x : RegIx) (f : RegIx → Byte) : (s.setFRUpTo x f).dt = s.dt := rfl
@[simp] theorem State.setFRUpTo_st (x : RegIx) (f : RegIx → Byte) : (s.setFRUpTo x f).st = s.st := rfl
@[simp] theorem State.setFRUpTo_keys (x : RegIx) (f : RegIx → Byte) : (s.setFRUpTo x f).keys = s.keys := rfl
@[simp] theorem State.setFRUpTo_execState (x : RegIx) (f : RegIx → Byte) : (s.setFRUpTo x f).execState = s.execState := rfl
@[simp] theorem State.setFRUpTo_fault (x : RegIx) (f : RegIx → Byte) : (s.setFRUpTo x f).fault = s.fault := rfl
@[simp] theorem State.setFRUpTo_currRes (x : RegIx) (f : RegIx → Byte) : (s.setFRUpTo x f).currRes = s.currRes := rfl
@[simp] theorem State.setFRUpTo_fb (x : RegIx) (f : RegIx → Byte) : (s.setFRUpTo x f).fb = s.fb := rfl
@[simp] theorem State.setFRUpTo_vblankPending (x : RegIx) (f : RegIx → Byte) : (s.setFRUpTo x f).vblankPending = s.vblankPending := rfl
@[simp] theorem State.setFRUpTo_mem (x : RegIx) (f : RegIx → Byte) : (s.setFRUpTo x f).mem = s.mem := rfl
@[simp] theorem State.setFRUpTo_loadOpen (x : RegIx) (f : RegIx → Byte) : (s.setFRUpTo x f).loadOpen = s.loadOpen := rfl
@[simp] theorem State.setFRUpTo_draws (x : RegIx) (f : RegIx → Byte) : (s.setFRUpTo x f).draws = s.draws := rfl
@[simp] theorem State.setFRUpTo_getV (x : RegIx) (f : RegIx → Byte) (q : RegIx) :
    (s.setFRUpTo x f).getV q = s.getV q := rfl
@[simp] theorem State.setFRUpTo_readByte (x : RegIx) (f : RegIx → Byte) (q : Nat) :
    (s.setFRUpTo x f).readByte q = s.readByte q := rfl
@[simp] theorem State.setFRUpTo_pixel (x : RegIx) (f : RegIx → Byte) (r c : Nat) :
    (s.setFRUpTo x f).pixel r c = s.pixel r c := rfl
@[simp] theorem State.setFRUpTo_stackEntry (x : RegIx) (f : RegIx → Byte) (k : Nat) :
    (s.setFRUpTo x f).stackEntry k = s.stackEntry k := rfl
@[simp] theorem State.setFRUpTo_keyHeld (x : RegIx) (f : RegIx → Byte) (q : RegIx) :
    (s.setFRUpTo x f).keyHeld q = s.keyHeld q := rfl

/-! ### `State.setFb` -/

@[simp] theorem State.setFb_params (fb : Framebuffer) : (s.setFb fb).params = s.params := rfl
@[simp] theorem State.setFb_v (fb : Framebuffer) : (s.setFb fb).v = s.v := rfl
@[simp] theorem State.setFb_i (fb : Framebuffer) : (s.setFb fb).i = s.i := rfl
@[simp] theorem State.setFb_pc (fb : Framebuffer) : (s.setFb fb).pc = s.pc := rfl
@[simp] theorem State.setFb_stack (fb : Framebuffer) : (s.setFb fb).stack = s.stack := rfl
@[simp] theorem State.setFb_sp (fb : Framebuffer) : (s.setFb fb).sp = s.sp := rfl
@[simp] theorem State.setFb_dt (fb : Framebuffer) : (s.setFb fb).dt = s.dt := rfl
@[simp] theorem State.setFb_st (fb : Framebuffer) : (s.setFb fb).st = s.st := rfl
@[simp] theorem State.setFb_keys (fb : Framebuffer) : (s.setFb fb).keys = s.keys := rfl
@[simp] theorem State.setFb_execState (fb : Framebuffer) : (s.setFb fb).execState = s.execState := rfl
@[simp] theorem State.setFb_fault (fb : Framebuffer) : (s.setFb fb).fault = s.fault := rfl
@[simp] theorem State.setFb_fr (fb : Framebuffer) : (s.setFb fb).fr = s.fr := rfl
@[simp] theorem State.setFb_currRes (fb : Framebuffer) : (s.setFb fb).currRes = s.currRes := rfl
@[simp] theorem State.setFb_fb (fb : Framebuffer) : (s.setFb fb).fb = fb := rfl
@[simp] theorem State.setFb_vblankPending (fb : Framebuffer) : (s.setFb fb).vblankPending = s.vblankPending := rfl
@[simp] theorem State.setFb_mem (fb : Framebuffer) : (s.setFb fb).mem = s.mem := rfl
@[simp] theorem State.setFb_loadOpen (fb : Framebuffer) : (s.setFb fb).loadOpen = s.loadOpen := rfl
@[simp] theorem State.setFb_draws (fb : Framebuffer) : (s.setFb fb).draws = s.draws := rfl
@[simp] theorem State.setFb_getV (fb : Framebuffer) (q : RegIx) :
    (s.setFb fb).getV q = s.getV q := rfl
@[simp] theorem State.setFb_getFR (fb : Framebuffer) (q : RegIx) :
    (s.setFb fb).getFR q = s.getFR q := rfl
@[simp] theorem State.setFb_readByte (fb : Framebuffer) (q : Nat) :
    (s.setFb fb).readByte q = s.readByte q := rfl
@[simp] theorem State.setFb_stackEntry (fb : Framebuffer) (k : Nat) :
    (s.setFb fb).stackEntry k = s.stackEntry k := rfl
@[simp] theorem State.setFb_keyHeld (fb : Framebuffer) (q : RegIx) :
    (s.setFb fb).keyHeld q = s.keyHeld q := rfl

/-! ### `State.setExec` -/

@[simp] theorem State.setExec_params (e : ExecState) : (s.setExec e).params = s.params := rfl
@[simp] theorem State.setExec_v (e : ExecState) : (s.setExec e).v = s.v := rfl
@[simp] theorem State.setExec_i (e : ExecState) : (s.setExec e).i = s.i := rfl
@[simp] theorem State.setExec_pc (e : ExecState) : (s.setExec e).pc = s.pc := rfl
@[simp] theorem State.setExec_stack (e : ExecState) : (s.setExec e).stack = s.stack := rfl
@[simp] theorem State.setExec_sp (e : ExecState) : (s.setExec e).sp = s.sp := rfl
@[simp] theorem State.setExec_dt (e : ExecState) : (s.setExec e).dt = s.dt := rfl
@[simp] theorem State.setExec_st (e : ExecState) : (s.setExec e).st = s.st := rfl
@[simp] theorem State.setExec_keys (e : ExecState) : (s.setExec e).keys = s.keys := rfl
@[simp] theorem State.setExec_execState (e : ExecState) : (s.setExec e).execState = e := rfl
@[simp] theorem State.setExec_fault (e : ExecState) : (s.setExec e).fault = s.fault := rfl
@[simp] theorem State.setExec_fr (e : ExecState) : (s.setExec e).fr = s.fr := rfl
@[simp] theorem State.setExec_currRes (e : ExecState) : (s.setExec e).currRes = s.currRes := rfl
@[simp] theorem State.setExec_fb (e : ExecState) : (s.setExec e).fb = s.fb := rfl
@[simp] theorem State.setExec_vblankPending (e : ExecState) : (s.setExec e).vblankPending = s.vblankPending := rfl
@[simp] theorem State.setExec_mem (e : ExecState) : (s.setExec e).mem = s.mem := rfl
@[simp] theorem State.setExec_loadOpen (e : ExecState) : (s.setExec e).loadOpen = s.loadOpen := rfl
@[simp] theorem State.setExec_draws (e : ExecState) : (s.setExec e).draws = s.draws := rfl
@[simp] theorem State.setExec_getV (e : ExecState) (q : RegIx) :
    (s.setExec e).getV q = s.getV q := rfl
@[simp] theorem State.setExec_getFR (e : ExecState) (q : RegIx) :
    (s.setExec e).getFR q = s.getFR q := rfl
@[simp] theorem State.setExec_readByte (e : ExecState) (q : Nat) :
    (s.setExec e).readByte q = s.readByte q := rfl
@[simp] theorem State.setExec_pixel (e : ExecState) (r c : Nat) :
    (s.setExec e).pixel r c = s.pixel r c := rfl
@[simp] theorem State.setExec_stackEntry (e : ExecState) (k : Nat) :
    (s.setExec e).stackEntry k = s.stackEntry k := rfl
@[simp] theorem State.setExec_keyHeld (e : ExecState) (q : RegIx) :
    (s.setExec e).keyHeld q = s.keyHeld q := rfl

/-! ### `State.setDt` -/

@[simp] theorem State.setDt_params (b : Byte) : (s.setDt b).params = s.params := rfl
@[simp] theorem State.setDt_v (b : Byte) : (s.setDt b).v = s.v := rfl
@[simp] theorem State.setDt_i (b : Byte) : (s.setDt b).i = s.i := rfl
@[simp] theorem State.setDt_pc (b : Byte) : (s.setDt b).pc = s.pc := rfl
@[simp] theorem State.setDt_stack (b : Byte) : (s.setDt b).stack = s.stack := rfl
@[simp] theorem State.setDt_sp (b : Byte) : (s.setDt b).sp = s.sp := rfl
@[simp] theorem State.setDt_dt (b : Byte) : (s.setDt b).dt = b := rfl
@[simp] theorem State.setDt_st (b : Byte) : (s.setDt b).st = s.st := rfl
@[simp] theorem State.setDt_keys (b : Byte) : (s.setDt b).keys = s.keys := rfl
@[simp] theorem State.setDt_execState (b : Byte) : (s.setDt b).execState = s.execState := rfl
@[simp] theorem State.setDt_fault (b : Byte) : (s.setDt b).fault = s.fault := rfl
@[simp] theorem State.setDt_fr (b : Byte) : (s.setDt b).fr = s.fr := rfl
@[simp] theorem State.setDt_currRes (b : Byte) : (s.setDt b).currRes = s.currRes := rfl
@[simp] theorem State.setDt_fb (b : Byte) : (s.setDt b).fb = s.fb := rfl
@[simp] theorem State.setDt_vblankPending (b : Byte) : (s.setDt b).vblankPending = s.vblankPending := rfl
@[simp] theorem State.setDt_mem (b : Byte) : (s.setDt b).mem = s.mem := rfl
@[simp] theorem State.setDt_loadOpen (b : Byte) : (s.setDt b).loadOpen = s.loadOpen := rfl
@[simp] theorem State.setDt_draws (b : Byte) : (s.setDt b).draws = s.draws := rfl
@[simp] theorem State.setDt_getV (b : Byte) (q : RegIx) :
    (s.setDt b).getV q = s.getV q := rfl
@[simp] theorem State.setDt_getFR (b : Byte) (q : RegIx) :
    (s.setDt b).getFR q = s.getFR q := rfl
@[simp] theorem State.setDt_readByte (b : Byte) (q : Nat) :
    (s.setDt b).readByte q = s.readByte q := rfl
@[simp] theorem State.setDt_pixel (b : Byte) (r c : Nat) :
    (s.setDt b).pixel r c = s.pixel r c := rfl
@[simp] theorem State.setDt_stackEntry (b : Byte) (k : Nat) :
    (s.setDt b).stackEntry k = s.stackEntry k := rfl
@[simp] theorem State.setDt_keyHeld (b : Byte) (q : RegIx) :
    (s.setDt b).keyHeld q = s.keyHeld q := rfl

/-! ### `State.setSt` -/

@[simp] theorem State.setSt_params (b : Byte) : (s.setSt b).params = s.params := rfl
@[simp] theorem State.setSt_v (b : Byte) : (s.setSt b).v = s.v := rfl
@[simp] theorem State.setSt_i (b : Byte) : (s.setSt b).i = s.i := rfl
@[simp] theorem State.setSt_pc (b : Byte) : (s.setSt b).pc = s.pc := rfl
@[simp] theorem State.setSt_stack (b : Byte) : (s.setSt b).stack = s.stack := rfl
@[simp] theorem State.setSt_sp (b : Byte) : (s.setSt b).sp = s.sp := rfl
@[simp] theorem State.setSt_dt (b : Byte) : (s.setSt b).dt = s.dt := rfl
@[simp] theorem State.setSt_st (b : Byte) : (s.setSt b).st = b := rfl
@[simp] theorem State.setSt_keys (b : Byte) : (s.setSt b).keys = s.keys := rfl
@[simp] theorem State.setSt_execState (b : Byte) : (s.setSt b).execState = s.execState := rfl
@[simp] theorem State.setSt_fault (b : Byte) : (s.setSt b).fault = s.fault := rfl
@[simp] theorem State.setSt_fr (b : Byte) : (s.setSt b).fr = s.fr := rfl
@[simp] theorem State.setSt_currRes (b : Byte) : (s.setSt b).currRes = s.currRes := rfl
@[simp] theorem State.setSt_fb (b : Byte) : (s.setSt b).fb = s.fb := rfl
@[simp] theorem State.setSt_vblankPending (b : Byte) : (s.setSt b).vblankPending = s.vblankPending := rfl
@[simp] theorem State.setSt_mem (b : Byte) : (s.setSt b).mem = s.mem := rfl
@[simp] theorem State.setSt_loadOpen (b : Byte) : (s.setSt b).loadOpen = s.loadOpen := rfl
@[simp] theorem State.setSt_draws (b : Byte) : (s.setSt b).draws = s.draws := rfl
@[simp] theorem State.setSt_getV (b : Byte) (q : RegIx) :
    (s.setSt b).getV q = s.getV q := rfl
@[simp] theorem State.setSt_getFR (b : Byte) (q : RegIx) :
    (s.setSt b).getFR q = s.getFR q := rfl
@[simp] theorem State.setSt_readByte (b : Byte) (q : Nat) :
    (s.setSt b).readByte q = s.readByte q := rfl
@[simp] theorem State.setSt_pixel (b : Byte) (r c : Nat) :
    (s.setSt b).pixel r c = s.pixel r c := rfl
@[simp] theorem State.setSt_stackEntry (b : Byte) (k : Nat) :
    (s.setSt b).stackEntry k = s.stackEntry k := rfl
@[simp] theorem State.setSt_keyHeld (b : Byte) (q : RegIx) :
    (s.setSt b).keyHeld q = s.keyHeld q := rfl

/-! ### `State.setRandom` -/

@[simp] theorem State.setRandom_params (x : RegIx) (rand nn : Byte) : (s.setRandom x rand nn).params = s.params := rfl
@[simp] theorem State.setRandom_i (x : RegIx) (rand nn : Byte) : (s.setRandom x rand nn).i = s.i := rfl
@[simp] theorem State.setRandom_pc (x : RegIx) (rand nn : Byte) : (s.setRandom x rand nn).pc = s.pc := rfl
@[simp] theorem State.setRandom_stack (x : RegIx) (rand nn : Byte) : (s.setRandom x rand nn).stack = s.stack := rfl
@[simp] theorem State.setRandom_sp (x : RegIx) (rand nn : Byte) : (s.setRandom x rand nn).sp = s.sp := rfl
@[simp] theorem State.setRandom_dt (x : RegIx) (rand nn : Byte) : (s.setRandom x rand nn).dt = s.dt := rfl
@[simp] theorem State.setRandom_st (x : RegIx) (rand nn : Byte) : (s.setRandom x rand nn).st = s.st := rfl
@[simp] theorem State.setRandom_keys (x : RegIx) (rand nn : Byte) : (s.setRandom x rand nn).keys = s.keys := rfl
@[simp] theorem State.setRandom_execState (x : RegIx) (rand nn : Byte) : (s.setRandom x rand nn).execState = s.execState := rfl
@[simp] theorem State.setRandom_fault (x : RegIx) (rand nn : Byte) : (s.setRandom x rand nn).fault = s.fault := rfl
@[simp] theorem State.setRandom_fr (x : RegIx) (rand nn : Byte) : (s.setRandom x rand nn).fr = s.fr := rfl
@[simp] theorem State.setRandom_currRes (x : RegIx) (rand nn : Byte) : (s.setRandom x rand nn).currRes = s.currRes := rfl
@[simp] theorem State.setRandom_fb (x : RegIx) (rand nn : Byte) : (s.setRandom x rand nn).fb = s.fb := rfl
@[simp] theorem State.setRandom_vblankPending (x : RegIx) (rand nn : Byte) : (s.setRandom x rand nn).vblankPending = s.vblankPending := rfl
@[simp] theorem State.setRandom_mem (x : RegIx) (rand nn : Byte) : (s.setRandom x rand nn).mem = s.mem := rfl
@[simp] theorem State.setRandom_loadOpen (x : RegIx) (rand nn : Byte) : (s.setRandom x rand nn).loadOpen = s.loadOpen := rfl
@[simp] theorem State.setRandom_draws (x : RegIx) (rand nn : Byte) : (s.setRandom x rand nn).draws = s.draws + 1 := rfl
@[simp] theorem State.setRandom_getFR (x : RegIx) (rand nn : Byte) (q : RegIx) :
    (s.setRandom x rand nn).getFR q = s.getFR q := rfl
@[simp] theorem State.setRandom_readByte (x : RegIx) (rand nn : Byte) (q : Nat) :
    (s.setRandom x rand nn).readByte q = s.readByte q := rfl
@[simp] theorem State.setRandom_pixel (x : RegIx) (rand nn : Byte) (r c : Nat) :
    (s.setRandom x rand nn).pixel r c = s.pixel r c := rfl
@[simp] theorem State.setRandom_stackEntry (x : RegIx) (rand nn : Byte) (k : Nat) :
    (s.setRandom x rand nn).stackEntry k = s.stackEntry k := rfl
@[simp] theorem State.setRandom_keyHeld (x : RegIx) (rand nn : Byte) (q : RegIx) :
    (s.setRandom x rand nn).keyHeld q = s.keyHeld q := rfl

/-! ### `State.switchRes` -/

@[simp] theorem State.switchRes_params (res : Resolution) : (s.switchRes res).params = s.params := rfl
@[simp] theorem State.switchRes_v (res : Resolution) : (s.switchRes res).v = s.v := rfl
@[simp] theorem State.switchRes_i (res : Resolution) : (s.switchRes res).i = s.i := rfl
@[simp] theorem State.switchRes_pc (res : Resolution) : (s.switchRes res).pc = s.pc := rfl
@[simp] theorem State.switchRes_stack (res : Resolution) : (s.switchRes res).stack = s.stack := rfl
@[simp] theorem State.switchRes_sp (res : Resolution) : (s.switchRes res).sp = s.sp := rfl
@[simp] theorem State.switchRes_dt (res : Resolution) : (s.switchRes res).dt = s.dt := rfl
@[simp] theorem State.switchRes_st (res : Resolution) : (s.switchRes res).st = s.st := rfl
@[simp] theorem State.switchRes_keys (res : Resolution) : (s.switchRes res).keys = s.keys := rfl
@[simp] theorem State.switchRes_execState (res : Resolution) : (s.switchRes res).execState = s.execState := rfl
@[simp] theorem State.switchRes_fault (res : Resolution) : (s.switchRes res).fault = s.fault := rfl
@[simp] theorem State.switchRes_fr (res : Resolution) : (s.switchRes res).fr = s.fr := rfl
@[simp] theorem State.switchRes_currRes (res : Resolution) : (s.switchRes res).currRes = res := rfl
@[simp] theorem State.switchRes_fb (res : Resolution) : (s.switchRes res).fb = [] := rfl
@[simp] theorem State.switchRes_vblankPending (res : Resolution) : (s.switchRes res).vblankPending = s.vblankPending := rfl
@[simp] theorem State.switchRes_mem (res : Resolution) : (s.switchRes res).mem = s.mem := rfl
@[simp] theorem State.switchRes_loadOpen (res : Resolution) : (s.switchRes res).loadOpen = s.loadOpen := rfl
@[simp] theorem State.switchRes_draws (res : Resolution) : (s.switchRes res).draws = s.draws := rfl
@[simp] theorem State.switchRes_getV (res : Resolution) (q : RegIx) :
    (s.switchRes res).getV q = s.getV q := rfl
@[simp] theorem State.switchRes_getFR (res : Resolution) (q : RegIx) :
    (s.switchRes res).getFR q = s.getFR q := rfl
@[simp] theorem State.switchRes_readByte (res : Resolution) (q : Nat) :
    (s.switchRes res).readByte q = s.readByte q := rfl
@[simp] theorem State.switchRes_stackEntry (res : Resolution) (k : Nat) :
    (s.switchRes res).stackEntry k = s.stackEntry k := rfl
@[simp] theorem State.switchRes_keyHeld (res : Resolution) (q : RegIx) :
    (s.switchRes res).keyHeld q = s.keyHeld q := rfl

/-! ### `State.signalVblank` -/

@[simp] theorem State.signalVblank_params : (s.signalVblank).params = s.params := rfl
@[simp] theorem State.signalVblank_v : (s.signalVblank).v = s.v := rfl
@[simp] theorem State.signalVblank_i : (s.signalVblank).i = s.i := rfl
@[simp] theorem State.signalVblank_pc : (s.signalVblank).pc = s.pc := rfl
@[simp] theorem State.signalVblank_stack : (s.signalVblank).stack = s.stack := rfl
@[simp] theorem State.signalVblank_sp : (s.signalVblank).sp = s.sp := rfl
@[simp] theorem State.signalVblank_dt : (s.signalVblank).dt = s.dt := rfl
@[simp] theorem State.signalVblank_st : (s.signalVblank).st = s.st := rfl
@[simp] theorem State.signalVblank_keys : (s.signalVblank).keys = s.keys := rfl
@[simp] theorem State.signalVblank_execState : (s.signalVblank).execState = s.execState := rfl
@[simp] theorem State.signalVblank_fault : (s.signalVblank).fault = s.fault := rfl
@[simp] theorem State.signalVblank_fr : (s.signalVblank).fr = s.fr := rfl
@[simp] theorem State.signalVblank_currRes : (s.signalVblank).currRes = s.currRes := rfl
@[simp] theorem State.signalVblank_fb : (s.signalVblank).fb = s.fb := rfl
@[simp] theorem State.signalVblank_vblankPending : (s.signalVblank).vblankPending = (s.params.cfg.vblankQuirk || s.vblankPending) := rfl
@[simp] theorem State.signalVblank_mem : (s.signalVblank).mem = s.mem := rfl
@[simp] theorem State.signalVblank_loadOpen : (s.signalVblank).loadOpen = s.loadOpen := rfl
@[simp] theorem State.signalVblank_draws : (s.signalVblank).draws = s.draws := rfl
@[simp] theorem State.signalVblank_getV (q : RegIx) :
    (s.signalVblank).getV q = s.getV q := rfl
@[simp] theorem State.signalVblank_getFR (q : RegIx) :
    (s.signalVblank).getFR q = s.getFR q := rfl
@[simp] theorem State.signalVblank_readByte (q : Nat) :
    (s.signalVblank).readByte q = s.readByte q := rfl
@[simp] theorem State.signalVblank_pixel (r c : Nat) :
    (s.signalVblank).pixel r c = s.pixel r c := rfl
@[simp] theorem State.signalVblank_stackEntry (k : Nat) :
    (s.signalVblank).stackEntry k = s.stackEntry k := rfl
@[simp] theorem State.signalVblank_keyHeld (q : RegIx) :
    (s.signalVblank).keyHeld q = s.keyHeld q := rfl

/-! ### `State.enterFault` -/

@[simp] theorem State.enterFault_params (cause : FaultCause) (op : Option Word) (addr : Option Nat) : (s.enterFault cause op addr).params = s.params := rfl
@[simp] theorem State.enterFault_v (cause : FaultCause) (op : Option Word) (addr : Option Nat) : (s.enterFault cause op addr).v = s.v := rfl
@[simp] theorem State.enterFault_i (cause : FaultCause) (op : Option Word) (addr : Option Nat) : (s.enterFault cause op addr).i = s.i := rfl
@[simp] theorem State.enterFault_pc (cause : FaultCause) (op : Option Word) (addr : Option Nat) : (s.enterFault cause op addr).pc = s.pc := rfl
@[simp] theorem State.enterFault_stack (cause : FaultCause) (op : Option Word) (addr : Option Nat) : (s.enterFault cause op addr).stack = s.stack := rfl
@[simp] theorem State.enterFault_sp (cause : FaultCause) (op : Option Word) (addr : Option Nat) : (s.enterFault cause op addr).sp = s.sp := rfl
@[simp] theorem State.enterFault_dt (cause : FaultCause) (op : Option Word) (addr : Option Nat) : (s.enterFault cause op addr).dt = s.dt := rfl
@[simp] theorem State.enterFault_st (cause : FaultCause) (op : Option Word) (addr : Option Nat) : (s.enterFault cause op addr).st = s.st := rfl
@[simp] theorem State.enterFault_keys (cause : FaultCause) (op : Option Word) (addr : Option Nat) : (s.enterFault cause op addr).keys = s.keys := rfl
@[simp] theorem State.enterFault_execState (cause : FaultCause) (op : Option Word) (addr : Option Nat) : (s.enterFault cause op addr).execState = s.execState := rfl
@[simp] theorem State.enterFault_fault (cause : FaultCause) (op : Option Word) (addr : Option Nat) : (s.enterFault cause op addr).fault = some ⟨cause, s.pc, op, addr⟩ := rfl
@[simp] theorem State.enterFault_fr (cause : FaultCause) (op : Option Word) (addr : Option Nat) : (s.enterFault cause op addr).fr = s.fr := rfl
@[simp] theorem State.enterFault_currRes (cause : FaultCause) (op : Option Word) (addr : Option Nat) : (s.enterFault cause op addr).currRes = s.currRes := rfl
@[simp] theorem State.enterFault_fb (cause : FaultCause) (op : Option Word) (addr : Option Nat) : (s.enterFault cause op addr).fb = s.fb := rfl
@[simp] theorem State.enterFault_vblankPending (cause : FaultCause) (op : Option Word) (addr : Option Nat) : (s.enterFault cause op addr).vblankPending = s.vblankPending := rfl
@[simp] theorem State.enterFault_mem (cause : FaultCause) (op : Option Word) (addr : Option Nat) : (s.enterFault cause op addr).mem = s.mem := rfl
@[simp] theorem State.enterFault_loadOpen (cause : FaultCause) (op : Option Word) (addr : Option Nat) : (s.enterFault cause op addr).loadOpen = s.loadOpen := rfl
@[simp] theorem State.enterFault_draws (cause : FaultCause) (op : Option Word) (addr : Option Nat) : (s.enterFault cause op addr).draws = s.draws := rfl
@[simp] theorem State.enterFault_getV (cause : FaultCause) (op : Option Word) (addr : Option Nat) (q : RegIx) :
    (s.enterFault cause op addr).getV q = s.getV q := rfl
@[simp] theorem State.enterFault_getFR (cause : FaultCause) (op : Option Word) (addr : Option Nat) (q : RegIx) :
    (s.enterFault cause op addr).getFR q = s.getFR q := rfl
@[simp] theorem State.enterFault_readByte (cause : FaultCause) (op : Option Word) (addr : Option Nat) (q : Nat) :
    (s.enterFault cause op addr).readByte q = s.readByte q := rfl
@[simp] theorem State.enterFault_pixel (cause : FaultCause) (op : Option Word) (addr : Option Nat) (r c : Nat) :
    (s.enterFault cause op addr).pixel r c = s.pixel r c := rfl
@[simp] theorem State.enterFault_stackEntry (cause : FaultCause) (op : Option Word) (addr : Option Nat) (k : Nat) :
    (s.enterFault cause op addr).stackEntry k = s.stackEntry k := rfl
@[simp] theorem State.enterFault_keyHeld (cause : FaultCause) (op : Option Word) (addr : Option Nat) (q : RegIx) :
    (s.enterFault cause op addr).keyHeld q = s.keyHeld q := rfl

/-! ### `State.writeByte` -/

@[simp] theorem State.writeByte_params (a : Nat) (w : Byte) : (s.writeByte a w).params = s.params := rfl
@[simp] theorem State.writeByte_v (a : Nat) (w : Byte) : (s.writeByte a w).v = s.v := rfl
@[simp] theorem State.writeByte_i (a : Nat) (w : Byte) : (s.writeByte a w).i = s.i := rfl
@[simp] theorem State.writeByte_pc (a : Nat) (w : Byte) : (s.writeByte a w).pc = s.pc := rfl
@[simp] theorem State.writeByte_stack (a : Nat) (w : Byte) : (s.writeByte a w).stack = s.stack := rfl
@[simp] theorem State.writeByte_sp (a : Nat) (w : Byte) : (s.writeByte a w).sp = s.sp := rfl
@[simp] theorem State.writeByte_dt (a : Nat) (w : Byte) : (s.writeByte a w).dt = s.dt := rfl
@[simp] theorem State.writeByte_st (a : Nat) (w : Byte) : (s.writeByte a w).st = s.st := rfl
@[simp] theorem State.writeByte_keys (a : Nat) (w : Byte) : (s.writeByte a w).keys = s.keys := rfl
@[simp] theorem State.writeByte_execState (a : Nat) (w : Byte) : (s.writeByte a w).execState = s.execState := rfl
@[simp] theorem State.writeByte_fault (a : Nat) (w : Byte) : (s.writeByte a w).fault = s.fault := rfl
@[simp] theorem State.writeByte_fr (a : Nat) (w : Byte) : (s.writeByte a w).fr = s.fr := rfl
@[simp] theorem State.writeByte_currRes (a : Nat) (w : Byte) : (s.writeByte a w).currRes = s.currRes := rfl
@[simp] theorem State.writeByte_fb (a : Nat) (w : Byte) : (s.writeByte a w).fb = s.fb := rfl
@[simp] theorem State.writeByte_vblankPending (a : Nat) (w : Byte) : (s.writeByte a w).vblankPending = s.vblankPending := rfl
@[simp] theorem State.writeByte_loadOpen (a : Nat) (w : Byte) : (s.writeByte a w).loadOpen = s.loadOpen := rfl
@[simp] theorem State.writeByte_draws (a : Nat) (w : Byte) : (s.writeByte a w).draws = s.draws := rfl
@[simp] theorem State.writeByte_getV (a : Nat) (w : Byte) (q : RegIx) :
    (s.writeByte a w).getV q = s.getV q := rfl
@[simp] theorem State.writeByte_getFR (a : Nat) (w : Byte) (q : RegIx) :
    (s.writeByte a w).getFR q = s.getFR q := rfl
@[simp] theorem State.writeByte_pixel (a : Nat) (w : Byte) (r c : Nat) :
    (s.writeByte a w).pixel r c = s.pixel r c := rfl
@[simp] theorem State.writeByte_stackEntry (a : Nat) (w : Byte) (k : Nat) :
    (s.writeByte a w).stackEntry k = s.stackEntry k := rfl
@[simp] theorem State.writeByte_keyHeld (a : Nat) (w : Byte) (q : RegIx) :
    (s.writeByte a w).keyHeld q = s.keyHeld q := rfl

/-! ### `State.advance` -/

@[simp] theorem State.advance_params : (s.advance).params = s.params := rfl
@[simp] theorem State.advance_v : (s.advance).v = s.v := rfl
@[simp] theorem State.advance_i : (s.advance).i = s.i := rfl
@[simp] theorem State.advance_pc : (s.advance).pc = s.pc + 2 := rfl
@[simp] theorem State.advance_stack : (s.advance).stack = s.stack := rfl
@[simp] theorem State.advance_sp : (s.advance).sp = s.sp := rfl
@[simp] theorem State.advance_dt : (s.advance).dt = s.dt := rfl
@[simp] theorem State.advance_st : (s.advance).st = s.st := rfl
@[simp] theorem State.advance_keys : (s.advance).keys = s.keys := rfl
@[simp] theorem State.advance_execState : (s.advance).execState = s.execState := rfl
@[simp] theorem State.advance_fault : (s.advance).fault = s.fault := rfl
@[simp] theorem State.advance_fr : (s.advance).fr = s.fr := rfl
@[simp] theorem State.advance_currRes : (s.advance).currRes = s.currRes := rfl
@[simp] theorem State.advance_fb : (s.advance).fb = s.fb := rfl
@[simp] theorem State.advance_vblankPending : (s.advance).vblankPending = s.vblankPending := rfl
@[simp] theorem State.advance_mem : (s.advance).mem = s.mem := rfl
@[simp] theorem State.advance_loadOpen : (s.advance).loadOpen = s.loadOpen := rfl
@[simp] theorem State.advance_draws : (s.advance).draws = s.draws := rfl
@[simp] theorem State.advance_getV (q : RegIx) :
    (s.advance).getV q = s.getV q := rfl
@[simp] theorem State.advance_getFR (q : RegIx) :
    (s.advance).getFR q = s.getFR q := rfl
@[simp] theorem State.advance_readByte (q : Nat) :
    (s.advance).readByte q = s.readByte q := rfl
@[simp] theorem State.advance_pixel (r c : Nat) :
    (s.advance).pixel r c = s.pixel r c := rfl
@[simp] theorem State.advance_stackEntry (k : Nat) :
    (s.advance).stackEntry k = s.stackEntry k := rfl
@[simp] theorem State.advance_keyHeld (q : RegIx) :
    (s.advance).keyHeld q = s.keyHeld q := rfl

end Sys2Proof.Machine
end

