-- ==== Sys2Proof/Laws/Framebuffer.lean ====
section
/-! SUPPORT. The framebuffer: toggling, XOR of many pixels and scrolling, pixel by pixel, and every operation keeps the
canonical form. -/

namespace Sys2Proof.Machine

variable {h w : Nat}

theorem Pixel.before_iff (p q : Pixel) : Pixel.before p q = true ↔ p.1 < q.1 ∨ (p.1 = q.1 ∧ p.2 < q.2) := by
  simp [Pixel.before]

/-- What the canonical form says of a listing's head and tail. -/
theorem Framebuffer.wfFrom_cons {lo p : Pixel} {ps : Framebuffer} :
    Framebuffer.wfFrom h w lo (p :: ps) = true ↔
      Pixel.before p lo = false ∧ p.1 < h ∧ p.2 < w ∧ Framebuffer.wfFrom h w (p.1, p.2 + 1) ps = true := by
  simp [Framebuffer.wfFrom, and_assoc]

/-- A listed cell is not before the bound, and lies on the grid. -/
theorem Framebuffer.wfFrom_mem {lo p : Pixel} {fb : Framebuffer} (hfb : Framebuffer.wfFrom h w lo fb = true)
    (hp : p ∈ fb) : Pixel.before p lo = false ∧ p.1 < h ∧ p.2 < w := by
  induction fb generalizing lo with
  | nil => cases hp
  | cons q qs ih =>
    obtain ⟨hlo, h1, h2, hrest⟩ := Framebuffer.wfFrom_cons.mp hfb
    rcases List.mem_cons.mp hp with rfl | hp
    · exact ⟨hlo, h1, h2⟩
    · obtain ⟨hb, h1', h2'⟩ := ih hrest hp
      refine ⟨?_, h1', h2'⟩
      rw [Bool.eq_false_iff] at hb hlo ⊢
      simp only [ne_eq, Pixel.before_iff] at hb hlo ⊢
      omega

/-- A lower bound may be lowered. -/
theorem Framebuffer.wfFrom_mono {lo lo' : Pixel} {fb : Framebuffer} (hlo : Pixel.before lo lo' = false)
    (hfb : Framebuffer.wfFrom h w lo fb = true) : Framebuffer.wfFrom h w lo' fb = true := by
  cases fb with
  | nil => rfl
  | cons p ps =>
    obtain ⟨hp, h1, h2, hrest⟩ := Framebuffer.wfFrom_cons.mp hfb
    refine Framebuffer.wfFrom_cons.mpr ⟨?_, h1, h2, hrest⟩
    rw [Bool.eq_false_iff] at hp hlo ⊢
    simp only [ne_eq, Pixel.before_iff] at hp hlo ⊢
    omega

/-- Toggling flips the one cell and leaves every other. -/
theorem Framebuffer.mem_toggle {lo : Pixel} {fb : Framebuffer} (hfb : Framebuffer.wfFrom h w lo fb = true)
    (q p : Pixel) : p ∈ Framebuffer.toggle q fb ↔ (if p = q then q ∉ fb else p ∈ fb) := by
  induction fb generalizing lo with
  | nil => by_cases hp : p = q <;> simp [Framebuffer.toggle, hp]
  | cons a as ih =>
    obtain ⟨-, -, -, hrest⟩ := Framebuffer.wfFrom_cons.mp hfb
    have hafter : ∀ x ∈ as, Pixel.before x (a.1, a.2 + 1) = false := fun x hx => (Framebuffer.wfFrom_mem hrest hx).1
    have hno : ∀ x ∈ as, ¬ (x.1 < a.1 ∨ (x.1 = a.1 ∧ x.2 < a.2 + 1)) := fun x hx => by
      have := hafter x hx
      rw [Bool.eq_false_iff] at this
      simpa only [ne_eq, Pixel.before_iff] using this
    simp only [Framebuffer.toggle]
    split
    · rename_i hb
      rw [Pixel.before_iff] at hb
      have hqa : q ≠ a := by rintro rfl; omega
      have hqas : q ∉ as := fun hq => by have := hno q hq; omega
      by_cases hp : p = q
      · subst hp; simp [hqa, hqas]
      · simp [hp]
    · split
      · rename_i _ hqa
        subst hqa
        have hqas : q ∉ as := fun hq => by have := hno q hq; omega
        by_cases hp : p = q
        · subst hp; simp [hqas]
        · simp [hp]
      · rename_i _ hqa
        rw [List.mem_cons, ih hrest]
        by_cases hp : p = q
        · subst hp; simp [hqa]
        · simp [hp]

/-- Toggling a cell of the grid keeps the canonical form. -/
theorem Framebuffer.toggle_wfFrom {lo q : Pixel} {fb : Framebuffer} (hfb : Framebuffer.wfFrom h w lo fb = true)
    (hlo : Pixel.before q lo = false) (h1 : q.1 < h) (h2 : q.2 < w) :
    Framebuffer.wfFrom h w lo (Framebuffer.toggle q fb) = true := by
  induction fb generalizing lo with
  | nil => exact Framebuffer.wfFrom_cons.mpr ⟨hlo, h1, h2, rfl⟩
  | cons a as ih =>
    obtain ⟨hla, ha1, ha2, hrest⟩ := Framebuffer.wfFrom_cons.mp hfb
    simp only [Framebuffer.toggle]
    split
    · rename_i hb
      rw [Pixel.before_iff] at hb
      refine Framebuffer.wfFrom_cons.mpr ⟨hlo, h1, h2, Framebuffer.wfFrom_cons.mpr ⟨?_, ha1, ha2, hrest⟩⟩
      rw [Bool.eq_false_iff]; simp only [ne_eq, Pixel.before_iff]; omega
    · rename_i hb
      split
      · refine Framebuffer.wfFrom_mono ?_ hrest
        rw [Bool.eq_false_iff] at hla ⊢
        simp only [ne_eq, Pixel.before_iff] at hla ⊢
        omega
      · rename_i hqa
        refine Framebuffer.wfFrom_cons.mpr ⟨hla, ha1, ha2, ih hrest ?_⟩
        rw [Pixel.before_iff] at hb
        rw [Bool.eq_false_iff]
        simp only [ne_eq, Pixel.before_iff]
        intro hc
        exact hqa (Prod.ext (by omega) (by omega))

/-- XOR of pixels of the grid keeps the canonical form. -/
theorem Framebuffer.xorAll_wf {fb : Framebuffer} {qs : List Pixel} (hfb : Framebuffer.wf h w fb = true)
    (hqs : ∀ q ∈ qs, q.1 < h ∧ q.2 < w) : Framebuffer.wf h w (Framebuffer.xorAll qs fb).2 = true := by
  induction qs generalizing fb with
  | nil => exact hfb
  | cons q qs ih =>
    have hq := hqs q (List.mem_cons_self ..)
    refine ih (Framebuffer.toggle_wfFrom hfb ?_ hq.1 hq.2) fun p hp => hqs p (List.mem_cons_of_mem _ hp)
    simp [Pixel.before]

/-- XOR of distinct pixels flips exactly those, and reports whether one of them was true (R98, D32). -/
theorem Framebuffer.xorAll_spec {fb : Framebuffer} {qs : List Pixel} (hfb : Framebuffer.wf h w fb = true)
    (hqs : ∀ q ∈ qs, q.1 < h ∧ q.2 < w) (hnd : qs.Nodup) :
    (∀ p, p ∈ (Framebuffer.xorAll qs fb).2 ↔ (p ∈ qs ∧ p ∉ fb) ∨ (p ∉ qs ∧ p ∈ fb)) ∧
      ((Framebuffer.xorAll qs fb).1 = true ↔ ∃ q ∈ qs, q ∈ fb) := by
  induction qs generalizing fb with
  | nil => simp [Framebuffer.xorAll]
  | cons q qs ih =>
    obtain ⟨hqn, hnd⟩ := List.nodup_cons.mp hnd
    have hq := hqs q (List.mem_cons_self ..)
    have hwf : Framebuffer.wf h w (Framebuffer.toggle q fb) = true :=
      Framebuffer.toggle_wfFrom hfb (by simp [Pixel.before]) hq.1 hq.2
    obtain ⟨hmem, hcol⟩ := ih hwf (fun p hp => hqs p (List.mem_cons_of_mem _ hp)) hnd
    constructor
    · intro p
      simp only [Framebuffer.xorAll, hmem, Framebuffer.mem_toggle hfb, List.mem_cons]
      by_cases hpq : p = q
      · subst hpq; simp [hqn]
      · by_cases hp : p ∈ qs <;> simp [hp, hpq]
    · simp only [Framebuffer.xorAll, Bool.or_eq_true, List.contains_iff_mem, hcol, Framebuffer.mem_toggle hfb,
        List.mem_cons, exists_eq_or_imp]
      refine or_congr_right ⟨?_, ?_⟩
      · rintro ⟨p, hp, hpf⟩
        have : p ≠ q := fun e => hqn (e ▸ hp)
        exact ⟨p, hp, by simpa [this] using hpf⟩
      · rintro ⟨p, hp, hpf⟩
        have : p ≠ q := fun e => hqn (e ▸ hp)
        exact ⟨p, hp, by simpa [this] using hpf⟩

/-! ### Scrolling -/

theorem Framebuffer.mem_scrollDown (d : Nat) (fb : Framebuffer) (r c : Nat) :
    (r, c) ∈ Framebuffer.scrollDown h d fb ↔ r < h ∧ d ≤ r ∧ (r - d, c) ∈ fb := by
  simp only [Framebuffer.scrollDown, List.mem_filter, List.mem_map, Prod.mk.injEq, decide_eq_true_eq]
  constructor
  · rintro ⟨⟨p, hp, h1, h2⟩, h3⟩
    have : (r - d, c) = p := Prod.ext (by simp; omega) (by simp; omega)
    exact ⟨h3, by omega, this ▸ hp⟩
  · rintro ⟨h1, h2, h3⟩
    exact ⟨⟨_, h3, by simp; omega, rfl⟩, h1⟩

theorem Framebuffer.mem_scrollRight (d : Nat) (fb : Framebuffer) (r c : Nat) :
    (r, c) ∈ Framebuffer.scrollRight w d fb ↔ c < w ∧ d ≤ c ∧ (r, c - d) ∈ fb := by
  simp only [Framebuffer.scrollRight, List.mem_filter, List.mem_map, Prod.mk.injEq, decide_eq_true_eq]
  constructor
  · rintro ⟨⟨p, hp, h1, h2⟩, h3⟩
    have : (r, c - d) = p := Prod.ext (by simp; omega) (by simp; omega)
    exact ⟨h3, by omega, this ▸ hp⟩
  · rintro ⟨h1, h2, h3⟩
    exact ⟨⟨_, h3, rfl, by simp; omega⟩, h1⟩

theorem Framebuffer.mem_scrollLeft (d : Nat) (fb : Framebuffer) (r c : Nat) :
    (r, c) ∈ Framebuffer.scrollLeft d fb ↔ (r, c + d) ∈ fb := by
  simp only [Framebuffer.scrollLeft, List.mem_filter, List.mem_map, Prod.mk.injEq, decide_eq_true_eq]
  constructor
  · rintro ⟨p, ⟨hp, hd⟩, h1, h2⟩
    have : (r, c + d) = p := Prod.ext (by simp; omega) (by simp; omega)
    exact this ▸ hp
  · intro hp
    exact ⟨_, ⟨hp, by simp⟩, rfl, by simp⟩

theorem Framebuffer.scrollDown_wfFrom (d : Nat) {lo : Pixel} {fb : Framebuffer}
    (hfb : Framebuffer.wfFrom h w lo fb = true) :
    Framebuffer.wfFrom h w (lo.1 + d, lo.2) (Framebuffer.scrollDown h d fb) = true := by
  induction fb generalizing lo with
  | nil => rfl
  | cons p ps ih =>
    obtain ⟨hlo, -, h2, hrest⟩ := Framebuffer.wfFrom_cons.mp hfb
    have hps := ih hrest
    rw [Bool.eq_false_iff] at hlo
    simp only [ne_eq, Pixel.before_iff] at hlo
    simp only [Framebuffer.scrollDown, List.map_cons, List.filter_cons] at hps ⊢
    split
    · rename_i h1
      refine Framebuffer.wfFrom_cons.mpr ⟨?_, by simpa using h1, h2, hps⟩
      rw [Bool.eq_false_iff]; simp only [ne_eq, Pixel.before_iff]; omega
    · refine Framebuffer.wfFrom_mono ?_ hps
      rw [Bool.eq_false_iff]; simp only [ne_eq, Pixel.before_iff]; omega

theorem Framebuffer.scrollRight_wfFrom (d : Nat) {lo : Pixel} {fb : Framebuffer}
    (hfb : Framebuffer.wfFrom h w lo fb = true) :
    Framebuffer.wfFrom h w (lo.1, lo.2 + d) (Framebuffer.scrollRight w d fb) = true := by
  induction fb generalizing lo with
  | nil => rfl
  | cons p ps ih =>
    obtain ⟨hlo, h1, -, hrest⟩ := Framebuffer.wfFrom_cons.mp hfb
    have hps := ih hrest
    rw [Bool.eq_false_iff] at hlo
    simp only [ne_eq, Pixel.before_iff] at hlo
    simp only [Framebuffer.scrollRight, List.map_cons, List.filter_cons] at hps ⊢
    split
    · rename_i h2
      refine Framebuffer.wfFrom_cons.mpr ⟨?_, h1, by simpa using h2, Framebuffer.wfFrom_mono ?_ hps⟩
      all_goals rw [Bool.eq_false_iff]; simp only [ne_eq, Pixel.before_iff]; omega
    · refine Framebuffer.wfFrom_mono ?_ hps
      rw [Bool.eq_false_iff]; simp only [ne_eq, Pixel.before_iff]; omega

theorem Framebuffer.scrollLeft_wfFrom (d : Nat) {lo lo' : Pixel} {fb : Framebuffer}
    (hfb : Framebuffer.wfFrom h w lo fb = true) (h1 : lo'.1 ≤ lo.1) (h2 : lo'.1 = lo.1 → lo'.2 + d ≤ lo.2 ∨ lo'.2 = 0) :
    Framebuffer.wfFrom h w lo' (Framebuffer.scrollLeft d fb) = true := by
  induction fb generalizing lo lo' with
  | nil => rfl
  | cons p ps ih =>
    obtain ⟨hlo, hp1, hp2, hrest⟩ := Framebuffer.wfFrom_cons.mp hfb
    rw [Bool.eq_false_iff] at hlo
    simp only [ne_eq, Pixel.before_iff] at hlo
    have hcut : Framebuffer.scrollLeft d (p :: ps) =
        if d ≤ p.2 then (p.1, p.2 - d) :: Framebuffer.scrollLeft d ps else Framebuffer.scrollLeft d ps := by
      simp only [Framebuffer.scrollLeft, List.filter_cons]
      by_cases hd : d ≤ p.2 <;> simp [hd]
    rw [hcut]
    split
    · refine Framebuffer.wfFrom_cons.mpr ⟨?_, hp1, by simp; omega, ih hrest (by simp) fun _ => .inl (by simp; omega)⟩
      rw [Bool.eq_false_iff]; simp only [ne_eq, Pixel.before_iff]; omega
    · exact ih hrest (by simp; omega) fun e => by simp only at e ⊢; omega

theorem Framebuffer.scrollDown_wf (d : Nat) {fb : Framebuffer} (hfb : Framebuffer.wf h w fb = true) :
    Framebuffer.wf h w (Framebuffer.scrollDown h d fb) = true :=
  Framebuffer.wfFrom_mono (by simp [Pixel.before]) (Framebuffer.scrollDown_wfFrom d hfb)

theorem Framebuffer.scrollRight_wf (d : Nat) {fb : Framebuffer} (hfb : Framebuffer.wf h w fb = true) :
    Framebuffer.wf h w (Framebuffer.scrollRight w d fb) = true :=
  Framebuffer.wfFrom_mono (by simp [Pixel.before]) (Framebuffer.scrollRight_wfFrom d hfb)

theorem Framebuffer.scrollLeft_wf (d : Nat) {fb : Framebuffer} (hfb : Framebuffer.wf h w fb = true) :
    Framebuffer.wf h w (Framebuffer.scrollLeft d fb) = true :=
  Framebuffer.scrollLeft_wfFrom d hfb (Nat.le_refl _) fun _ => .inr rfl

/-- `FB[r][c]` is true when the cell is listed. -/
theorem State.pixel_iff (s : State) (r c : Nat) : s.pixel r c = true ↔ (r, c) ∈ s.fb := by
  simp [State.pixel]

end Sys2Proof.Machine
end

