-- ==== Sys2Proof/Laws/Memory.lean ====
section
/-! SUPPORT. Memory: reading after a write, and every memory operation keeps the canonical form. -/

namespace Sys2Proof.Machine

variable {d : Nat → Byte}

/-! ### The listing -/

/-- A lower bound may be lowered. -/
theorem Memory.wfAbove_mono {lo lo' : Nat} (h : lo' ≤ lo) {m : Memory} (hm : Memory.wfAbove d lo m = true) :
    Memory.wfAbove d lo' m = true := by
  cases m with
  | nil => rfl
  | cons c m =>
    obtain ⟨b, w⟩ := c
    simp only [Memory.wfAbove, Bool.and_eq_true, decide_eq_true_eq] at hm ⊢
    exact ⟨⟨⟨by omega, hm.1.1.2⟩, hm.1.2⟩, hm.2⟩

/-- An address below the bound is unlisted, so it reads as the initial byte. -/
theorem Memory.lookup_below {lo a : Nat} {m : Memory} (hm : Memory.wfAbove d lo m = true) (ha : a < lo) :
    Memory.lookup d a m = d a := by
  induction m generalizing lo with
  | nil => rfl
  | cons c m ih =>
    obtain ⟨b, w⟩ := c
    simp only [Memory.wfAbove, Bool.and_eq_true, decide_eq_true_eq] at hm
    have hb : b ≠ a := by omega
    simpa [Memory.lookup, hb] using ih hm.2 (by omega)

theorem Memory.lookup_insert (a q : Nat) (w : Byte) (m : Memory) :
    Memory.lookup d q (Memory.insert a w m) = if q = a then w else Memory.lookup d q m := by
  induction m with
  | nil => simp only [Memory.insert, Memory.lookup, eq_comm (a := a)]
  | cons c m ih =>
    obtain ⟨b, u⟩ := c
    simp only [Memory.insert]
    split
    · simp only [Memory.lookup, eq_comm (a := a)]
    · split
      · rename_i _ hab
        subst hab
        by_cases hq : q = a
        · simp [Memory.lookup, hq]
        · simp [Memory.lookup, hq, Ne.symm hq]
      · rename_i _ hab
        simp only [Memory.lookup, ih]
        by_cases hb : b = q
        · subst hb; simp [Ne.symm hab]
        · simp [hb]

theorem Memory.lookup_erase {lo : Nat} {m : Memory} (hm : Memory.wfAbove d lo m = true) (a q : Nat) :
    Memory.lookup d q (Memory.erase a m) = if q = a then d a else Memory.lookup d q m := by
  induction m generalizing lo with
  | nil =>
    by_cases hq : q = a
    · simp [Memory.erase, Memory.lookup, hq]
    · simp [Memory.erase, Memory.lookup, hq]
  | cons c m ih =>
    obtain ⟨b, u⟩ := c
    simp only [Memory.wfAbove, Bool.and_eq_true, decide_eq_true_eq] at hm
    simp only [Memory.erase]
    split
    · rename_i hba
      subst hba
      by_cases hq : q = b
      · subst hq; simpa using Memory.lookup_below hm.2 (by omega)
      · simp [Memory.lookup, hq, Ne.symm hq]
    · rename_i hba
      simp only [Memory.lookup, ih hm.2]
      by_cases hb : b = q
      · subst hb; simp [hba]
      · simp [hb]

theorem Memory.insert_wfAbove {lo a : Nat} {w : Byte} {m : Memory} (hm : Memory.wfAbove d lo m = true)
    (hlo : lo ≤ a) (ha : a < 0x1000) (hw : w ≠ d a) : Memory.wfAbove d lo (Memory.insert a w m) = true := by
  induction m generalizing lo with
  | nil => simp [Memory.insert, Memory.wfAbove, hlo, ha, hw]
  | cons c m ih =>
    obtain ⟨b, u⟩ := c
    have hm' := hm
    simp only [Memory.wfAbove, Bool.and_eq_true, decide_eq_true_eq] at hm
    obtain ⟨⟨⟨hb, hb4⟩, hu⟩, hrest⟩ := hm
    simp only [Memory.insert]
    split
    · have : a + 1 ≤ b := by omega
      simp [Memory.wfAbove, hlo, ha, hw, this, hb4, hu, hrest]
    · split
      · rename_i _ hab
        subst hab
        simp [Memory.wfAbove, hlo, ha, hw, hrest]
      · simp [Memory.wfAbove, hb, hb4, hu, ih hrest (by omega)]

theorem Memory.erase_wfAbove {lo : Nat} {m : Memory} (a : Nat) (hm : Memory.wfAbove d lo m = true) :
    Memory.wfAbove d lo (Memory.erase a m) = true := by
  induction m generalizing lo with
  | nil => rfl
  | cons c m ih =>
    obtain ⟨b, u⟩ := c
    simp only [Memory.wfAbove, Bool.and_eq_true, decide_eq_true_eq] at hm
    obtain ⟨⟨⟨hb, hb4⟩, hu⟩, hrest⟩ := hm
    simp only [Memory.erase]
    split
    · exact Memory.wfAbove_mono (by omega) hrest
    · simp [Memory.wfAbove, hb, hb4, hu, ih hrest]

/-! ### Writing -/

/-- A write keeps the canonical form. -/
theorem Memory.write_wf {a : Nat} {w : Byte} {m : Memory} (hm : Memory.wf d m = true) (ha : a < 0x1000) :
    Memory.wf d (Memory.write d a w m) = true := by
  unfold Memory.write
  split
  · exact Memory.erase_wfAbove a hm
  · exact Memory.insert_wfAbove hm (Nat.zero_le a) ha ‹_›

/-- A read after a write: the written byte there, the old byte everywhere else. -/
theorem Memory.lookup_write {m : Memory} (hm : Memory.wf d m = true) (a q : Nat) (w : Byte) :
    Memory.lookup d q (Memory.write d a w m) = if q = a then w else Memory.lookup d q m := by
  unfold Memory.write
  split
  · rename_i hw; rw [Memory.lookup_erase hm, hw]
  · exact Memory.lookup_insert a q w m

/-- A write leaves every other address alone, whatever the listing. -/
theorem Memory.lookup_write_other (m : Memory) (a q : Nat) (w : Byte) (h : q ≠ a) :
    Memory.lookup d q (Memory.write d a w m) = Memory.lookup d q m := by
  unfold Memory.write
  split
  · clear * - h
    induction m with
    | nil => rfl
    | cons c m ih =>
      obtain ⟨b, u⟩ := c
      simp only [Memory.erase]
      split
      · rename_i hb; subst hb; simp [Memory.lookup, Ne.symm h]
      · simp only [Memory.lookup, ih]
  · rw [Memory.lookup_insert, if_neg h]

/-! ### The state's memory -/

/-- The canonical form of a state's memory. -/
abbrev State.memWf (s : State) : Prop := Memory.wf (initialByte s.params) s.mem = true

theorem State.writeByte_memWf {s : State} (h : s.memWf) {a : Nat} (ha : a < 0x1000) (w : Byte) :
    (s.writeByte a w).memWf := Memory.write_wf h ha

theorem State.readByte_writeByte {s : State} (h : s.memWf) (a q : Nat) (w : Byte) :
    (s.writeByte a w).readByte q = if q = a then w else s.readByte q := Memory.lookup_write h a q w

theorem State.readByte_writeByte_other (s : State) (a q : Nat) (w : Byte) (h : q ≠ a) :
    (s.writeByte a w).readByte q = s.readByte q := Memory.lookup_write_other s.mem a q w h

/-- Writing bytes touches memory alone. -/
theorem State.writeBytes_eq (s : State) (a : Nat) (ws : List Byte) :
    s.writeBytes a ws = { s with mem := (s.writeBytes a ws).mem } := by
  induction ws generalizing s a with
  | nil => rfl
  | cons w ws ih => rw [State.writeBytes, ih]; rfl

theorem State.writeBytes_memWf {s : State} (h : s.memWf) {a : Nat} {ws : List Byte} (ha : a + ws.length ≤ 0x1000) :
    (s.writeBytes a ws).memWf := by
  induction ws generalizing s a with
  | nil => exact h
  | cons w ws ih =>
    simp only [List.length_cons] at ha
    exact ih (State.writeByte_memWf h (by omega) w) (by omega)

/-- A read after writing bytes at `a`, `a + 1`, …, outside them. -/
theorem State.readByte_writeBytes_outside (s : State) (a q : Nat) (ws : List Byte)
    (h : q < a ∨ a + ws.length ≤ q) : (s.writeBytes a ws).readByte q = s.readByte q := by
  induction ws generalizing s a with
  | nil => rfl
  | cons w ws ih =>
    simp only [List.length_cons] at h
    rw [State.writeBytes, ih _ _ (by omega), State.readByte_writeByte_other _ _ _ _ (by omega)]

/-- A read after writing bytes at `a`, `a + 1`, …, at one of them. -/
theorem State.readByte_writeBytes_inside {s : State} (h : s.memWf) (a k : Nat) (ws : List Byte)
    (ha : a + ws.length ≤ 0x1000) (hk : k < ws.length) : (s.writeBytes a ws).readByte (a + k) = ws[k] := by
  induction ws generalizing s a k with
  | nil => cases hk
  | cons w ws ih =>
    simp only [List.length_cons] at ha hk
    cases k with
    | zero =>
      rw [State.writeBytes, State.readByte_writeBytes_outside _ _ _ _ (by omega), State.readByte_writeByte h]
      simp
    | succ k =>
      have := ih (State.writeByte_memWf h (a := a) (by omega) w) (a + 1) k (by omega) (by omega)
      rw [State.writeBytes, show a + (k + 1) = a + 1 + k by omega, this]
      rfl

/-! ### What writing bytes leaves -/

@[simp] theorem State.writeBytes_params (s : State) (a : Nat) (ws : List Byte) : (s.writeBytes a ws).params = s.params := by
  rw [State.writeBytes_eq]
@[simp] theorem State.writeBytes_v (s : State) (a : Nat) (ws : List Byte) : (s.writeBytes a ws).v = s.v := by
  rw [State.writeBytes_eq]
@[simp] theorem State.writeBytes_i (s : State) (a : Nat) (ws : List Byte) : (s.writeBytes a ws).i = s.i := by
  rw [State.writeBytes_eq]
@[simp] theorem State.writeBytes_pc (s : State) (a : Nat) (ws : List Byte) : (s.writeBytes a ws).pc = s.pc := by
  rw [State.writeBytes_eq]
@[simp] theorem State.writeBytes_stack (s : State) (a : Nat) (ws : List Byte) : (s.writeBytes a ws).stack = s.stack := by
  rw [State.writeBytes_eq]
@[simp] theorem State.writeBytes_sp (s : State) (a : Nat) (ws : List Byte) : (s.writeBytes a ws).sp = s.sp := by
  rw [State.writeBytes_eq]
@[simp] theorem State.writeBytes_dt (s : State) (a : Nat) (ws : List Byte) : (s.writeBytes a ws).dt = s.dt := by
  rw [State.writeBytes_eq]
@[simp] theorem State.writeBytes_st (s : State) (a : Nat) (ws : List Byte) : (s.writeBytes a ws).st = s.st := by
  rw [State.writeBytes_eq]
@[simp] theorem State.writeBytes_keys (s : State) (a : Nat) (ws : List Byte) : (s.writeBytes a ws).keys = s.keys := by
  rw [State.writeBytes_eq]
@[simp] theorem State.writeBytes_execState (s : State) (a : Nat) (ws : List Byte) : (s.writeBytes a ws).execState = s.execState := by
  rw [State.writeBytes_eq]
@[simp] theorem State.writeBytes_fault (s : State) (a : Nat) (ws : List Byte) : (s.writeBytes a ws).fault = s.fault := by
  rw [State.writeBytes_eq]
@[simp] theorem State.writeBytes_fr (s : State) (a : Nat) (ws : List Byte) : (s.writeBytes a ws).fr = s.fr := by
  rw [State.writeBytes_eq]
@[simp] theorem State.writeBytes_currRes (s : State) (a : Nat) (ws : List Byte) : (s.writeBytes a ws).currRes = s.currRes := by
  rw [State.writeBytes_eq]
@[simp] theorem State.writeBytes_fb (s : State) (a : Nat) (ws : List Byte) : (s.writeBytes a ws).fb = s.fb := by
  rw [State.writeBytes_eq]
@[simp] theorem State.writeBytes_vblankPending (s : State) (a : Nat) (ws : List Byte) : (s.writeBytes a ws).vblankPending = s.vblankPending := by
  rw [State.writeBytes_eq]
@[simp] theorem State.writeBytes_loadOpen (s : State) (a : Nat) (ws : List Byte) : (s.writeBytes a ws).loadOpen = s.loadOpen := by
  rw [State.writeBytes_eq]
@[simp] theorem State.writeBytes_draws (s : State) (a : Nat) (ws : List Byte) : (s.writeBytes a ws).draws = s.draws := by
  rw [State.writeBytes_eq]
@[simp] theorem State.writeBytes_getV (s : State) (a : Nat) (ws : List Byte) (q : RegIx) :
    (s.writeBytes a ws).getV q = s.getV q := by rw [State.writeBytes_eq]; rfl
@[simp] theorem State.writeBytes_getFR (s : State) (a : Nat) (ws : List Byte) (q : RegIx) :
    (s.writeBytes a ws).getFR q = s.getFR q := by rw [State.writeBytes_eq]; rfl
@[simp] theorem State.writeBytes_pixel (s : State) (a : Nat) (ws : List Byte) (r c : Nat) :
    (s.writeBytes a ws).pixel r c = s.pixel r c := by rw [State.writeBytes_eq]; rfl
@[simp] theorem State.writeBytes_stackEntry (s : State) (a : Nat) (ws : List Byte) (k : Nat) :
    (s.writeBytes a ws).stackEntry k = s.stackEntry k := by rw [State.writeBytes_eq]; rfl
@[simp] theorem State.writeBytes_keyHeld (s : State) (a : Nat) (ws : List Byte) (q : RegIx) :
    (s.writeBytes a ws).keyHeld q = s.keyHeld q := by rw [State.writeBytes_eq]; rfl

@[simp] theorem State.init_memWf (p : Params) : (State.init p).memWf := rfl

/-- Reset memory has the canonical form: nothing is listed. -/
theorem State.reset_memWf : State.reset.memWf := rfl

end Sys2Proof.Machine
end

