-- ==== Sys2Proof/Laws/Registers.lean ====
section
/-! SUPPORT. What the register operations write and what they leave: reads after writes of `V`, `FR` and the return
stack. -/

namespace Sys2Proof.Machine

theorem State.getV_setV (s : State) (x q : RegIx) (b : Byte) :
    (s.setV x b).getV q = if q = x then b else s.getV q := by
  simp only [State.getV, State.setV, Fin.getElem_fin, Vector.getElem_set, Fin.ext_iff, eq_comm (a := x.val)]

@[simp] theorem State.getV_setV_same (s : State) (x : RegIx) (b : Byte) : (s.setV x b).getV x = b := by
  simp [State.getV_setV]

theorem State.getV_setV_other (s : State) (x q : RegIx) (b : Byte) (h : q ≠ x) :
    (s.setV x b).getV q = s.getV q := by
  simp [State.getV_setV, h]

/-- The `k`-th entry of a register file after a copy of the entries up to `n`. -/
theorem getElem_copyUpTo (f : RegIx → Byte) (file : Vector Byte 16) (n : Nat) (hn : n < 16) (q : RegIx) :
    (copyUpTo f file n)[q] = if q.val ≤ n then f q else file[q] := by
  induction n with
  | zero =>
    simp only [copyUpTo, Fin.getElem_fin, Vector.getElem_set]
    by_cases h : q = 0
    · subst h; simp
    · have : ¬ q.val ≤ 0 := fun hq => h (Fin.ext (by simpa using hq))
      have h0 : ¬ ((0 : RegIx).val = q.val) := fun e => this (by simp [← e])
      rw [if_neg h0, if_neg this]
  | succ n ih =>
    have hr : (Fin.ofNat 16 (n + 1) : RegIx).val = n + 1 := by simp [Fin.ofNat]; omega
    have ih := ih (by omega)
    simp only [copyUpTo, Fin.getElem_fin, Vector.getElem_set, hr] at ih ⊢
    by_cases h : n + 1 = q.val
    · have hq : (Fin.ofNat 16 (n + 1) : RegIx) = q := Fin.ext (hr.trans h)
      rw [if_pos h, if_pos (by omega), hq]
    · rw [if_neg h, ih]
      by_cases h' : q.val ≤ n
      · rw [if_pos h', if_pos (by omega)]
      · rw [if_neg h', if_neg (by omega)]

theorem State.getV_setVUpTo (s : State) (x q : RegIx) (f : RegIx → Byte) :
    (s.setVUpTo x f).getV q = if q ≤ x then f q else s.getV q := by
  simpa only [State.getV, State.setVUpTo, Fin.le_def] using getElem_copyUpTo f s.v x.val x.isLt q

theorem State.getFR_setFRUpTo (s : State) (x q : RegIx) (f : RegIx → Byte) :
    (s.setFRUpTo x f).getFR q = if q ≤ x then f q else s.getFR q := by
  simpa only [State.getFR, State.setFRUpTo, Fin.le_def] using getElem_copyUpTo f s.fr x.val x.isLt q

/-- Register files are equal when they read equal. -/
theorem vector_ext_of_reads {a b : Vector Byte 16} (h : ∀ r : RegIx, a[r] = b[r]) : a = b :=
  Vector.ext fun k hk => h ⟨k, hk⟩

/-- Everything a call's push does. -/
theorem State.push_eq_some {s t : State} {a : Word} (h : s.push a = some t) :
    s.sp < 16 ∧ t = { s with stack := s.stack.setIfInBounds s.sp a, sp := s.sp + 1 } := by
  unfold State.push at h
  split at h
  · exact ⟨‹_›, (Option.some.inj h).symm⟩
  · cases h

/-- Everything a return's pop does. -/
theorem State.pop_eq_some {s t : State} {a : Word} (h : s.pop = some (a, t)) :
    s.sp ≠ 0 ∧ a = s.stackEntry (s.sp - 1) ∧ t = { s with sp := s.sp - 1 } := by
  unfold State.pop at h
  split at h
  · cases h
  · have h := Option.some.inj h
    exact ⟨‹_›, (congrArg Prod.fst h).symm, (congrArg Prod.snd h).symm⟩

/-- The entries after a push. -/
theorem stackEntry_push {s t : State} {a : Word} (h : s.push a = some t) (k : Nat) :
    t.stackEntry k = if k = s.sp then a else s.stackEntry k := by
  obtain ⟨hsp, rfl⟩ := State.push_eq_some h
  simp only [State.stackEntry, Vector.toList_setIfInBounds, List.getD_eq_getElem?_getD, List.getElem?_set,
    Vector.length_toList]
  by_cases hk : k = s.sp
  · subst hk; simp [hsp]
  · simp [hk, Ne.symm hk]

end Sys2Proof.Machine
end

