-- ==== Sys2Proof/Laws/Ops.lean ====
section
/-! SUPPORT. One lemma per shared operation, saying once everything it can do: the operand and flag writes, the range
check, the fetch, the decode, one step, and each host transaction. -/

namespace Sys2Proof.Machine

/-! ### Skips and flag writes -/

/-- A skip touches `pc` alone. -/
theorem State.skipIf_eq (s : State) (c : Bool) : s.skipIf c = s.setPc (if c then s.pc + 2 else s.pc) := by
  cases c <;> rfl

/-- The register file after a result and its flag: the flag is what `V[0xF]` holds afterwards (R71). -/
theorem State.getV_setResultFlag (s : State) (x q : RegIx) (r : Byte × Bool) :
    (s.setResultFlag x r).getV q = if q = flagReg then boolByte r.2 else if q = x then r.1 else s.getV q := by
  simp only [State.setResultFlag, State.getV_setV]

/-- A result and its flag touch `V` alone. -/
theorem State.setResultFlag_eq (s : State) (x : RegIx) (r : Byte × Bool) :
    s.setResultFlag x r = { s with v := (s.setResultFlag x r).v } := rfl

/-- The register file after a logic operation (R75). -/
theorem State.getV_setLogic (s : State) (x q : RegIx) (b : Byte) :
    (s.setLogic x b).getV q =
      if q = flagReg ∧ s.params.cfg.logicQuirk = true then 0 else if q = x then b else s.getV q := by
  unfold State.setLogic
  split
  · rename_i hq; simp only [State.getV_setV, hq, and_true]
  · rename_i hq; simp [State.getV_setV, hq]

/-- A logic operation touches `V` alone. -/
theorem State.setLogic_eq (s : State) (x : RegIx) (b : Byte) : s.setLogic x b = { s with v := (s.setLogic x b).v } := by
  unfold State.setLogic; split <;> rfl

/-- A draw touches `FB`, `V[0xF]` and the vblank signal alone. -/
theorem State.draw_eq (s : State) (ps : List Pixel) :
    s.draw ps = { s with fb := (Framebuffer.xorAll ps s.fb).2, v := (s.draw ps).v,
                         vblankPending := s.params.cfg.vblankQuirk || s.vblankPending } := rfl

theorem State.getV_draw (s : State) (ps : List Pixel) (q : RegIx) :
    (s.draw ps).getV q = if q = flagReg then boolByte (Framebuffer.xorAll ps s.fb).1 else s.getV q := by
  simp only [State.draw, State.signalVblank_getV, State.getV_setV, State.setFb_getV]

/-! ### The range check -/

theorem outOfRange_iff (base len : Nat) : outOfRange base len = true ↔ 0 < len ∧ 0x1000 < base + len := by
  simp [outOfRange]

/-- Everything a range check can do: raise when a byte lies above 0xFFF, else go on. -/
theorem checkRange_cases (i : Instr) (s : State) (base len : Nat) (k : Result) :
    (0 < len ∧ 0x1000 < base + len ∧
        checkRange i s base len k =
          .next (s.enterFault .addressOutOfRange (some (encode i)) (some (max base 0x1000)))) ∨
      ((len = 0 ∨ base + len ≤ 0x1000) ∧ checkRange i s base len k = k) := by
  unfold checkRange
  split
  · rename_i h
    obtain ⟨h1, h2⟩ := (outOfRange_iff base len).mp h
    exact .inl ⟨h1, h2, rfl⟩
  · rename_i h
    rw [outOfRange_iff] at h
    exact .inr ⟨by omega, rfl⟩

theorem checkRange_inside (i : Instr) (s : State) {base len : Nat} (k : Result) (h : base + len ≤ 0x1000) :
    checkRange i s base len k = k := by
  rcases checkRange_cases i s base len k with ⟨-, h', -⟩ | ⟨-, h'⟩
  · omega
  · exact h'

theorem checkRange_outside (i : Instr) (s : State) {base len : Nat} (k : Result) (h0 : 0 < len)
    (h : 0x1000 < base + len) :
    checkRange i s base len k =
      .next (s.enterFault .addressOutOfRange (some (encode i)) (some (max base 0x1000))) := by
  rcases checkRange_cases i s base len k with ⟨-, -, h'⟩ | ⟨h', -⟩
  · exact h'
  · omega

/-! ### Fetch and decode -/

theorem State.fetch_inside (s : State) (h : s.pc.toNat ≤ 0xFFE) :
    s.fetch = .ok (wordOfBytes (s.readByte s.pc.toNat) (s.readByte (s.pc.toNat + 1))) := by
  unfold State.fetch; rw [if_neg (by omega)]

theorem State.fetch_outside (s : State) (h : 0xFFE < s.pc.toNat) : s.fetch = .error (max s.pc.toNat 0x1000) := by
  unfold State.fetch; rw [if_pos h]; rfl

/-- The decoder gives the row's instruction exactly when its gate is open (R53, R54). -/
theorem decode_eq_ok_iff (c : VariantConfig) (w : Word) (i : Instr) :
    decode c w = .ok i ↔ decodeWord w = some i ∧ i.wf c = true := by
  unfold decode Instr.wf
  cases decodeWord w with
  | none => simp
  | some j =>
    simp only [Option.some.injEq]
    constructor
    · intro e
      split at e
      · rename_i hg; injection e with e; subst e; simp [hg]
      · rename_i g hg
        split at e
        · injection e with e; subst e; simp_all
        · cases e
    · rintro ⟨rfl, h⟩
      split at h
      · rename_i hg; simp_all
      · rename_i g hg; simp_all

/-! ### One step -/

/-- A running unit without a fault. -/
def State.active (s : State) : Prop := s.fault = none ∧ s.execState = .running

theorem step_of_active {s : State} (hp : s.params.wf = true) (ha : s.active) :
    step s = cycle { s with loadOpen := false } := by
  unfold step stepUnit
  rw [if_pos hp, ha.1, ha.2]

/-- A faulted, halted or waiting unit changes no state (R52). -/
theorem step_of_not_active {s : State} (hp : s.params.wf = true) (ha : ¬ s.active) : step s = .next s := by
  unfold step stepUnit
  rw [if_pos hp]
  split
  · rename_i h1 h2; exact absurd ⟨h1, h2⟩ ha
  · rfl

/-- Everything a step can do: nothing, a fault of the fetch, a fault of the decode, or the execution of one instruction
of the dialect. -/
theorem step_cases {s t : State} (h : step s = .next t) :
    s.params.wf = true ∧
      ((¬ s.active ∧ t = s) ∨
        (s.active ∧ 0xFFE < s.pc.toNat ∧
          t = State.enterFault { s with loadOpen := false } .addressOutOfRange none (some (max s.pc.toNat 0x1000))) ∨
        (s.active ∧ s.pc.toNat ≤ 0xFFE ∧ ∃ w, s.fetch = .ok w ∧
          (((∃ r, decode s.params.cfg w = .error r) ∧
              t = State.enterFault { s with loadOpen := false } .illegalInstruction (some w) none) ∨
            ∃ i, decode s.params.cfg w = .ok i ∧ exec i { s with loadOpen := false } = .next t))) := by
  have hp : s.params.wf = true := by
    unfold step at h
    split at h
    · assumption
    · cases h
  refine ⟨hp, ?_⟩
  by_cases ha : s.active
  · rw [step_of_active hp ha] at h
    unfold cycle at h
    have hf : State.fetch { s with loadOpen := false } = s.fetch := rfl
    rw [hf] at h
    by_cases hpc : s.pc.toNat ≤ 0xFFE
    · refine .inr (.inr ⟨ha, hpc, ?_⟩)
      rw [State.fetch_inside s hpc] at h ⊢
      refine ⟨_, rfl, ?_⟩
      simp only [runWord] at h
      split at h
      · rename_i i hi; exact .inr ⟨i, hi, h⟩
      · rename_i r hr
        refine .inl ⟨⟨r, hr⟩, ?_⟩
        simpa [raise] using h.symm
    · rw [State.fetch_outside s (by omega)] at h
      refine .inr (.inl ⟨ha, by omega, ?_⟩)
      simpa [raise] using h.symm
  · rw [step_of_not_active hp ha] at h
    exact .inl ⟨ha, by simpa using h.symm⟩

/-! ### The host's transactions -/

theorem pressKey_next {k : Nat} {s t : State} (h : pressKey k s = .next t) :
    k ≤ 15 ∧ t = { s with keys := s.keys ||| keyBit k } := by
  unfold pressKey at h
  split at h
  · exact ⟨‹_›, by simpa using h.symm⟩
  · cases h

theorem releaseKey_next {k : Nat} {s t : State} (h : releaseKey k s = .next t) :
    k ≤ 15 ∧ t = State.resolveWait { s with keys := s.keys &&& ~~~(keyBit k) } k := by
  unfold releaseKey at h
  split at h
  · exact ⟨‹_›, by simpa using h.symm⟩
  · cases h

/-- A release ends a wait of a unit without a fault, or changes nothing more. -/
theorem State.resolveWait_cases (s : State) (k : Nat) :
    (∃ r, s.fault = none ∧ s.execState = .waitingForKey r ∧
        s.resolveWait k = { s.setV r (BitVec.ofNat 8 k) with execState := .running }) ∨
      ((s.fault ≠ none ∨ ∀ r, s.execState ≠ .waitingForKey r) ∧ s.resolveWait k = s) := by
  unfold State.resolveWait
  split
  · rename_i r h1 h2; exact .inl ⟨r, h1, h2, rfl⟩
  · rename_i hno
    refine .inr ⟨?_, rfl⟩
    by_cases hf : s.fault = none
    · exact .inr fun r hr => hno r hf hr
    · exact .inl hf

theorem loadRom_next {bytes : List Byte} {s t : State} (h : loadRom bytes s = .next t) :
    s.loadOpen = true ∧ romFits bytes s = true ∧
      t = { s.writeBytes s.params.cfg.pcStart.toNat bytes with loadOpen := false } := by
  unfold loadRom at h
  split at h
  · rename_i hc
    rw [Bool.and_eq_true] at hc
    exact ⟨hc.1, hc.2, by simpa using h.symm⟩
  · cases h

theorem romFits_iff (bytes : List Byte) (s : State) :
    romFits bytes s = true ↔ bytes.length ≤ 4096 - s.params.cfg.pcStart.toNat := by
  simp only [romFits, decide_eq_true_eq]

/-- Everything a load can do: write the bytes and close the window, or fail. -/
theorem loadRom_cases (bytes : List Byte) (s : State) :
    (s.loadOpen = true ∧ romFits bytes s = true ∧
        loadRom bytes s = .next { s.writeBytes s.params.cfg.pcStart.toNat bytes with loadOpen := false }) ∨
      ((s.loadOpen = false ∨ romFits bytes s = false) ∧ loadRom bytes s = .fault .romLoadError) := by
  unfold loadRom
  cases ho : s.loadOpen <;> cases hf : romFits bytes s <;> simp

/-! ### Sequences -/

theorem after_of_next {tr : Transaction} {s t : State} (h : perform tr s = .next t) : after tr s = t := by
  unfold after; rw [h]

/-- What makes a transaction fail changes nothing (R118, R120, R121). -/
theorem after_cases (tr : Transaction) (s : State) : perform tr s = .next (after tr s) ∨ after tr s = s := by
  unfold after
  split
  · rename_i t h; exact .inl h
  · exact .inr rfl
  · exact .inr rfl

theorem afterAll_append (trs us : List Transaction) (s : State) :
    afterAll (trs ++ us) s = afterAll us (afterAll trs s) := by
  induction trs generalizing s with
  | nil => rfl
  | cons tr trs ih => exact ih (after tr s)

/-- Queries leave no trace in the state, so no program can observe them (R127, R132): what the host's calls do is what their
transactions do. -/
theorem afterCalls_eq_afterAll (cs : List HostCall) (s : State) :
    afterCalls cs s = afterAll (cs.filterMap HostCall.transaction) s := by
  induction cs generalizing s with
  | nil => rfl
  | cons c cs ih => cases c <;> exact ih _

/-- Single-stepping is one step, whatever is asked after it (R132). -/
theorem singleStep_state (qs : List Query) (s : State) : (singleStep qs s).1 = after .step s := by
  have h : qs.filterMap (HostCall.transaction ∘ .query) = [] := List.filterMap_eq_nil_iff.mpr fun _ _ => rfl
  simp only [singleStep, singleStepCalls, afterCalls_eq_afterAll, List.filterMap_cons, HostCall.transaction,
    List.filterMap_map, h, afterAll]

end Sys2Proof.Machine
end

