-- ==== Sys2Proof/Laws/WellFormed.lean ====
section
/-! SUPPORT. What a well-formed parameter set says: where the fonts lie, and that every resolution scales exactly to the
maximum. -/

namespace Sys2Proof

/-- R36 as arithmetic: the font tables are disjoint and end at or below `pc_start`, inside memory. -/
theorem Params.fonts_of_wf {p : Params} (h : p.wf = true) :
    p.smallFontBase + 80 ≤ p.cfg.pcStart.toNat ∧ p.bigFontBase + 16 * p.bigGlyphBytes ≤ p.cfg.pcStart.toNat ∧
      p.cfg.pcStart.toNat < 0x1000 ∧
      (p.smallFontBase + 80 ≤ p.bigFontBase ∨ p.bigFontBase + 16 * p.bigGlyphBytes ≤ p.smallFontBase) := by
  unfold Params.wf at h
  rw [Bool.and_eq_true, Bool.and_eq_true] at h
  have hf := h.1.2
  unfold Params.fontsPlaced Params.smallFontEnd Params.bigFontEnd at hf
  simp only [Bool.and_eq_true, Bool.or_eq_true, decide_eq_true_iff] at hf
  exact ⟨hf.1.2, hf.2, p.cfg.pcStart.isLt, hf.1.1.2⟩

/-- R6: the tables have their lengths. -/
theorem Params.fontSizes_of_wf {p : Params} (h : p.wf = true) :
    p.fontSmall.length = 80 ∧ ∀ big, p.fontBig = some big → big.length = 16 * p.bigGlyphBytes := by
  unfold Params.wf at h
  rw [Bool.and_eq_true] at h
  have hs := h.2
  unfold Params.fontsSized at hs
  rw [Bool.and_eq_true] at hs
  refine ⟨of_decide_eq_true hs.1, fun big hb => ?_⟩
  have h2 := hs.2
  rw [hb] at h2
  exact of_decide_eq_true h2

/-- R5: the configuration of a well-formed parameter set is well formed. -/
theorem Params.cfg_of_wf {p : Params} (h : p.wf = true) : p.cfg.wf = true := by
  unfold Params.wf at h
  rw [Bool.and_eq_true, Bool.and_eq_true] at h
  exact h.1.1

/-- R5: some resolution is configured. -/
theorem VariantConfig.resolutions_ne_nil {c : VariantConfig} (h : c.wf = true) : c.resolutions ≠ [] := by
  unfold VariantConfig.wf at h
  rw [Bool.and_eq_true, Bool.and_eq_true, Bool.and_eq_true, Bool.and_eq_true] at h
  intro he
  simp [he] at h

/-- R5: an entry is positive and divides the maximum exactly on each axis. -/
theorem VariantConfig.scales_of_wf {c : VariantConfig} (h : c.wf = true) {r : Resolution} (hr : r ∈ c.resolutions) :
    0 < r.width ∧ 0 < r.height ∧ r.width ∣ c.maxRes.width ∧ r.height ∣ c.maxRes.height := by
  unfold VariantConfig.wf at h
  rw [Bool.and_eq_true, Bool.and_eq_true, Bool.and_eq_true, Bool.and_eq_true] at h
  have hs := List.all_eq_true.mp h.1.1.2 r hr
  unfold Resolution.scalesTo at hs
  rw [Bool.and_eq_true, Bool.and_eq_true, Bool.and_eq_true] at hs
  exact ⟨of_decide_eq_true hs.1.1.1, of_decide_eq_true hs.1.1.2,
    Nat.dvd_of_mod_eq_zero (of_decide_eq_true hs.1.2), Nat.dvd_of_mod_eq_zero (of_decide_eq_true hs.2)⟩

theorem VariantConfig.baseRes_mem {c : VariantConfig} (h : c.wf = true) : c.baseRes ∈ c.resolutions := by
  unfold VariantConfig.baseRes
  have hne := VariantConfig.resolutions_ne_nil h
  cases hr : c.resolutions with
  | nil => exact absurd hr hne
  | cons a as => simp

theorem VariantConfig.maxRes_mem {c : VariantConfig} (h : c.wf = true) : c.maxRes ∈ c.resolutions := by
  unfold VariantConfig.maxRes
  rw [List.getLastD_eq_getLast?, List.getLast?_eq_some_getLast (VariantConfig.resolutions_ne_nil h)]
  exact List.getLast_mem _

namespace Machine

/-- The current resolution is one of the configured ones (R25). -/
theorem State.Inv.res_mem {s : State} (h : s.Inv) : s.currRes ∈ s.params.cfg.resolutions := by
  have hc := Params.cfg_of_wf h.params_wf
  rcases h.res_known with hr | hr <;> rw [hr]
  · exact VariantConfig.baseRes_mem hc
  · exact VariantConfig.maxRes_mem hc

/-- The scale factors are exact and positive (R25): `H · sy = Hmax`, `W · sx = Wmax`. -/
theorem State.Inv.scales {s : State} (h : s.Inv) :
    0 < s.currRes.width ∧ 0 < s.currRes.height ∧ s.currRes.width * s.scaleX = s.params.cfg.maxRes.width ∧
      s.currRes.height * s.scaleY = s.params.cfg.maxRes.height := by
  obtain ⟨hw, hh, hdw, hdh⟩ := VariantConfig.scales_of_wf (Params.cfg_of_wf h.params_wf) h.res_mem
  exact ⟨hw, hh, Nat.mul_div_cancel' hdw, Nat.mul_div_cancel' hdh⟩

end Machine

end Sys2Proof
end

