-- ==== Sys2Proof/Laws/Sprites.lean ====
section
/-! SUPPORT. Sprites: which backing pixels a draw XORs in, each of them once, and that a framebuffer is its pixels. -/

namespace Sys2Proof.Machine

/-- A logical pixel covers the backing pixels whose quotients by the scales are its coordinates (R95). -/
theorem State.mem_backingBlock (s : State) (lx ly r c : Nat) (hx : 0 < s.scaleX) (hy : 0 < s.scaleY) :
    (r, c) ∈ s.backingBlock lx ly ↔ s.onGrid r c ∧ r / s.scaleY = ly ∧ c / s.scaleX = lx := by
  simp only [State.backingBlock, List.mem_flatMap, List.mem_filterMap, List.mem_range, State.onGrid]
  constructor
  · rintro ⟨dy, hdy, dx, hdx, h⟩
    split at h
    · rename_i hg
      simp only [Option.some.injEq, Prod.mk.injEq] at h
      obtain ⟨rfl, rfl⟩ := h
      refine ⟨hg, ?_, ?_⟩
      · rw [Nat.mul_comm, Nat.mul_add_div hy, Nat.div_eq_of_lt hdy, Nat.add_zero]
      · rw [Nat.mul_comm, Nat.mul_add_div hx, Nat.div_eq_of_lt hdx, Nat.add_zero]
    · cases h
  · rintro ⟨hg, rfl, rfl⟩
    refine ⟨r % s.scaleY, Nat.mod_lt _ hy, c % s.scaleX, Nat.mod_lt _ hx, ?_⟩
    have h1 : r / s.scaleY * s.scaleY + r % s.scaleY = r := Nat.div_add_mod' _ _
    have h2 : c / s.scaleX * s.scaleX + c % s.scaleX = c := Nat.div_add_mod' _ _
    rw [h1, h2, if_pos hg]

/-- A draw XORs in the pixels of the grid that a 1-bit of the sprite covers (R98). -/
theorem State.mem_spritePixels (s : State) (x y n) (r c : Nat) (hx : 0 < s.scaleX) (hy : 0 < s.scaleY) :
    (r, c) ∈ s.spritePixels x y n ↔ s.onGrid r c ∧ s.spriteCovers x y n r c = true := by
  simp only [State.spritePixels, List.mem_flatMap, List.mem_range, State.spriteCovers, Bool.and_eq_true, decide_eq_true_eq]
  constructor
  · rintro ⟨r', hr', c', hc', h⟩
    split at h
    · rename_i hb
      rw [State.mem_backingBlock s _ _ _ _ hx hy] at h
      obtain ⟨hg, h1, h2⟩ := h
      refine ⟨hg, ⟨⟨⟨by omega, by omega⟩, by omega⟩, by omega⟩, ?_⟩
      rw [h1, h2, Nat.add_sub_cancel_left, Nat.add_sub_cancel_left]; exact hb
    · cases h
  · rintro ⟨hg, ⟨⟨⟨h1, h2⟩, h3⟩, h4⟩, hb⟩
    refine ⟨_, h2, _, h4, ?_⟩
    rw [if_pos hb, State.mem_backingBlock s _ _ _ _ hx hy]
    exact ⟨hg, by omega, by omega⟩

/-- A block lists no backing pixel twice. -/
theorem State.nodup_backingBlock (s : State) (lx ly : Nat)  :
    (s.backingBlock lx ly).Nodup := by
  unfold State.backingBlock
  rw [List.nodup_flatMap]
  constructor
  · intro dy _
    refine List.Nodup.filterMap ?_ List.nodup_range
    intro a a' b h1 h2
    simp only [Option.mem_def] at h1 h2
    split at h1
    · split at h2
      · simp only [Option.some.injEq] at h1 h2
        have := h1.trans h2.symm
        simp only [Prod.mk.injEq] at this; omega
      · cases h2
    · cases h1
  · refine List.nodup_range.imp ?_
    intro a a' hne b h1 h2
    simp only [List.mem_filterMap] at h1 h2
    obtain ⟨d1, -, h1⟩ := h1
    obtain ⟨d2, -, h2⟩ := h2
    split at h1
    · split at h2
      · simp only [Option.some.injEq] at h1 h2
        have := h1.trans h2.symm
        simp only [Prod.mk.injEq] at this; omega
      · cases h2
    · cases h1

/-- A sprite lists no backing pixel twice, so that the order of R98's loops does not matter. -/
theorem State.nodup_spritePixels (s : State) (x y n) (hx : 0 < s.scaleX) (hy : 0 < s.scaleY) : (s.spritePixels x y n).Nodup := by
  unfold State.spritePixels
  rw [List.nodup_flatMap]
  constructor
  · intro r _
    rw [List.nodup_flatMap]
    constructor
    · intro c _; split
      · exact State.nodup_backingBlock ..
      · exact List.nodup_nil
    · refine List.nodup_range.imp ?_
      rintro a a' hne ⟨p, q⟩ h1 h2
      dsimp only at h1 h2
      split at h1
      · split at h2
        · rw [State.mem_backingBlock _ _ _ _ _ hx hy] at h1 h2; omega
        · cases h2
      · cases h1
  · refine List.nodup_range.imp ?_
    rintro a a' hne ⟨p, q⟩ h1 h2
    rw [List.mem_flatMap] at h1 h2
    obtain ⟨c1, -, h1⟩ := h1
    obtain ⟨c2, -, h2⟩ := h2
    split at h1
    · split at h2
      · rw [State.mem_backingBlock _ _ _ _ _ hx hy] at h1 h2; omega
      · cases h2
    · cases h1

/-- The scales are positive (R25). -/
theorem State.scale_pos {s : State} (h : s.params.wf = true) (hr : s.currRes ∈ s.params.cfg.resolutions) : 0 < s.scaleX ∧ 0 < s.scaleY := by
  have hc := Params.cfg_of_wf h
  obtain ⟨h1, h2, h3, h4⟩ := VariantConfig.scales_of_wf hc hr
  obtain ⟨g1, g2, -, -⟩ := VariantConfig.scales_of_wf hc (VariantConfig.maxRes_mem hc)
  exact ⟨Nat.div_pos (Nat.le_of_dvd g1 h3) h1, Nat.div_pos (Nat.le_of_dvd g2 h4) h2⟩

/-- A sprite in memory passes the range check (R98). -/
theorem checkRange_spriteInMemory (i : Instr) (s : State) (n) (k : Result) (h : s.spriteInMemory n) : checkRange i s s.i.toNat (s.spriteShape n).bytes k = k := by
  rcases checkRange_cases i s s.i.toNat (s.spriteShape n).bytes k with ⟨a, b, -⟩ | ⟨-, h'⟩
  · unfold State.spriteInMemory at h; omega
  · exact h'

/-- Two canonical framebuffers with the same true cells are the same list (log 13). -/
theorem Framebuffer.ext_of_mem {h w : Nat} : ∀ (a b : Framebuffer) (lo : Pixel), Framebuffer.wfFrom h w lo a = true →
    Framebuffer.wfFrom h w lo b = true → (∀ p, p ∈ a ↔ p ∈ b) → a = b := by
  intro a
  induction a with
  | nil => intro b lo _ hb he; cases b with
    | nil => rfl
    | cons p ps => have := (he p).mpr (by simp); cases this
  | cons p ps ih =>
    intro b lo ha hb he
    cases b with
    | nil => have := (he p).mp (by simp); cases this
    | cons q qs =>
      obtain ⟨-, -, -, ha'⟩ := Framebuffer.wfFrom_cons.mp ha
      obtain ⟨-, -, -, hb'⟩ := Framebuffer.wfFrom_cons.mp hb
      have na : ∀ x ∈ ps, ¬ (x.1 < p.1 ∨ (x.1 = p.1 ∧ x.2 < p.2 + 1)) := fun x hx => by
        have := (Framebuffer.wfFrom_mem ha' hx).1; rw [Bool.eq_false_iff] at this; simpa only [ne_eq, Pixel.before_iff] using this
      have nb : ∀ x ∈ qs, ¬ (x.1 < q.1 ∨ (x.1 = q.1 ∧ x.2 < q.2 + 1)) := fun x hx => by
        have := (Framebuffer.wfFrom_mem hb' hx).1; rw [Bool.eq_false_iff] at this; simpa only [ne_eq, Pixel.before_iff] using this
      have hpq : p = q := by
        rcases List.mem_cons.mp ((he p).mp (by simp)) with h | h
        · exact h
        · rcases List.mem_cons.mp ((he q).mpr (by simp)) with h' | h'
          · exact h'.symm
          · have := nb _ h; have := na _ h'; omega
      subst hpq
      congr 1
      refine ih qs _ ha' hb' fun x => ?_
      have := he x
      simp only [List.mem_cons] at this
      by_cases hx : x = p
      · subst hx
        constructor
        · intro h; have := na _ h; omega
        · intro h; have := nb _ h; omega
      · simpa [hx] using this

end Sys2Proof.Machine
end

