-- ==== Sys2Proof/Tests/Slice0.lean ====
section
/-! SUPPORT. Tests of the model, their expected results taken from spec/95_test_vectors.md (named by its row numbers) or
worked out by hand from the rules, and the witnesses of the obligations' hypotheses. -/

namespace Sys2Proof.Tests

open Sys2Proof Sys2Proof.Machine

/-! ### Configurations and one step (95_test_vectors.md section 0) -/

/-- `T0`: the base dialect of the vectors. -/
def cfgT0 : VariantConfig :=
  { sessionConfig with
    hiresEnabled := false
    scrollingEnabled := false
    flagRegistersEnabled := false
    dxy0LoresWidth := none
    resolutions := [⟨64, 32⟩] }

/-- The vectors' parameters with a dialect. -/
def paramsOf (c : VariantConfig) : Params := { sessionParams with cfg := c }

/-- The reset state of a dialect, with the registers a vector names. -/
def start (c : VariantConfig) (setup : State → State) : State := setup (State.init (paramsOf c))

/-- The vector's start state with its instruction word at `pc`. -/
def prog (c : VariantConfig) (setup : State → State) (w : Word) : State :=
  (start c setup).writeWord (start c setup).pc.toNat w

/-- The state a call answers, if it answers one. -/
def nextOf : Result → Option State
  | .next t => some t
  | .fault _ => none
  | .refused _ => none

/-- One step of a vector, and what is observed of the state after it. -/
def observe {α : Type} (c : VariantConfig) (setup : State → State) (w : Word) (see : State → α) : Option α :=
  (nextOf (step (prog c setup w))).map see

/-- The record of a faulting step, in the order of the vectors' tables. -/
def record (cause : FaultCause) (pc : Word) (op : Option Word) (addr : Option Nat) : Option (Option FaultRecord) :=
  some (some ⟨cause, pc, op, addr⟩)

/-! ### Well-formedness: one ill-formed term for each check, refused (00_scope.md R5, 20_memory.md R36, R6) -/

theorem test_wf_session : sessionParams.wf = true ∧ (paramsOf cfgT0).wf = true := by decide

theorem test_wf_no_resolution : ({ cfgT0 with resolutions := [] } : VariantConfig).wf = false := by decide

theorem test_wf_descending : ({ cfgT0 with resolutions := [⟨128, 64⟩, ⟨64, 64⟩] } : VariantConfig).wf = false := by decide

theorem test_wf_height_shrinks : resolutionsAscend [⟨64, 64⟩, ⟨128, 32⟩] = false := by decide

theorem test_wf_repeated : resolutionsAscend [⟨64, 32⟩, ⟨64, 32⟩] = false := by decide

theorem test_wf_zero_width : ({ cfgT0 with resolutions := [⟨0, 32⟩, ⟨128, 64⟩] } : VariantConfig).wf = false := by decide

theorem test_wf_zero_height : Resolution.scalesTo ⟨128, 64⟩ ⟨64, 0⟩ = false := by decide

theorem test_wf_width_not_a_divisor :
    ({ cfgT0 with resolutions := [⟨48, 32⟩, ⟨128, 64⟩] } : VariantConfig).wf = false := by decide

theorem test_wf_height_not_a_divisor :
    ({ cfgT0 with resolutions := [⟨64, 48⟩, ⟨128, 64⟩] } : VariantConfig).wf = false := by decide

theorem test_wf_too_wide : ({ cfgT0 with resolutions := [⟨512, 256⟩] } : VariantConfig).wf = false := by decide

theorem test_wf_too_high : ({ cfgT0 with resolutions := [⟨256, 512⟩] } : VariantConfig).wf = false := by decide

theorem test_wf_largest : ({ cfgT0 with resolutions := [⟨256, 256⟩] } : VariantConfig).wf = true := by decide

theorem test_wf_small_font_above_start : ({ sessionParams with smallFontBase := 0x1B1 } : Params).wf = false := by decide

theorem test_wf_big_font_above_start : ({ sessionParams with bigFontBase := 0x161 } : Params).wf = false := by decide

theorem test_wf_font_outside_memory :
    Params.fontsPlaced { sessionParams with smallFontBase := 0xFB1 } = false ∧
      Params.fontsPlaced { sessionParams with bigFontBase := 0xF61 } = false := by decide

theorem test_wf_fonts_overlap : ({ sessionParams with bigFontBase := 0x09F } : Params).wf = false := by decide

theorem test_wf_small_font_size : ({ sessionParams with fontSmall := [0xF0] } : Params).wf = false := by decide

theorem test_wf_big_font_size : ({ sessionParams with fontBig := some [0xFF] } : Params).wf = false := by decide

theorem test_wf_gates :
    Instr.wf cfgT0 (.ldRVx 0) = false ∧ Instr.wf cfgT0 .scr = false ∧ Instr.wf cfgT0 .high = false ∧
      Instr.wf sessionConfig (.ldRVx 0) = true ∧ Instr.wf sessionConfig .scr = true ∧
      Instr.wf sessionConfig .high = true ∧ Instr.wf cfgT0 (.drw 0 0 0) = true := by decide

/-! ### Decoding: every constructor's word, written out from the encodings of 30_encoding.md R50 and R53 -/

theorem test_decode_words_0 :
    decodeWord 0x00E0 = some .cls ∧ decodeWord 0x00EE = some .ret ∧ decodeWord 0x00C0 = some (.scd 0) ∧
      decodeWord 0x00CF = some (.scd 15) ∧ decodeWord 0x00FB = some .scr ∧ decodeWord 0x00FC = some .scl ∧
      decodeWord 0x00FD = some .exit ∧ decodeWord 0x00FE = some .low ∧ decodeWord 0x00FF = some .high := by decide

theorem test_decode_words_address :
    decodeWord 0x1ABC = some (.jp 0xABC) ∧ decodeWord 0x2300 = some (.call 0x300) ∧
      decodeWord 0xA2F0 = some (.ldI 0x2F0) ∧ decodeWord 0xBFFF = some (.jpV0 0xFFF) := by decide

theorem test_decode_words_immediate :
    decodeWord 0x3A07 = some (.seImm 0xA 0x07) ∧ decodeWord 0x4A07 = some (.sneImm 0xA 0x07) ∧
      decodeWord 0x6A42 = some (.ldImm 0xA 0x42) ∧ decodeWord 0x7F03 = some (.addImm 0xF 0x03) ∧
      decodeWord 0xC30F = some (.rnd 3 0x0F) := by decide

theorem test_decode_words_skip_register :
    decodeWord 0x5120 = some (.seReg 1 2) ∧ decodeWord 0x9120 = some (.sneReg 1 2) := by decide

theorem test_decode_words_8 :
    decodeWord 0x8120 = some (.ldReg 1 2) ∧ decodeWord 0x8121 = some (.orReg 1 2) ∧
      decodeWord 0x8122 = some (.andReg 1 2) ∧ decodeWord 0x8123 = some (.xorReg 1 2) ∧
      decodeWord 0x8124 = some (.addReg 1 2) ∧ decodeWord 0x8125 = some (.subReg 1 2) ∧
      decodeWord 0x8126 = some (.shrReg 1 2) ∧ decodeWord 0x8127 = some (.subnReg 1 2) ∧
      decodeWord 0x812E = some (.shlReg 1 2) := by decide

theorem test_decode_words_draw_and_keys :
    decodeWord 0xD125 = some (.drw 1 2 5) ∧ decodeWord 0xD1F0 = some (.drw 1 15 0) ∧
      decodeWord 0xE39E = some (.skp 3) ∧ decodeWord 0xE3A1 = some (.sknp 3) := by decide

theorem test_decode_words_F :
    decodeWord 0xF207 = some (.ldVxDT 2) ∧ decodeWord 0xF50A = some (.ldVxK 5) ∧ decodeWord 0xF215 = some (.ldDTVx 2) ∧
      decodeWord 0xF218 = some (.ldSTVx 2) ∧ decodeWord 0xF21E = some (.addI 2) ∧ decodeWord 0xF329 = some (.ldF 3) ∧
      decodeWord 0xF430 = some (.ldHF 4) ∧ decodeWord 0xFA33 = some (.ldB 0xA) ∧
      decodeWord 0xFF55 = some (.ldMemVx 15) ∧ decodeWord 0xF265 = some (.ldVxMem 2) ∧
      decodeWord 0xF175 = some (.ldRVx 1) ∧ decodeWord 0xF185 = some (.ldVxR 1) := by decide

theorem test_encode_words :
    encode (.scd 3) = 0x00C3 ∧ encode (.jp 0xABC) = 0x1ABC ∧ encode (.addImm 3 1) = 0x7301 ∧
      encode (.shlReg 1 2) = 0x812E ∧ encode (.drw 1 2 5) = 0xD125 ∧ encode (.ldMemVx 15) = 0xFF55 := by decide

/-- Rejected by name: the illegal words of FD4 to FD10 and FD19, and the gated ones of FD11 to FD15. -/
theorem test_decode_rejects :
    [0x0000, 0x0123, 0x812F, 0x5121, 0x9121, 0xE19F, 0xF000, 0x00D1].all
        (fun n => decide (decode sessionConfig (BitVec.ofNat 16 n) = .error .unmapped)) = true ∧
      decode cfgT0 0x00FF = .error (.gated .hires) ∧ decode cfgT0 0x00FB = .error (.gated .scrolling) ∧
      decode cfgT0 0x00C3 = .error (.gated .scrolling) ∧ decode cfgT0 0xF075 = .error (.gated .flags) ∧
      decode cfgT0 0xF130 = .error (.gated .hires) := by decide

theorem test_decode_bytes :
    decodeBytes cfgT0 [0xD1, 0x25, 0xAA] = .ok (.drw 1 2 5, [0xAA]) ∧ decodeBytes cfgT0 [0xD1] = .error .tooShort ∧
      decodeBytes cfgT0 [] = .error .tooShort := by decide

theorem test_decode_table_word :
    decodeTableWord 16 0xD125 = some (.drw 1 2 5) ∧ decodeTableWord 16 0x5121 = none := by decide

theorem test_fetch_word_runs :
    (nextOf (step (State.reset.withFetchWord 16 0x6A42))).map (·.getV 0xA) = some 0x42 := by decide

/-! ### Fetch, decode and faults (95_test_vectors.md 2.1) -/

/-- FD1 and FD2: a fetch above 0xFFE. -/
theorem test_fetch_faults :
    (nextOf (step (start cfgT0 (·.setPc 0xFFF)))).map (·.fault) = record .addressOutOfRange 0xFFF none (some 0x1000) ∧
      (nextOf (step (start cfgT0 (·.setPc 0x1000)))).map (·.fault) =
        record .addressOutOfRange 0x1000 none (some 0x1000) := by decide

/-- FD3: a fetch at 0xFFE is legal. -/
theorem test_fetch_last : observe cfgT0 (·.setPc 0xFFE) 0x1200 (fun t => (t.pc, t.fault)) = some (0x200, none) := by
  decide

/-- FD4 and FD11: an unmapped word and a gated one. -/
theorem test_illegal_words :
    observe cfgT0 id 0x0000 (·.fault) = record .illegalInstruction 0x200 (some 0x0000) none ∧
      observe cfgT0 id 0x00FF (fun t => (t.fault, t.pc)) =
        some (some ⟨.illegalInstruction, 0x200, some 0x00FF, none⟩, 0x200) := by decide

/-- FD17: a faulted unit changes nothing more; FD18: its timers count on. -/
theorem test_fault_is_sticky :
    ((nextOf (step (prog cfgT0 (·.setDt 3) 0x0000))).bind fun t =>
        (nextOf (step t)).map fun u => decide (u = t ∧ (decrementOnce u).dt = 2)) = some true := by decide

/-- The results of FD4, of the step after it, and of an executed step (60_exceptions.md R126). -/
theorem test_step_results :
    (nextOf (step (prog cfgT0 id 0x0000))).map (fun t => (stepResult (prog cfgT0 id 0x0000) t, stepResult t t)) =
        some (.faulted .illegalInstruction, .faulted .illegalInstruction) ∧
      (nextOf (step (prog cfgT0 id 0x1ABC))).map (stepResult (prog cfgT0 id 0x1ABC)) = some .executed := by decide

theorem test_ill_formed_params_refused :
    step (State.init (paramsOf { cfgT0 with resolutions := [] })) = .refused .illFormedParams :=
  rfl

/-! ### Control flow (2.2) -/

/-- A stack with one return address. -/
def oneReturn (s : State) : State := { s with sp := 1, stack := s.stack.set 0 0x204, pc := 0x300 }

/-- A full stack. -/
def fullStack (s : State) : State := { s with sp := 16, stack := Vector.replicate 16 0x202 }

/-- CF1. -/
theorem test_ret_underflow :
    observe cfgT0 id 0x00EE (fun t => (t.fault, t.sp, t.pc)) =
      some (some ⟨.stackUnderflow, 0x200, some 0x00EE, none⟩, 0, 0x200) := by decide

/-- CF2: the entry is not cleared. -/
theorem test_ret :
    observe cfgT0 oneReturn 0x00EE (fun t => (t.sp, t.pc, t.stackEntry 0)) = some (0, 0x204, 0x204) := by decide

/-- CF3 and CF5. -/
theorem test_call :
    observe cfgT0 id 0x2300 (fun t => (t.stackEntry 0, t.sp, t.pc)) = some (0x202, 1, 0x300) ∧
      observe cfgT0 (·.setPc 0xFFE) 0x2300 (fun t => (t.stackEntry 0, t.pc)) = some (0x1000, 0x300) := by decide

/-- CF4. -/
theorem test_call_overflow :
    observe cfgT0 fullStack 0x2300 (fun t => (t.fault, t.sp)) =
      some (some ⟨.stackOverflow, 0x200, some 0x2300, none⟩, 16) := by decide

/-- CF6 and CF23. -/
theorem test_jp :
    observe cfgT0 id 0x1ABC (·.pc) = some 0xABC ∧ observe cfgT0 id 0x1201 (·.pc) = some 0x201 := by decide

/-- CF10 and CF12: not masked, and V0 without the quirk. -/
theorem test_jp_v0 :
    observe cfgT0 (·.setV 0 0xFF) 0xBFFF (·.pc) = some 0x10FE ∧
      observe cfgT0 (fun s => (s.setV 2 0x05).setV 0 0x10) 0xB210 (·.pc) = some 0x220 := by decide

/-- CF11. -/
theorem test_jp_v0_quirk :
    observe ({ cfgT0 with jumpQuirk := true }) (fun s => (s.setV 2 0x05).setV 0 0x10) 0xB210 (·.pc) = some 0x215 := by
  decide

/-- CF14 and CF15. -/
theorem test_se_imm :
    observe cfgT0 (·.setV 0xA 0x07) 0x3A07 (·.pc) = some 0x204 ∧
      observe cfgT0 (·.setV 0xA 0x08) 0x3A07 (·.pc) = some 0x202 := by decide

/-- CF16. -/
theorem test_sne_imm : observe cfgT0 (·.setV 0xA 0x08) 0x4A07 (·.pc) = some 0x204 := by decide

/-- CF17, and unequal registers. -/
theorem test_se_reg :
    observe cfgT0 (fun s => (s.setV 1 0x33).setV 2 0x33) 0x5120 (·.pc) = some 0x204 ∧
      observe cfgT0 (·.setV 1 0x33) 0x5120 (·.pc) = some 0x202 := by decide

/-- CF19 and CF20. -/
theorem test_sne_reg :
    observe cfgT0 (fun s => (s.setV 1 0x01).setV 2 0x02) 0x9120 (·.pc) = some 0x204 ∧
      observe cfgT0 id 0x9110 (·.pc) = some 0x202 := by decide

/-! ### Registers and arithmetic (2.3) -/

/-- `V[1]`, `V[2]` and `V[0xF]` before an arithmetic vector. -/
def ops (v1 v2 vf : Byte) (s : State) : State := ((s.setV 1 v1).setV 2 v2).setV 15 vf

/-- `V[1]` and `V[0xF]` after it. -/
def v1f (t : State) : Byte × Byte := (t.getV 1, t.getV 15)

/-- AL1 and AL2. -/
theorem test_ld_imm :
    observe cfgT0 id 0x6A42 (fun t => (t.getV 0xA, t.pc)) = some (0x42, 0x202) ∧
      observe cfgT0 (·.setV 15 1) 0x6F00 (·.getV 15) = some 0 := by decide

/-- AL3 and AL4. -/
theorem test_add_imm :
    observe cfgT0 (·.setV 0xA 0xFF) 0x7A01 (fun t => (t.getV 0xA, t.getV 15)) = some (0, 0) ∧
      observe cfgT0 (·.setV 15 0xFE) 0x7F03 (·.getV 15) = some 0x01 := by decide

/-- S1 with `VF = 1`: no flag changes. -/
theorem test_add_imm_keeps_flag :
    observe cfgT0 (fun s => (s.setV 3 0xFF).setV 15 1) 0x7301 (fun t => (t.getV 3, t.getV 15)) = some (0, 1) := by decide

/-- AL5. -/
theorem test_ld_reg : observe cfgT0 (ops 0 0x5A 0) 0x8120 v1f = some (0x5A, 0) := by decide

/-- AL6 and AL7. -/
theorem test_or :
    observe cfgT0 (ops 0x0F 0xF0 1) 0x8121 v1f = some (0xFF, 1) ∧
      observe ({ cfgT0 with logicQuirk := true }) (ops 0x0F 0xF0 1) 0x8121 v1f = some (0xFF, 0) := by decide

/-- AL8. -/
theorem test_and :
    observe ({ cfgT0 with logicQuirk := true }) (ops 0x3C 0x0F 1) 0x8122 v1f = some (0x0C, 0) := by decide

/-- AL9 and AL10. -/
theorem test_xor :
    observe cfgT0 (ops 0xFF 0x0F 0) 0x8123 v1f = some (0xF0, 0) ∧
      observe cfgT0 (ops 0x55 0 0) 0x8113 v1f = some (0, 0) := by decide

/-- AL11: the quirk clears `V[0xF]` last. -/
theorem test_or_into_flag :
    observe ({ cfgT0 with logicQuirk := true }) (ops 0 0xF0 0x0F) 0x8F21 (·.getV 15) = some 0 := by decide

/-- AL12 and AL15: the sum 255, and the old `VF` as an operand. -/
theorem test_add :
    observe cfgT0 (ops 0x7F 0x80 1) 0x8124 v1f = some (0xFF, 0) ∧
      observe cfgT0 (ops 0x10 0 0xF0) 0x81F4 v1f = some (0x00, 1) := by decide

/-- AL14. -/
theorem test_add_into_flag : observe cfgT0 (ops 0 0x90 0x80) 0x8F24 (·.getV 15) = some 1 := by decide

/-- S3 and AL16. -/
theorem test_sub :
    observe cfgT0 (ops 0x00 0x01 1) 0x8125 v1f = some (0xFF, 0) ∧
      observe cfgT0 (ops 0x05 0x05 0) 0x8125 v1f = some (0x00, 1) := by decide

/-- AL18. -/
theorem test_sub_into_flag : observe cfgT0 (ops 0 0x01 0x00) 0x8F25 (·.getV 15) = some 0 := by decide

/-- S4 and AL23. -/
theorem test_shr :
    observe cfgT0 (ops 0x10 0x03 0) 0x8126 (fun t => (v1f t, t.getV 2)) = some ((0x01, 1), 0x03) ∧
      observe ({ cfgT0 with shiftQuirk := true }) (ops 0xFF 0x01 0) 0x8126 v1f = some (0x7F, 1) := by decide

/-- AL24. -/
theorem test_shr_flag_itself : observe cfgT0 (ops 0 0 0x03) 0x8FF6 (·.getV 15) = some 1 := by decide

/-- AL19 and AL20. -/
theorem test_subn :
    observe cfgT0 (ops 0x05 0x03 1) 0x8127 v1f = some (0xFE, 0) ∧
      observe cfgT0 (ops 0x03 0x05 0) 0x8127 v1f = some (0x02, 1) := by decide

/-- AL25 and AL26. -/
theorem test_shl :
    observe cfgT0 (ops 0 0x80 0) 0x812E v1f = some (0x00, 1) ∧
      observe ({ cfgT0 with shiftQuirk := true }) (ops 0x40 0x80 1) 0x812E v1f = some (0x80, 0) := by decide

/-- AL28 and AL30, with the vectors' `rand` in the place of the free value. -/
theorem test_rnd_mask :
    ((start cfgT0 id).setRandom 3 0xA7 0x0F).getV 3 = 0x07 ∧
      ((start cfgT0 id).setRandom 3 0x5C 0xFF).getV 3 = 0x5C := by decide

/-- A draw is used up, and the free value stands under the mask. -/
theorem test_rnd_step :
    observe cfgT0 id 0xC3F0 (fun t => (t.getV 3, t.draws)) = some (Config.randomByte 0 &&& 0xF0, 1) := rfl

/-! ### Index register and memory (2.4) -/

/-- `I`, and the bytes at 0x300. -/
def at300 (bytes : List Byte) (s : State) : State := (s.writeBytes 0x300 bytes).setI 0x300

/-- Three registers from `V[0]`. -/
def three (a b c : Byte) (s : State) : State := ((s.setV 0 a).setV 1 b).setV 2 c

/-- The three bytes at an address. -/
def bytes3 (a : Nat) (t : State) : List Byte := [t.readByte a, t.readByte (a + 1), t.readByte (a + 2)]

/-- IM1. -/
theorem test_ld_i : observe cfgT0 id 0xA2F0 (·.i) = some 0x2F0 := by decide

/-- IM2 and IM5. -/
theorem test_add_i :
    observe cfgT0 (fun s => ((s.setI 0xFFF).setV 2 2).setV 15 7) 0xF21E (fun t => (t.i, t.getV 15)) = some (0x1001, 7) ∧
      observe cfgT0 (fun s => (s.setI 0xFFFF).setV 0 2) 0xF01E (·.i) = some 0x0001 := by decide

/-- IM3. -/
theorem test_add_i_masked : addToIndex { sessionParams with addIMask12 := true } 0xFFF 2 = 0x001 := by decide

/-- IM7 and IM8. -/
theorem test_ld_f :
    observe cfgT0 (·.setV 3 0x1A) 0xF329 (·.i) = some 0x082 ∧ observe cfgT0 (·.setV 3 0x0F) 0xF329 (·.i) = some 0x09B := by
  decide

/-- IM9 and IM10. -/
theorem test_ld_hf :
    observe sessionConfig (·.setV 4 0x03) 0xF430 (·.i) = some 0x0BE ∧
      observe sessionConfig (·.setV 4 0xFF) 0xF430 (·.i) = some 0x136 := by decide

/-- IM12 and IM14. -/
theorem test_bcd :
    observe cfgT0 (fun s => (s.setV 0xA 0xFF).setI 0x300) 0xFA33 (fun t => (bytes3 0x300 t, t.i)) =
        some ([0x02, 0x05, 0x05], 0x300) ∧
      observe cfgT0 (fun s => (s.setV 0 0x7B).setI 0xFFD) 0xF033 (bytes3 0xFFD) = some [0x01, 0x02, 0x03] := by decide

/-- IM15. -/
theorem test_bcd_out_of_range :
    observe cfgT0 (fun s => (s.setV 0 0x7B).setI 0xFFE) 0xF033 (fun t => (t.fault, t.readByte 0xFFE)) =
      some (some ⟨.addressOutOfRange, 0x200, some 0xF033, some 0x1000⟩, 0x00) := by decide

/-- IM17 and IM18. -/
theorem test_dump :
    observe ({ cfgT0 with loadStoreOffset := some 1 }) (fun s => (three 0x11 0x22 0x33 s).setI 0x300) 0xF255
        (fun t => (bytes3 0x300 t, t.i)) = some ([0x11, 0x22, 0x33], 0x303) ∧
      observe ({ cfgT0 with loadStoreOffset := some 0 }) (fun s => (three 0x11 0x22 0x33 s).setI 0x300) 0xF255 (·.i) =
        some 0x302 := by decide

/-- IM20 and IM25. -/
theorem test_dump_out_of_range :
    observe cfgT0 (·.setI 0xFF1) 0xFF55 (·.fault) = record .addressOutOfRange 0x200 (some 0xFF55) (some 0x1000) ∧
      observe cfgT0 (·.setI 0xFFFE) 0xF055 (·.fault) =
        record .addressOutOfRange 0x200 (some 0xF055) (some 0xFFFE) := by decide

/-- IM22, and the register after the last one loaded. -/
theorem test_load :
    observe cfgT0 (fun s => (at300 [0x01, 0x02, 0x03, 0x04] s).setV 3 0x77) 0xF265
      (fun t => ([t.getV 0, t.getV 1, t.getV 2, t.getV 3], t.i)) = some ([0x01, 0x02, 0x03, 0x77], 0x300) := by decide

/-- IM24. -/
theorem test_load_post_increment :
    observe ({ cfgT0 with loadStoreOffset := some 1 }) (at300 [0xAB]) 0xF065 (fun t => (t.getV 0, t.i)) =
      some (0xAB, 0x301) := by decide

/-- IM26. -/
theorem test_flag_dump :
    observe sessionConfig (fun s => (s.setV 0 0xAA).setV 1 0xBB) 0xF175 (fun t => (t.getFR 0, t.getFR 1, t.getFR 2)) =
      some (0xAA, 0xBB, 0) := by decide

/-- IM27, and the register after the last one loaded. -/
theorem test_flag_load :
    observe sessionConfig (fun s => (s.setFRUpTo 2 fun k => if k = 0 then 0xAA else 0xBB).setV 2 0x55) 0xF185
      (fun t => (t.getV 0, t.getV 1, t.getV 2)) = some (0xAA, 0xBB, 0x55) := by decide

/-- IM29: the stored word is what the next step executes. -/
theorem test_self_modification :
    ((nextOf (step (prog cfgT0 (fun s => ((s.setV 0 0x12).setV 1 0x34).setI 0x202) 0xF155))).bind fun t =>
      (nextOf (step t)).map (·.pc)) = some 0x234 := by decide

/-! ### Display (2.5) -/

/-- A resolution and a framebuffer. -/
def screen (r : Resolution) (fb : Framebuffer) (s : State) : State := { s with currRes := r, fb := fb }

/-- DS1, its first row: the start wraps and the columns clip. -/
theorem test_drw_wraps_and_clips :
    observe cfgT0 (fun s => ((s.setI 0x050).setV 1 0x7C).setV 2 0x25) 0xD121 (fun t => (t.fb, t.getV 15)) =
      some ([(5, 60), (5, 61), (5, 62), (5, 63)], 0) := by decide

/-- DS3: the second draw of the same sprite clears it, with a collision. -/
theorem test_drw_collision :
    observe cfgT0 (fun s => screen ⟨64, 32⟩ [(0, 0), (0, 7)] (at300 [0xFF] s)) 0xD011 (fun t => (t.fb, t.getV 15)) =
        some ([(0, 1), (0, 2), (0, 3), (0, 4), (0, 5), (0, 6)], 1) ∧
      observe cfgT0 (fun s => screen ⟨64, 32⟩ [(0, 0)] (at300 [0x80] s)) 0xD011 (fun t => (t.fb, t.getV 15)) =
        some ([], 1) := by decide

/-- DS5 and DS9: zero rows read no memory, clear `VF`, and still set the vblank signal under the quirk. -/
theorem test_drw_zero_rows :
    observe ({ cfgT0 with vblankQuirk := true }) (fun s => (s.setI 0x1000).setV 15 1) 0xD010
      (fun t => (t.getV 15, t.vblankPending, t.fault)) = some (0, true, none) := by decide

/-- DS6 and DS15: the last byte read lies above 0xFFF. -/
theorem test_drw_out_of_range :
    observe cfgT0 (·.setI 0xFFC) 0xD015 (·.fault) = record .addressOutOfRange 0x200 (some 0xD015) (some 0x1000) ∧
      observe sessionConfig (fun s => screen ⟨128, 64⟩ [] (s.setI 0xFE1)) 0xD010 (·.fault) =
        record .addressOutOfRange 0x200 (some 0xD010) (some 0x1000) := by decide

/-- DS14: a logical pixel is a block of the backing grid. -/
theorem test_drw_scaled :
    observe sessionConfig (fun s => ((at300 [0x80] s).setV 0 1).setV 1 2) 0xD011 (·.fb) =
      some [(4, 2), (4, 3), (5, 2), (5, 3)] := by decide

/-- The shapes of DS11 and DS13. -/
theorem test_sprite_shapes :
    (start sessionConfig (screen ⟨128, 64⟩ [])).spriteShape 0 = ⟨16, 16⟩ ∧
      (start { sessionConfig with dxy0LoresWidth := some .w8 } id).spriteShape 0 = ⟨16, 8⟩ := by decide

/-- DS16 and DS20. -/
theorem test_scr :
    observe sessionConfig (screen ⟨128, 64⟩ [(0, 0)]) 0x00FB (·.fb) = some [(0, 4)] ∧
      observe sessionConfig (screen ⟨128, 64⟩ [(0, 125)]) 0x00FB (·.fb) = some [] := by decide

/-- DS17 and DS19. -/
theorem test_scl :
    observe ({ sessionConfig with scrollQuirk := true }) (screen ⟨64, 32⟩ [(0, 8)]) 0x00FC (·.fb) = some [(0, 0)] ∧
      observe sessionConfig (screen ⟨64, 32⟩ [(0, 2)]) 0x00FC (·.fb) = some [] := by decide

/-- DS21 and DS23. -/
theorem test_scd :
    observe ({ sessionConfig with scrollQuirk := true }) (screen ⟨64, 32⟩ [(0, 0)]) 0x00C2 (·.fb) = some [(4, 0)] ∧
      observe sessionConfig (screen ⟨64, 32⟩ [(62, 0)]) 0x00C2 (·.fb) = some [] := by decide

/-- DS25. -/
theorem test_low :
    observe sessionConfig (screen ⟨128, 64⟩ [(3, 3)]) 0x00FE (fun t => (t.currRes, t.fb)) = some (⟨64, 32⟩, []) := by
  decide

/-- DS27. -/
theorem test_high :
    observe sessionConfig (screen ⟨64, 32⟩ [(3, 3)]) 0x00FF (fun t => (t.currRes, t.fb)) = some (⟨128, 64⟩, []) := by
  decide

/-- DS28. -/
theorem test_cls : observe cfgT0 (screen ⟨64, 32⟩ [(3, 3)]) 0x00E0 (·.fb) = some [] := by decide

/-- R106: the snapshot is the whole grid, at the maximum resolution. -/
theorem test_snapshot :
    (pixelSnapshot (start { cfgT0 with resolutions := [⟨2, 2⟩] } (screen ⟨2, 2⟩ [(0, 1)]))).1 =
      [[false, true], [false, false]] := by decide

/-! ### Halt, keys and timers (2.6) -/

/-- The key mask. -/
def held (m : BitVec 16) (s : State) : State := { s with keys := m }

/-- KT1. -/
theorem test_exit :
    observe sessionConfig (·.setPc 0x208) 0x00FD (fun t => (t.execState, t.pc, isHalted t)) =
      some (.halted, 0x20A, true) := by decide

/-- KT6 and KT7. -/
theorem test_skp :
    observe cfgT0 (fun s => held 0x0020 (s.setV 3 0x15)) 0xE39E (·.pc) = some 0x204 ∧
      observe cfgT0 (fun s => held 0x0020 (s.setV 3 0x04)) 0xE39E (·.pc) = some 0x202 := by decide

/-- KT8, and a held key. -/
theorem test_sknp :
    observe cfgT0 (fun s => held 0x0020 (s.setV 3 0x04)) 0xE3A1 (·.pc) = some 0x204 ∧
      observe cfgT0 (fun s => held 0x0020 (s.setV 3 0x05)) 0xE3A1 (·.pc) = some 0x202 := by decide

/-- S8, its first step. -/
theorem test_ld_key :
    observe cfgT0 id 0xF50A (fun t => (t.execState, t.pc, t.getV 5)) = some (.waitingForKey 5, 0x202, 0) := by decide

/-- KT9 and KT10. -/
theorem test_press_key :
    pressKey 16 (start cfgT0 id) = .refused .keyCodeOutOfRange ∧
      (nextOf (pressKey 15 (start cfgT0 (held 0x8000)))).map (·.keys) = some 0x8000 :=
  ⟨rfl, by decide⟩

/-- S8, its last transaction, and KT11. -/
theorem test_release_ends_wait :
    (nextOf (releaseKey 0xB (start cfgT0 fun s => (held 0x0800 s).setExec (.waitingForKey 5)))).map
        (fun t => (t.getV 5, t.execState, t.keys)) = some (0x0B, .running, 0) ∧
      (nextOf (releaseKey 3 (start cfgT0 (·.setExec (.waitingForKey 15))))).map (·.getV 15) = some 0x03 := by decide

/-- KT12 and KT13. -/
theorem test_release_without_wait :
    (nextOf (releaseKey 3 (start cfgT0 (held 0x0008)))).map (fun t => (t.keys, t.getV 3)) = some (0, 0) ∧
      (nextOf (releaseKey 3 (start cfgT0 (·.setExec .halted)))).map (·.execState) = some .halted := by decide

/-- KT15. -/
theorem test_ld_vx_dt : observe cfgT0 (·.setDt 0x3C) 0xF207 (·.getV 2) = some 0x3C := by decide

/-- KT16. -/
theorem test_ld_dt_vx : observe cfgT0 (·.setV 2 0x3C) 0xF215 (·.dt) = some 0x3C := by decide

/-- KT17. -/
theorem test_ld_st_vx :
    observe cfgT0 (·.setV 2 0x01) 0xF218 (fun t => (t.st, isSoundActive t, isSoundActive (decrementOnce t))) =
      some (1, true, false) := by decide

/-- KT18 and KT19. -/
theorem test_frame_tick :
    (decrementOnce (start cfgT0 id)).dt = 0 ∧
      (fun t : State => (t.dt, t.st)) (decrementOnce (decrementOnce (start cfgT0 fun s => (s.setDt 1).setSt 5))) =
        (0, 3) := by decide

/-- R132, on KT1 and KT4: one step, its result, and what the queries answer after it. -/
theorem test_single_step :
    (singleStep [.isHalted, .isVblankPending] (prog sessionConfig id 0x00FD)).2 =
        (.executed, [.flag true, .flag false]) ∧
      (singleStep [.faultStatus, .isHalted] (prog cfgT0 id 0x00FD)).2 =
        (.faulted .illegalInstruction,
          [.faultRegister (some ⟨.illegalInstruction, 0x200, some 0x00FD, none⟩), .flag false]) := by decide

/-! ### ROM load, and the end of a run (2.7, 70_reset_and_hazards.md R136, R137) -/

/-- RL2 and RL4. -/
theorem test_load_rom_fails :
    loadRom (List.replicate 3585 0) (start cfgT0 id) = .fault .romLoadError ∧
      loadRom [] ({ start cfgT0 id with loadOpen := false }) = .fault .romLoadError := by
  refine ⟨?_, rfl⟩
  unfold loadRom romFits
  rw [List.length_replicate]
  rfl

/-- RL5. -/
theorem test_load_rom_after_step :
    (nextOf (step (start cfgT0 id))).map (fun t => decide (nextOf (loadRom [0x12] t) = none)) = some true := by decide

/-- The bytes of P5 are loaded at `pc_start`. -/
theorem test_load_rom :
    (nextOf (loadRom [0x22, 0x00] (start cfgT0 id))).map (fun t => (t.readByte 0x200, t.readByte 0x201, t.loadOpen)) =
      some (0x22, 0x00, false) := by decide

/-- R136 and R142, by hand: a step before the load, a second load, and a transaction after a failed load break the boot
duty; a session that loads and steps keeps it. -/
theorem test_boot_duty :
    admitted (paramsOf cfgT0) [.step] = false ∧ admitted (paramsOf cfgT0) [.loadRom [0x12, 0x00], .loadRom []] = false ∧
      keepsBootDuty [.loadRom [0x12, 0x00], .step] ({ start cfgT0 id with loadOpen := false }) = false ∧
      admitted (paramsOf cfgT0) [.loadRom [0x12, 0x00], .pressKey 1, .step, .decrementOnce, .step] = true := by decide

/-- R136: a session whose load failed is over. -/
theorem test_boot_duty_failed_load :
    admitted (paramsOf { cfgT0 with pcStart := 0xFFF }) [.loadRom [0x12, 0x00]] = true ∧
      admitted (paramsOf { cfgT0 with pcStart := 0xFFF }) [.loadRom [0x12, 0x00], .decrementOnce] = false := by decide

/-- P6: the host steps on through a key wait; a frame without a step that ends in one breaks the wait duty. -/
theorem test_wait_duty :
    admitted (paramsOf cfgT0)
        [.loadRom [0xF5, 0x0A], .step, .decrementOnce, .step, .pressKey 0xB, .decrementOnce] = true ∧
      admitted (paramsOf cfgT0) [.loadRom [0xF5, 0x0A], .step, .decrementOnce, .decrementOnce] = false := by decide

/-- CF7: a jump to itself ends the run. -/
theorem test_spinning :
    runEnd (prog cfgT0 id 0x1200) = some .spinning ∧ runEnd (prog cfgT0 id 0x1202) = none := by decide

/-- R136: from reset with nothing placed, the first step raises `IllegalInstruction(0x0000)`. -/
theorem test_reset_without_rom :
    (nextOf (step State.reset)).map (·.fault) = record .illegalInstruction 0x200 (some 0x0000) none := by decide

/-- R37: glyph 0 and glyph F of the small font at reset. -/
theorem test_reset_font :
    [0x50, 0x51, 0x52, 0x53, 0x54].map State.reset.readByte = [0xF0, 0x90, 0x90, 0x90, 0xF0] ∧
      [0x9B, 0x9C, 0x9D, 0x9E, 0x9F].map State.reset.readByte = [0xF0, 0x80, 0xF0, 0x80, 0x80] := by decide

/-! ### Witnesses: concrete states and operands that meet the obligations' hypotheses, each clause at a boundary -/

/-- The invariant of a concrete state, as a computation. -/
def invCheck (s : State) : Bool :=
  s.params.wf && Memory.wf (initialByte s.params) s.mem
    && Framebuffer.wf s.params.cfg.maxRes.height s.params.cfg.maxRes.width s.fb && decide (s.sp ≤ 16)
    && (decide (s.currRes = s.params.cfg.baseRes) || decide (s.currRes = s.params.cfg.maxRes))
    && decide (s.pc.toNat ≤ 0x10FE) && s.stack.toList.all (fun e => decide (e.toNat ≤ 0x1000))
    && (decide (s.fault = none) || decide (s.execState = .running))
    && (!s.vblankPending || s.params.cfg.vblankQuirk)
    && (!s.loadOpen || (decide (s.fault = none) && decide (s.execState = .running)))

theorem inv_of_check {s : State} (h : invCheck s = true) : s.Inv := by
  simp only [invCheck, Bool.and_eq_true, Bool.or_eq_true, decide_eq_true_eq, Bool.not_eq_true', List.all_eq_true] at h
  obtain ⟨⟨⟨⟨⟨⟨⟨⟨⟨h1, h2⟩, h3⟩, h4⟩, h5⟩, h6⟩, h7⟩, h8⟩, h9⟩, h10⟩ := h
  refine ⟨h1, h2, h3, h4, h5, h6, fun k => ?_, fun hf => h8.resolve_left hf, fun hv => h9.resolve_left (by simp [hv]),
    fun hl => h10.resolve_left (by simp [hl])⟩
  unfold State.stackEntry
  rw [List.getD_eq_getElem?_getD]
  cases hk : s.stack.toList[k]? with
  | none => simp
  | some e => exact h7 e (List.mem_of_getElem? hk)

/-- An empty stack, one entry, and a full stack (RetPopsOrUnderflows). -/
theorem witness_RetPopsOrUnderflows :
    (start cfgT0 id).sp = 0 ∧ 0 < (start cfgT0 oneReturn).sp ∧ 0 < (start cfgT0 fullStack).sp := by decide

/-- The last entry free, and no entry free (CallPushesOrOverflows). -/
theorem witness_CallPushesOrOverflows :
    (start cfgT0 fun s => { s with sp := 15 }).sp < 16 ∧ (start cfgT0 fullStack).sp = 16 := by decide

theorem witness_JumpPlusOffsetSetsPc :
    (start cfgT0 id).params.cfg.jumpQuirk = false ∧
      (start { cfgT0 with jumpQuirk := true } id).params.cfg.jumpQuirk = true ∧
      (15 : RegIx).val = (0xFFF : Addr12).toNat / 256 := by decide

theorem witness_LogicResultAndQuirk :
    (start cfgT0 id).params.cfg.logicQuirk = false ∧
      (start { cfgT0 with logicQuirk := true } id).params.cfg.logicQuirk = true ∧
      (Instr.orReg 15 0 = .orReg 15 0 ∧ (0x0F : Byte) = (start cfgT0 (ops 0 0 0x0F)).getV 15 ||| 0) ∧
      (Instr.andReg 1 2 = .andReg 1 2 ∧ (0x00 : Byte) = (start cfgT0 (ops 0x0F 0xF0 0)).getV 1 &&& 0xF0) ∧
      (Instr.xorReg 1 1 = .xorReg 1 1 ∧ (0x00 : Byte) = (start cfgT0 (ops 0x55 0 0)).getV 1 ^^^ 0x55) := by decide

theorem witness_ShiftsMoveOnePlace :
    (255 = ((start cfgT0 (ops 0 0xFF 0)).getV (if (start cfgT0 id).params.cfg.shiftQuirk then 1 else 2)).toNat) ∧
      128 = ((start { cfgT0 with shiftQuirk := true } (ops 0x80 0 0)).getV
        (if (start { cfgT0 with shiftQuirk := true } id).params.cfg.shiftQuirk then 1 else 2)).toNat := by decide

/-- Well-formed parameters: GlyphAddresses, ResolutionSwitchClears, EveryStepAnswers, ResetValues (both clauses),
ResetMemory, InvariantAtReset. -/
theorem witness_wellFormedParams :
    (start sessionConfig id).params.wf = true ∧ (paramsOf { cfgT0 with resolutions := [] }).wf = false ∧
      State.construct sessionParams = some State.reset := by
  refine ⟨by decide, by decide, ?_⟩
  unfold State.construct; rw [if_pos (by decide)]; rfl

theorem witness_AddToIndex :
    (start cfgT0 id).params.addIMask12 = false ∧
      (State.init { sessionParams with addIMask12 := true }).params.addIMask12 = true := by decide

/-- The last `I` that fits. -/
theorem witness_BcdStoresDigits :
    (start cfgT0 (·.setI 0xFFD)).Inv ∧ (start cfgT0 (·.setI 0xFFD)).i.toNat + 2 ≤ 0xFFF :=
  ⟨inv_of_check (by decide), by decide⟩

/-- The last `I` that fits, for all registers and for one, with and without a post-increment (RegisterDump,
RegisterLoad). -/
theorem witness_RegisterDump :
    (start cfgT0 (·.setI 0xFF0)).Inv ∧ (start cfgT0 (·.setI 0xFF0)).i.toNat + (15 : RegIx).val ≤ 0xFFF ∧
      (start cfgT0 (·.setI 0xFFF)).i.toNat + (0 : RegIx).val ≤ 0xFFF ∧
      (start cfgT0 id).params.cfg.loadStoreOffset = none ∧
      (start { cfgT0 with loadStoreOffset := some 1 } id).params.cfg.loadStoreOffset = some 1 :=
  ⟨inv_of_check (by decide), by decide, by decide, by decide, by decide⟩

/-- The first `I` that does not fit, for each of the four instructions. -/
theorem witness_OutOfRangeRaisesAndWritesNothing :
    0xFFF < (start cfgT0 (·.setI 0xFFE)).i.toNat + 3 - 1 ∧
      0xFFF < (start cfgT0 (·.setI 0xFF1)).i.toNat + ((15 : RegIx).val + 1) - 1 ∧
      0xFFF < (start cfgT0 (·.setI 0xFFC)).i.toNat + ((start cfgT0 (·.setI 0xFFC)).spriteShape 5).bytes - 1 ∧
      0 < ((start cfgT0 (·.setI 0xFFC)).spriteShape 5).bytes ∧
      0xFFF < (start sessionConfig (·.setI 0xFE1)).i.toNat + ((start sessionConfig id).spriteShape 0).bytes - 1 := by
  decide

theorem witness_MemoryIsItsReads :
    Memory.wf (initialByte sessionParams) [(0x300, 1), (0xFFF, 2)] = true ∧
      (∀ a, Memory.lookup (initialByte sessionParams) a [(0x300, 1), (0xFFF, 2)] =
        Memory.lookup (initialByte sessionParams) a [(0x300, 1), (0xFFF, 2)]) :=
  ⟨by decide, fun _ => rfl⟩

/-- IM29: V0 and V1 stored at 0x202, at the next `pc`. -/
theorem witness_FetchSeesStores :
    (start cfgT0 (·.setI 0x202)).Inv ∧ (start cfgT0 (·.setI 0x202)).i.toNat + (1 : RegIx).val ≤ 0xFFF ∧
      (1 : RegIx).val = (0 : RegIx).val + 1 ∧ (1 : RegIx) ≤ 1 ∧
      (nextOf (exec (.ldMemVx 1) (start cfgT0 (·.setI 0x202)))).isSome = true :=
  ⟨inv_of_check (by decide), by decide, by decide, by decide, by decide⟩

theorem witness_SpriteShape :
    ((1 : Fin 16) ≠ 0 ∧ (start sessionConfig id).params.cfg.hiresEnabled = true) ∧
      (start sessionConfig id).params.cfg.dxy0LoresWidth = some .w16 ∧ (start sessionConfig id).hiresMode = false ∧
      (start sessionConfig (screen ⟨128, 64⟩ [])).hiresMode = true ∧
      (start cfgT0 id).params.cfg.hiresEnabled = false ∧
      (start { sessionConfig with dxy0LoresWidth := none } id).params.cfg.dxy0LoresWidth = none := by decide

/-- A sprite that ends at 0xFFF, over lit pixels; a big sprite; and a draw of no rows with `I` above memory
(DrawFlipsTheCoveredPixels, DrawTwiceRestores, ClearThenDrawShowsTheSprite). -/
theorem witness_DrawFlipsTheCoveredPixels :
    ((start sessionConfig fun s => screen ⟨64, 32⟩ [(0, 0), (63, 127)] (s.setI 0xFFB)).Inv ∧
        (start sessionConfig fun s => screen ⟨64, 32⟩ [(0, 0), (63, 127)] (s.setI 0xFFB)).spriteInMemory 5) ∧
      ((start sessionConfig fun s => screen ⟨128, 64⟩ [(0, 1)] (s.setI 0x300)).Inv ∧
        (start sessionConfig fun s => screen ⟨128, 64⟩ [(0, 1)] (s.setI 0x300)).spriteInMemory 0) ∧
      ((start cfgT0 (·.setI 0x1000)).Inv ∧ (start cfgT0 (·.setI 0x1000)).spriteInMemory 0) ∧
      (start { cfgT0 with vblankQuirk := true } id).params.cfg.vblankQuirk = true :=
  ⟨⟨inv_of_check (by decide), .inr (by decide)⟩, ⟨inv_of_check (by decide), .inr (by decide)⟩,
    ⟨inv_of_check (by decide), .inl (by decide)⟩, by decide⟩

/-- A first draw that leaves the coordinate in `V[0xF]` as it was, and one that changes it (DrawTwiceRestores). -/
theorem witness_DrawTwiceRestores :
    (start cfgT0 (at300 [0x80])).Inv ∧ (start cfgT0 (at300 [0x80])).spriteInMemory 1 ∧
      (nextOf (exec (.drw 15 15 1) (start cfgT0 (at300 [0x80])))).map (fun t => (t.spriteX 15, t.spriteY 15)) =
        some ((start cfgT0 (at300 [0x80])).spriteX 15, (start cfgT0 (at300 [0x80])).spriteY 15) ∧
      (start cfgT0 fun s => (at300 [0x80] s).setV 15 5).spriteX 15 = 5 ∧
      (nextOf (exec (.drw 15 1 1) (start cfgT0 fun s => (at300 [0x80] s).setV 15 5))).map (·.spriteX 15) = some 0 ∧
      (1 : RegIx) ≠ 15 :=
  ⟨inv_of_check (by decide), .inr (by decide), by decide, by decide, by decide, by decide⟩

/-- The distances with and without the quirk (ScrollDownMovesRows, SideScrollsMoveColumns). -/
theorem witness_scrolls :
    (start { sessionConfig with scrollQuirk := true } id).Inv ∧
      8 = (if (start { sessionConfig with scrollQuirk := true } id).params.cfg.scrollQuirk then 4 * (128 / 64) else 4) ∧
      30 = (if (start { sessionConfig with scrollQuirk := true } id).params.cfg.scrollQuirk
        then (15 : Fin 16).val * ((start sessionConfig id).params.cfg.maxRes.height / 32) else 15) ∧
      (start sessionConfig id).params.cfg.scrollQuirk = false ∧ (start sessionConfig id).onGrid 63 127 :=
  ⟨inv_of_check (by decide), by decide, by decide, by decide, by unfold State.onGrid; decide⟩

/-- A word of the dialect at the last legal `pc` (StepRunsTheDecodedInstruction, StepRunsTheEncodedInstruction). -/
theorem witness_StepRunsTheDecodedInstruction :
    (prog cfgT0 (·.setPc 0xFFE) 0x1200).params.wf = true ∧ (prog cfgT0 (·.setPc 0xFFE) 0x1200).fault = none ∧
      (prog cfgT0 (·.setPc 0xFFE) 0x1200).execState = .running ∧
      (prog cfgT0 (·.setPc 0xFFE) 0x1200).pc.toNat ≤ 0xFFE ∧
      decode cfgT0 (wordOfBytes ((prog cfgT0 (·.setPc 0xFFE) 0x1200).readByte 0xFFE)
        ((prog cfgT0 (·.setPc 0xFFE) 0x1200).readByte 0xFFF)) = .ok (.jp 0x200) ∧
      Instr.wf cfgT0 (.jp 0x200) = true ∧
      [(prog cfgT0 (·.setPc 0xFFE) 0x1200).readByte 0xFFE, (prog cfgT0 (·.setPc 0xFFE) 0x1200).readByte 0xFFF] =
        encodeBytes (.jp 0x200) := by decide

/-- The first `pc` that faults, and a gated word, which no instruction decodes. -/
theorem witness_FetchAndDecodeFaults :
    0xFFE < (start cfgT0 (·.setPc 0xFFF)).pc.toNat ∧ (start cfgT0 (·.setPc 0xFFE)).pc.toNat ≤ 0xFFE ∧
      ∀ i, decode cfgT0 0x00FF ≠ .ok i := by
  refine ⟨by decide, by decide, fun i h => ?_⟩
  have : decode cfgT0 0x00FF = .error (.gated .hires) := by decide
  rw [this] at h; cases h

/-- Each of the causes an instruction raises (FaultsArePrecise). -/
theorem witness_FaultsArePrecise :
    (nextOf (exec .ret (start cfgT0 id))).map (fun t => decide (t.fault ≠ none)) = some true ∧
      (nextOf (exec (.call 0x300) (start cfgT0 fullStack))).map (fun t => decide (t.fault ≠ none)) = some true ∧
      (nextOf (exec (.ldB 0) (start cfgT0 (·.setI 0xFFE)))).map (fun t => decide (t.fault ≠ none)) = some true := by
  decide

/-- For each piece of state an instruction that changes it (WritersOfEachPieceOfState). -/
theorem witness_WritersOfEachPieceOfState :
    (nextOf (exec (.ldDTVx 1) (start cfgT0 (ops 7 0 0)))).map (·.dt) = some 7 ∧
      (nextOf (exec (.ldSTVx 1) (start cfgT0 (ops 7 0 0)))).map (·.st) = some 7 ∧
      (nextOf (exec (.ldMemVx 0) (start cfgT0 fun s => (s.setV 0 7).setI 0x300))).map (·.mem) = some [(0x300, 7)] ∧
      (nextOf (exec (.ldRVx 1) (start cfgT0 (ops 7 0 0)))).map (·.getFR 1) = some 7 ∧
      (nextOf (exec (.call 0x300) (start cfgT0 id))).map (fun t => (t.sp, t.stackEntry 0)) = some (1, 0x202) ∧
      (nextOf (exec (.ldI 0x300) (start cfgT0 id))).map (·.i) = some 0x300 ∧
      (nextOf (exec .high (start sessionConfig id))).map (·.currRes) = some ⟨128, 64⟩ ∧
      (nextOf (exec .cls (start cfgT0 (screen ⟨64, 32⟩ [(0, 0)])))).map (·.fb) = some [] ∧
      (nextOf (exec .exit (start cfgT0 id))).map (·.execState) = some .halted ∧
      (nextOf (exec (.drw 0 0 0) (start { cfgT0 with vblankQuirk := true } id))).map (·.vblankPending) = some true ∧
      (nextOf (exec (.rnd 0 0) (start cfgT0 id))).map (·.draws) = some 1 ∧
      (nextOf (exec (.ldImm 15 9) (start cfgT0 id))).map (·.getV 15) = some 9 ∧
      (nextOf (exec (.jp 0x300) (start cfgT0 id))).map (·.pc) = some 0x300 ∧
      (nextOf (exec (.ldB 0) (start cfgT0 (·.setI 0xFFE)))).map (fun t => (t.pc, decide (t.fault ≠ none))) =
        some (0x200, true) := by decide

/-- A register below and `V[0xF]` itself, by its name, as a flag, under the logic quirk, and by a draw that clears it
(WritersOfGeneralRegisters). -/
theorem witness_WritersOfGeneralRegisters :
    (nextOf (exec (.ldImm 14 1) (start cfgT0 id))).map (fun t => decide (t.getV 14 ≠ 0)) = some true ∧
      (nextOf (exec (.subReg 1 2) (start cfgT0 (ops 0 1 0)))).map (fun t => decide (t.getV 1 ≠ 0)) = some true ∧
      (nextOf (exec (.ldVxMem 14) (start cfgT0 (·.setI 0x050)))).map (fun t => decide (t.getV 14 ≠ 0)) = some true ∧
      (nextOf (exec (.ldVxMem 15) (start cfgT0 (·.setI 0x050)))).map (fun t => decide (t.getV 15 ≠ 0)) = some true ∧
      (nextOf (exec (.addReg 1 2) (start cfgT0 (ops 0xFF 0x01 0)))).map (fun t => decide (t.getV 15 ≠ 0)) = some true ∧
      (nextOf (exec (.orReg 1 2) (start { cfgT0 with logicQuirk := true } (ops 0 0 1)))).map (·.getV 15) = some 0 ∧
      (nextOf (exec (.drw 0 0 0) (start cfgT0 (ops 0 0 1)))).map (·.getV 15) = some 0 := by decide

/-- A word of a row, other than the row's own pattern (EncodeOfDecode, DecodingFollowsTheMaskTable). -/
theorem witness_encoding :
    decodeWord 0xFF85 = some (.ldVxR 15) ∧ (0xFF85 : Word) &&& (Instr.ldVxR 0).row.mask = (Instr.ldVxR 0).row.pattern := by
  decide

/-- Each gate open and closed. -/
theorem witness_GatesOfTheDialect :
    (sessionConfig.flagRegistersEnabled && sessionConfig.scrollingEnabled && sessionConfig.hiresEnabled) = true ∧
      (cfgT0.flagRegistersEnabled || cfgT0.scrollingEnabled || cfgT0.hiresEnabled) = false := by decide

/-- Bytes of both fonts, the last ones, and an address outside both (ResetMemory). -/
theorem witness_ResetMemory :
    ({ sessionParams with bigGlyphBytes := 1, fontBig := some (List.replicate 16 0x81) } : Params).wf = true ∧
      sessionParams.fontSmall[79]? = some 0x80 ∧ (List.replicate 16 (0x81 : Byte))[15]? = some 0x81 ∧
      sessionParams.smallFontEnd ≤ 0x200 ∧ sessionParams.bigFontEnd ≤ 0x200 := by decide

/-- Reset and a state far from it: a full stack, the largest `pc`, a raised fault (StepKeepsTheInvariant). -/
theorem witness_StepKeepsTheInvariant :
    State.reset.Inv ∧ (nextOf (step State.reset)).isSome = true ∧
      (start cfgT0 fun s => (fullStack s).setPc 0x10FE).Inv ∧
      (nextOf (step (start cfgT0 fun s => (fullStack s).setPc 0x10FE))).isSome = true :=
  ⟨inv_of_check (by decide), by decide, inv_of_check (by decide), by decide⟩

theorem witness_TransactionsKeepTheInvariant :
    Transaction.releaseKey 15 ≠ .step ∧
      (start cfgT0 fun s => ({ s with loadOpen := false } : State).setExec (.waitingForKey 15)).Inv ∧
      (nextOf (perform (.releaseKey 15)
        (start cfgT0 fun s => ({ s with loadOpen := false } : State).setExec (.waitingForKey 15)))).isSome = true ∧
      (nextOf (perform (.loadRom [1]) (start cfgT0 id))).isSome = true ∧
      (nextOf (perform (.pressKey 0) (start cfgT0 id))).isSome = true :=
  ⟨by decide, inv_of_check (by decide), by decide, by decide, by decide⟩

/-- The first refused code, the last accepted one, a wait, and no wait (KeyEvents). -/
theorem witness_KeyEvents :
    15 < 16 ∧ 15 ≤ 15 ∧ (start cfgT0 (·.setExec (.waitingForKey 15))).fault = none ∧
      (start cfgT0 (·.setExec (.waitingForKey 15))).execState = .waitingForKey 15 ∧
      ∀ r, (start cfgT0 id).execState ≠ .waitingForKey r := by
  refine ⟨by decide, by decide, by decide, by decide, fun r h => ?_⟩
  cases h

/-- RL1 and RL2: the largest ROM that fits and the smallest that does not, and a step (LoadRomOnce). -/
theorem witness_LoadRomOnce :
    (start cfgT0 id).Inv ∧ (start cfgT0 id).loadOpen = true ∧
      (List.replicate 3584 (0 : Byte)).length ≤ 4096 - (start cfgT0 id).params.cfg.pcStart.toNat ∧
      4096 - (start cfgT0 id).params.cfg.pcStart.toNat < (List.replicate 3585 (0 : Byte)).length ∧
      (nextOf (step (start cfgT0 id))).isSome = true := by
  refine ⟨inv_of_check (by decide), by decide, ?_, ?_, by decide⟩
  · rw [List.length_replicate]; decide
  · rw [List.length_replicate]; decide

/-- A faulted unit and a halted one (StoppedUnitStaysStopped). -/
theorem witness_StoppedUnitStaysStopped :
    ((start cfgT0 fun s => ({ s with loadOpen := false } : State).enterFault .stackUnderflow (some 0x00EE) none).Inv ∧
        (start cfgT0 fun s =>
          ({ s with loadOpen := false } : State).enterFault .stackUnderflow (some 0x00EE) none).fault ≠ none) ∧
      (start cfgT0 fun s => ({ s with loadOpen := false } : State).setExec .halted).Inv ∧
      (start cfgT0 fun s => ({ s with loadOpen := false } : State).setExec .halted).execState = .halted :=
  ⟨⟨inv_of_check (by decide), by decide⟩, inv_of_check (by decide), by decide⟩

/-- A wait, and transactions without a release (KeyWaitHolds). -/
theorem witness_KeyWaitHolds :
    (start cfgT0 fun s => ({ s with loadOpen := false } : State).setExec (.waitingForKey 5)).Inv ∧
      (start cfgT0 fun s => ({ s with loadOpen := false } : State).setExec (.waitingForKey 5)).execState =
        .waitingForKey 5 ∧
      ∀ k, Transaction.releaseKey k ∉ [Transaction.step, .pressKey 11, .decrementOnce] := by
  refine ⟨inv_of_check (by decide), by decide, fun k h => ?_⟩
  simp at h

/-- A jump to itself at the end of P1 (SpinningUnitKeepsSpinning). -/
theorem witness_SpinningUnitKeepsSpinning :
    (prog cfgT0 (·.setPc 0x20A) 0x120A).Inv ∧ runEnd (prog cfgT0 (·.setPc 0x20A) 0x120A) = some .spinning ∧
      ∀ tr ∈ [Transaction.step, .decrementOnce, .step], tr = .step ∨ tr = .decrementOnce :=
  ⟨inv_of_check (by decide), by decide, by decide⟩

/-- The empty run, and a key, a step, a tick and a step after the load of P5 (AdmittedRunsLoadOnceThenStep). -/
theorem witness_AdmittedRunsLoadOnceThenStep :
    admitted (paramsOf cfgT0) [] = true ∧
      admitted (paramsOf cfgT0) [.loadRom [0x22, 0x00], .pressKey 0, .step, .decrementOnce, .step] = true ∧
      (nextOf (loadRom [0x22, 0x00] (start cfgT0 id))).isSome = true ∧
      [Transaction.pressKey 0, .step, .decrementOnce, .step] =
        [Transaction.pressKey 0] ++ .step :: [.decrementOnce, .step] ∧
      Transaction.step ∉ [Transaction.pressKey 0] := by decide

/-- A draw under the vblank quirk, one step and a key event before the next frame tick (OneDrawPerFrame). -/
theorem witness_OneDrawPerFrame :
    (prog { cfgT0 with vblankQuirk := true } (·.setI 0x050) 0xD125).Inv ∧
      (prog { cfgT0 with vblankQuirk := true } (·.setI 0x050) 0xD125).params.cfg.vblankQuirk = true ∧
      Transaction.decrementOnce ∉ [Transaction.step, .pressKey 1] ∧
      keepsVblankDuty [.step, .pressKey 1] (prog { cfgT0 with vblankQuirk := true } (·.setI 0x050) 0xD125) = true ∧
      drawCount [.step, .pressKey 1] (prog { cfgT0 with vblankQuirk := true } (·.setI 0x050) 0xD125) = 1 :=
  ⟨inv_of_check (by decide), by decide, by decide, by decide, by decide⟩

end Sys2Proof.Tests
end

/-! The jumps and skips of 40_control_flow.md: each is one write of `pc` over the state at the start of the step, so the
frame is proved once, for `State.setPc`. -/

namespace Sys2Proof.Machine

/-! ### The frame of a write of `pc` -/

/-- A write of `pc` leaves every other piece of state alone. -/
theorem keepsAllBut_setPc (s : State) (a : Word) : KeepsAllBut [.pc] s (s.setPc a) := by
  intro c hc
  cases c with
  | pc => exact absurd List.mem_cons_self hc
  | _ => simp [Unchanged]

/-! ### Jumps and skips as one write of `pc` -/

/-- A jump's target replaces the `pc` that the fetch advanced. -/
theorem State.advance_setPc (s : State) (a : Word) : s.advance.setPc a = s.setPc a := rfl

/-- R61: after the fetch's advance of 2, a skip adds 2 more when its predicate holds. -/
theorem State.advance_skipIf (s : State) (c : Bool) :
    s.advance.skipIf c = s.setPc (s.pc + if c then 4 else 2) := by
  rw [State.skipIf_eq, State.advance_setPc, State.advance_pc]
  cases c with
  | false => rfl
  | true => exact congrArg s.setPc (BitVec.add_assoc s.pc 2 2)

/-- R64: JP writes its target, extended to a word, to `pc`. -/
theorem exec_jp (nnn : Addr12) (s : State) : exec (.jp nnn) s = .next (s.setPc (nnn.setWidth 16)) := rfl

/-- What the four skips share: `pc` advances by 4 or by 2 as the predicate decides, in the frame of a write of `pc`. -/
theorem skip_spec {i : Instr} {s : State} {c : Bool} {d : Word} (hexec : exec i s = .next (s.advance.skipIf c))
    (hd : (if c then 4 else 2) = d) :
    ∃ t, exec i s = .next t ∧ t.pc = s.pc + d ∧ KeepsAllBut [.pc] s t := by
  rw [State.advance_skipIf, hd] at hexec
  exact ⟨_, hexec, State.setPc_pc _ _, keepsAllBut_setPc _ _⟩

/-! ### The obligations -/

/-- Settles O3: the next state is one write of `pc`, and a 12-bit target keeps its value in a word. -/
theorem jumpSetsPc : Obligations.JumpSetsPc := by
  intro nnn s
  have htarget : (nnn.setWidth 16).toNat = nnn.toNat := BitVec.toNat_setWidth_of_le (by decide)
  exact ⟨_, exec_jp nnn s, htarget, keepsAllBut_setPc _ _⟩

/-- Settles O5: each skip instruction is `skip_spec` at its own predicate; the SNE forms decide the negated one. -/
theorem skipsAdvanceByTwoOrFour : Obligations.SkipsAdvanceByTwoOrFour := by
  intro x y nn s
  refine ⟨skip_spec (c := decide (s.getV x = nn)) rfl ?_, skip_spec (c := decide (s.getV x ≠ nn)) rfl ?_,
    skip_spec (c := decide (s.getV x = s.getV y)) rfl ?_, skip_spec (c := decide (s.getV x ≠ s.getV y)) rfl ?_⟩
  · simp only [decide_eq_true_eq]
  · simp only [decide_eq_true_eq, ite_not]
  · simp only [decide_eq_true_eq]
  · simp only [decide_eq_true_eq, ite_not]

end Sys2Proof.Machine

/-! The register and arithmetic instructions of 41_register_alu.md: each advances `pc` and then writes `V` once or twice,
so the frame is built up write by write, and the flag instructions differ only in the result and flag they compute. -/

namespace Sys2Proof.Machine

/-! ### The frame of a write of `V` -/

/-- A write of `V` is invisible in every other piece of state. -/
theorem unchanged_setV_iff {s t : State} {x : RegIx} {b : Byte} {c : Component} (hc : c ≠ .v) :
    Unchanged s (t.setV x b) c ↔ Unchanged s t c := by
  cases c with
  | v => exact absurd rfl hc
  | _ => exact Iff.rfl

theorem KeepsAllBut.mono {cs ds : List Component} {s t : State} (h : KeepsAllBut cs s t) (hsub : cs ⊆ ds) :
    KeepsAllBut ds s t := fun c hc => h c fun hcs => hc (hsub hcs)

/-- The fetch's advance of `pc` writes no register (R52). -/
theorem registerStep_advance (s : State) : RegisterStep s s.advance [] :=
  ⟨State.advance_pc s, fun r _ => State.advance_getV s r,
    (keepsAllBut_setPc s (s.pc + 2)).mono (by decide)⟩

/-- One more write of `V` adds its register to those that may differ. -/
theorem RegisterStep.setV {s t : State} {rs : List RegIx} (h : RegisterStep s t rs) (x : RegIx) (b : Byte) :
    RegisterStep s (t.setV x b) (rs ++ [x]) := by
  obtain ⟨hpc, hregs, hkeeps⟩ := h
  refine ⟨hpc, fun r hr => ?_, fun c hc => ?_⟩
  · have ⟨hrs, hx⟩ : r ∉ rs ∧ r ≠ x := by simpa using hr
    exact (State.getV_setV_other t x r b hx).trans (hregs r hrs)
  · have hv : c ≠ .v := fun e => hc (by simp [e])
    exact (unchanged_setV_iff hv).mpr (hkeeps c hc)

/-- What the instructions share that write one register and no flag. -/
theorem setV_spec {i : Instr} {s : State} {x : RegIx} {b : Byte} (hexec : exec i s = .next (s.advance.setV x b)) :
    ∃ t, exec i s = .next t ∧ t.getV x = b ∧ RegisterStep s t [x] :=
  ⟨_, hexec, State.getV_setV_same _ x b, (registerStep_advance s).setV x b⟩

/-! ### Results and flags (R70) -/

theorem toNat_boolByte (c : Bool) : (boolByte c).toNat = c.toNat := by
  cases c <;> rfl

theorem toNat_boolByte_decide (p : Prop) [Decidable p] : (boolByte (decide p)).toNat = if p then 1 else 0 := by
  rw [toNat_boolByte, Bool.toNat, Bool.cond_decide]

theorem toNat_boolByte_getLsbD (a : Byte) (k : Nat) : (boolByte (a.getLsbD k)).toNat = a.toNat / 2 ^ k % 2 := by
  rw [toNat_boolByte, BitVec.getLsbD, Nat.toNat_testBit]

theorem toNat_addFlag_fst (a b : Byte) : (addFlag a b).1.toNat = (a.toNat + b.toNat) % 256 :=
  BitVec.toNat_ofNat _ 8

/-- The difference modulo 256, with 256 lent so that natural subtraction does not truncate. -/
theorem toNat_subFlag_fst (a b : Byte) : (subFlag a b).1.toNat = (a.toNat + 256 - b.toNat) % 256 := by
  have hb : b.toNat < 256 := b.isLt
  rw [subFlag, BitVec.toNat_ofInt]
  omega

theorem toNat_shrFlag_fst (a : Byte) : (shrFlag a).1.toNat = a.toNat / 2 := by
  rw [shrFlag, BitVec.toNat_ushiftRight, Nat.shiftRight_one]

theorem toNat_shlFlag_fst (a : Byte) : (shlFlag a).1.toNat = a.toNat * 2 % 256 := by
  rw [shlFlag, BitVec.toNat_shiftLeft, Nat.shiftLeft_eq]

/-- Bit 0 is the one a shift right moves out. -/
theorem toNat_shrFlag_snd (a : Byte) : (boolByte (shrFlag a).2).toNat = a.toNat % 2 := by
  rw [shrFlag, toNat_boolByte_getLsbD, pow_zero, Nat.div_one]

/-- Bit 7 is the one a shift left moves out; above it a byte has none. -/
theorem toNat_shlFlag_snd (a : Byte) : (boolByte (shlFlag a).2).toNat = a.toNat / 128 := by
  have ha : a.toNat < 256 := a.isLt
  rw [shlFlag, toNat_boolByte_getLsbD]
  omega

/-! ### A result and its flag, and a logic result -/

/-- R71: what the instructions with a flag share. The flag is written last, so it is what `V[0xF]` holds for `x = 0xF`
too. -/
theorem setResultFlag_spec {i : Instr} {s : State} {x : RegIx} {r : Byte × Bool} {result flag : Nat}
    (hexec : exec i s = .next (s.advance.setResultFlag x r)) (hresult : r.1.toNat = result)
    (hflag : (boolByte r.2).toNat = flag) :
    ∃ t, exec i s = .next t ∧ (x ≠ flagReg → (t.getV x).toNat = result) ∧ (t.getV flagReg).toNat = flag ∧
      RegisterStep s t [x, flagReg] := by
  refine ⟨_, hexec, fun hx => ?_, ?_, ((registerStep_advance s).setV x r.1).setV flagReg (boolByte r.2)⟩
  · rw [State.getV_setResultFlag, if_neg hx, if_pos rfl, hresult]
  · rw [State.getV_setResultFlag, if_pos rfl, hflag]

theorem State.setLogic_of_quirk {s : State} (hq : s.params.cfg.logicQuirk = true) (x : RegIx) (b : Byte) :
    s.setLogic x b = (s.setV x b).setV flagReg 0 := if_pos hq

theorem State.setLogic_of_no_quirk {s : State} (hq : s.params.cfg.logicQuirk = false) (x : RegIx) (b : Byte) :
    s.setLogic x b = s.setV x b := if_neg (by simp [hq])

/-- R75 to R77: what OR, AND and XOR share. Under `cfg.logic_quirk` the write of `x` is followed by one of `V[0xF]`. -/
theorem setLogic_spec {i : Instr} {s : State} {x : RegIx} {b : Byte}
    (hexec : exec i s = .next (s.advance.setLogic x b)) :
    ∃ t, exec i s = .next t ∧
      (s.params.cfg.logicQuirk = false → t.getV x = b ∧ RegisterStep s t [x]) ∧
      (s.params.cfg.logicQuirk = true → (x ≠ flagReg → t.getV x = b) ∧ t.getV flagReg = 0 ∧
        RegisterStep s t [x, flagReg]) := by
  have hresult := (registerStep_advance s).setV x b
  refine ⟨_, hexec, fun hq => ?_, fun hq => ?_⟩
  · rw [State.setLogic_of_no_quirk (s := s.advance) hq]
    exact ⟨State.getV_setV_same _ x b, hresult⟩
  · rw [State.setLogic_of_quirk (s := s.advance) hq]
    refine ⟨fun hx => ?_, State.getV_setV_same _ flagReg 0, hresult.setV flagReg 0⟩
    rw [State.getV_setV_other _ flagReg x 0 hx, State.getV_setV_same]

/-! ### The obligations -/

/-- Settles O6: both instructions are one write of `V[x]`, and ADD drops the carry of its sum. -/
theorem immediateLoadAndAdd : Obligations.ImmediateLoadAndAdd := by
  intro x nn s
  refine ⟨setV_spec rfl, ?_⟩
  obtain ⟨t, hexec, hsum, hstep⟩ := setV_spec (i := .addImm x nn) (s := s) rfl
  exact ⟨t, hexec, by rw [hsum, toNat_addFlag_fst], hstep⟩

/-- Settles O8: each of the three is `setLogic_spec` at its own bitwise result. -/
theorem logicResultAndQuirk : Obligations.LogicResultAndQuirk := by
  rintro x y s i result (⟨rfl, rfl⟩ | ⟨rfl, rfl⟩ | ⟨rfl, rfl⟩)
  · exact setLogic_spec rfl
  · exact setLogic_spec rfl
  · exact setLogic_spec rfl

/-- Settles O9, by the exact sum and its carry. -/
theorem addStoresSumAndCarry : Obligations.AddStoresSumAndCarry := fun _ _ _ =>
  setResultFlag_spec rfl (toNat_addFlag_fst _ _) (toNat_boolByte_decide _)

/-- Settles O10, by the difference and its not-underflow bit. -/
theorem subStoresDifferenceAndNotUnderflow : Obligations.SubStoresDifferenceAndNotUnderflow := fun _ _ _ =>
  setResultFlag_spec rfl (toNat_subFlag_fst _ _) (toNat_boolByte_decide _)

/-- Settles O12: `v` is the value of the register `shiftSource` selects, read before any write. -/
theorem shiftsMoveOnePlace : Obligations.ShiftsMoveOnePlace := by
  rintro x y s _ rfl
  exact ⟨setResultFlag_spec rfl (toNat_shrFlag_fst _) (toNat_shrFlag_snd _),
    setResultFlag_spec rfl (toNat_shlFlag_fst _) (toNat_shlFlag_snd _)⟩

end Sys2Proof.Machine

/-! The index register of 42_index_memory.md: LD I advances `pc` and then writes `I` once, so its frame is that of the
two writes. -/

namespace Sys2Proof.Machine

/-- The fetch's advance of `pc` and then a write of `I` leave every other piece of state alone. -/
theorem keepsAllBut_advance_setI (s : State) (a : Word) : KeepsAllBut [.pc, .i] s (s.advance.setI a) := by
  intro c hc
  cases c with
  | pc | i => exact absurd (by decide) hc
  | _ => simp [Unchanged]

/-- R85: LD I writes its immediate, extended to a word, to `I`. -/
theorem exec_ldI (nnn : Addr12) (s : State) : exec (.ldI nnn) s = .next (s.advance.setI (nnn.setWidth 16)) := rfl

/-! ### The obligation -/

/-- Settles O14: after the advance of `pc` the next state is one write of `I`, and a 12-bit immediate keeps its value
in a word. -/
theorem loadIndexImmediate : Obligations.LoadIndexImmediate := by
  intro nnn s
  have hvalue : (nnn.setWidth 16).toNat = nnn.toNat := BitVec.toNat_setWidth_of_le (by decide)
  exact ⟨_, exec_ldI nnn s, hvalue, State.advance_pc s, keepsAllBut_advance_setI s _⟩

end Sys2Proof.Machine

/-! The timer transfers of 44_keys_timers_system.md: each advances `pc` and then writes one register or one timer, so its
frame is that of the two writes. -/

namespace Sys2Proof.Machine

/-! ### The frame of a write of a timer -/

/-- The fetch's advance of `pc` and then a write of the delay timer leave every other piece of state alone. -/
theorem keepsAllBut_advance_setDt (s : State) (b : Byte) : KeepsAllBut [.pc, .dt] s (s.advance.setDt b) := by
  intro c hc
  cases c with
  | pc | dt => exact absurd (by decide) hc
  | _ => simp [Unchanged]

/-- The fetch's advance of `pc` and then a write of the sound timer leave every other piece of state alone. -/
theorem keepsAllBut_advance_setSt (s : State) (b : Byte) : KeepsAllBut [.pc, .st] s (s.advance.setSt b) := by
  intro c hc
  cases c with
  | pc | st => exact absurd (by decide) hc
  | _ => simp [Unchanged]

/-! ### The transfers, and the query on the sound timer -/

/-- R111: LD Vx, DT writes the delay timer to `V[x]`. -/
theorem exec_ldVxDT (x : RegIx) (s : State) : exec (.ldVxDT x) s = .next (s.advance.setV x s.dt) := rfl

/-- R112: LD DT, Vx writes `V[x]` to the delay timer. -/
theorem exec_ldDTVx (x : RegIx) (s : State) : exec (.ldDTVx x) s = .next (s.advance.setDt (s.getV x)) := rfl

/-- R113: LD ST, Vx writes `V[x]` to the sound timer. -/
theorem exec_ldSTVx (x : RegIx) (s : State) : exec (.ldSTVx x) s = .next (s.advance.setSt (s.getV x)) := rfl

/-- R125: the sound is active as long as the sound timer has not run out. -/
theorem isSoundActive_iff (s : State) : isSoundActive s = true ↔ 0 < s.st.toNat := decide_eq_true_iff

/-! ### The obligation -/

/-- Settles O34: the read is `setV_spec` at the delay timer; the other two write one timer after the advance of `pc`, and
the sound query reads the value just written. -/
theorem timerTransfers : Obligations.TimerTransfers := by
  intro x s
  refine ⟨setV_spec (exec_ldVxDT x s), ⟨_, exec_ldDTVx x s, ?_⟩, ⟨_, exec_ldSTVx x s, ?_⟩⟩
  · exact ⟨State.setDt_dt _ _, State.advance_pc s, keepsAllBut_advance_setDt s _⟩
  · exact ⟨State.setSt_st _ _, isSoundActive_iff _, State.advance_pc s, keepsAllBut_advance_setSt s _⟩

end Sys2Proof.Machine

/-! The decoder and the encoder of 30_encoding.md: the fields of each word format, and each format rebuilt from its
fields. Every row's proof is then one use of its format, in either direction. -/

namespace Sys2Proof

/-! ### The formats as numbers (R50) -/

theorem toNat_wordA {op : Nat} (nnn : Addr12) (hop : op < 16) : (wordA op nnn).toNat = op * 4096 + nnn.toNat := by
  have := nnn.isLt
  rw [wordA, BitVec.toNat_ofNat]
  omega

theorem toNat_wordXNN {op : Nat} (x : RegIx) (nn : Byte) (hop : op < 16) :
    (wordXNN op x nn).toNat = op * 4096 + x.val * 256 + nn.toNat := by
  have := x.isLt
  have := nn.isLt
  rw [wordXNN, BitVec.toNat_ofNat]
  omega

theorem toNat_wordOfNibbles {a b c d : Nat} (ha : a < 16) (hb : b < 16) (hc : c < 16) (hd : d < 16) :
    (wordOfNibbles a b c d).toNat = a * 4096 + b * 256 + c * 16 + d := by
  rw [wordOfNibbles, BitVec.toNat_ofNat]
  omega

/-! ### The fields as numbers (R49) -/

theorem fieldOp_lt (w : Word) : fieldOp w < 16 := Nat.mod_lt _ (by decide)

theorem fieldOp_eq (w : Word) : fieldOp w = w.toNat / 4096 := by
  have := w.isLt
  rw [fieldOp]
  omega

theorem val_fieldX (w : Word) : (fieldX w).val = w.toNat / 256 % 16 := rfl

theorem val_fieldY (w : Word) : (fieldY w).val = w.toNat / 16 % 16 := rfl

theorem val_fieldN (w : Word) : (fieldN w).val = w.toNat % 16 := rfl

theorem toNat_fieldNN (w : Word) : (fieldNN w).toNat = w.toNat % 256 := BitVec.toNat_ofNat _ 8

theorem toNat_fieldNNN (w : Word) : (fieldNNN w).toNat = w.toNat % 4096 := BitVec.toNat_ofNat _ 12

/-! ### The fields of a word in each format -/

@[simp] theorem fieldOp_wordA {op : Nat} (nnn : Addr12) (hop : op < 16) : fieldOp (wordA op nnn) = op := by
  have := nnn.isLt
  rw [fieldOp_eq, toNat_wordA nnn hop]
  omega

@[simp] theorem fieldNNN_wordA {op : Nat} (nnn : Addr12) (hop : op < 16) : fieldNNN (wordA op nnn) = nnn := by
  have := nnn.isLt
  apply BitVec.eq_of_toNat_eq
  rw [toNat_fieldNNN, toNat_wordA nnn hop]
  omega

@[simp] theorem fieldOp_wordXNN {op : Nat} (x : RegIx) (nn : Byte) (hop : op < 16) :
    fieldOp (wordXNN op x nn) = op := by
  have := x.isLt
  have := nn.isLt
  rw [fieldOp_eq, toNat_wordXNN x nn hop]
  omega

@[simp] theorem fieldX_wordXNN {op : Nat} (x : RegIx) (nn : Byte) (hop : op < 16) :
    fieldX (wordXNN op x nn) = x := by
  have := x.isLt
  have := nn.isLt
  apply Fin.ext
  rw [val_fieldX, toNat_wordXNN x nn hop]
  omega

@[simp] theorem fieldNN_wordXNN {op : Nat} (x : RegIx) (nn : Byte) (hop : op < 16) :
    fieldNN (wordXNN op x nn) = nn := by
  have := nn.isLt
  apply BitVec.eq_of_toNat_eq
  rw [toNat_fieldNN, toNat_wordXNN x nn hop]
  omega

section Nibbles

variable {a b c d : Nat} (ha : a < 16) (hb : b < 16) (hc : c < 16) (hd : d < 16)
include ha hb hc hd

@[simp] theorem fieldOp_wordOfNibbles : fieldOp (wordOfNibbles a b c d) = a := by
  rw [fieldOp_eq, toNat_wordOfNibbles ha hb hc hd]
  omega

@[simp] theorem fieldX_wordOfNibbles : fieldX (wordOfNibbles a b c d) = ⟨b, hb⟩ := by
  apply Fin.ext
  rw [val_fieldX, toNat_wordOfNibbles ha hb hc hd]
  dsimp only
  omega

@[simp] theorem fieldY_wordOfNibbles : fieldY (wordOfNibbles a b c d) = ⟨c, hc⟩ := by
  apply Fin.ext
  rw [val_fieldY, toNat_wordOfNibbles ha hb hc hd]
  dsimp only
  omega

@[simp] theorem fieldN_wordOfNibbles : fieldN (wordOfNibbles a b c d) = ⟨d, hd⟩ := by
  apply Fin.ext
  rw [val_fieldN, toNat_wordOfNibbles ha hb hc hd]
  dsimp only
  omega

end Nibbles

/-! ### A word rebuilt from its fields -/

theorem wordA_fields (w : Word) : wordA (fieldOp w) (fieldNNN w) = w := by
  apply BitVec.eq_of_toNat_eq
  rw [toNat_wordA _ (fieldOp_lt w), fieldOp_eq, toNat_fieldNNN]
  omega

theorem wordXNN_fields (w : Word) : wordXNN (fieldOp w) (fieldX w) (fieldNN w) = w := by
  apply BitVec.eq_of_toNat_eq
  rw [toNat_wordXNN _ _ (fieldOp_lt w), fieldOp_eq, val_fieldX, toNat_fieldNN]
  omega

theorem wordOfNibbles_fields (w : Word) : wordOfNibbles (fieldOp w) (fieldX w) (fieldY w) (fieldN w) = w := by
  apply BitVec.eq_of_toNat_eq
  rw [toNat_wordOfNibbles (fieldOp_lt w) (fieldX w).isLt (fieldY w).isLt (fieldN w).isLt, fieldOp_eq, val_fieldX,
    val_fieldY, val_fieldN]
  omega

/-- A word is determined by its four nibbles. -/
theorem word_ext {w w' : Word} (hop : fieldOp w = fieldOp w') (hx : (fieldX w).val = (fieldX w').val)
    (hy : (fieldY w).val = (fieldY w').val) (hn : (fieldN w).val = (fieldN w').val) : w = w' := by
  rw [← wordOfNibbles_fields w, hop, hx, hy, hn, wordOfNibbles_fields]

/-! ### Decode after encode -/

/-- The amount of a scroll is the last nibble, which takes 16 values. -/
theorem decodeWord_encode_scd : ∀ n : Fin 16, decodeWord (encode (.scd n)) = some (.scd n) := by decide

/-- Settles O42: the rows without operands are fixed words, and each other row reads back the fields of its format. -/
theorem decodeOfEncode : Obligations.DecodeOfEncode := by
  intro i
  cases i with
  | cls | ret | scr | scl | exit | low | high => rfl
  | scd n => exact decodeWord_encode_scd n
  | ldReg | orReg | andReg | xorReg | addReg | subReg | shrReg | subnReg | shlReg =>
    simp [encode, decodeWord, decodeGroup8]
  | skp | sknp => simp [encode, decodeWord, decodeGroupE]
  | ldVxDT | ldVxK | ldDTVx | ldSTVx | addI | ldF | ldHF | ldB | ldMemVx | ldVxMem | ldRVx | ldVxR =>
    simp [encode, decodeWord, decodeGroupF]
  | _ => simp [encode, decodeWord]

/-! ### Encode after decode -/

theorem encode_of_decodeGroup0 {w : Word} {i : Instr} (hop : fieldOp w = 0) (hx : (fieldX w).val = 0)
    (h : decodeGroup0 w = some i) : encode i = w := by
  have hw : w.toNat = (fieldNN w).toNat := by
    rw [fieldOp_eq] at hop
    rw [val_fieldX] at hx
    rw [toNat_fieldNN]
    omega
  unfold decodeGroup0 at h
  split at h
  case h_8 =>
    obtain ⟨hy, h⟩ := Option.ite_none_right_eq_some.mp h
    cases h
    simpa only [encode, hop, hx, hy] using wordOfNibbles_fields w
  all_goals
    rename_i hnn
    cases h
    exact BitVec.eq_of_toNat_eq (by rw [hw, hnn]; rfl)

theorem encode_of_decodeGroup8 {w : Word} {i : Instr} (hop : fieldOp w = 8) (h : decodeGroup8 w = some i) :
    encode i = w := by
  unfold decodeGroup8 at h
  split at h
  case h_10 => cases h
  all_goals
    rename_i hn
    cases h
    simpa only [encode, hop, hn] using wordOfNibbles_fields w

/-- A word whose low byte is fixed, rebuilt from its register. -/
theorem wordXNN_of_fields {w : Word} {op : Nat} {nn : Byte} (hop : fieldOp w = op)
    (hnn : (fieldNN w).toNat = nn.toNat) : wordXNN op (fieldX w) nn = w := by
  rw [← hop, ← BitVec.eq_of_toNat_eq hnn, wordXNN_fields]

theorem encode_of_decodeGroupE {w : Word} {i : Instr} (hop : fieldOp w = 0xE) (h : decodeGroupE w = some i) :
    encode i = w := by
  unfold decodeGroupE at h
  split at h
  case h_3 => cases h
  all_goals
    rename_i hnn
    cases h
    exact wordXNN_of_fields hop hnn

theorem encode_of_decodeGroupF {w : Word} {i : Instr} (hop : fieldOp w = 0xF) (h : decodeGroupF w = some i) :
    encode i = w := by
  unfold decodeGroupF at h
  split at h
  case h_13 => cases h
  all_goals
    rename_i hnn
    cases h
    exact wordXNN_of_fields hop hnn

/-- Settles O43, by the leading nibble: each row's fields are all that its format holds. -/
theorem encodeOfDecode : Obligations.EncodeOfDecode := by
  intro w i h
  unfold decodeWord at h
  split at h <;> rename_i hop
  case h_1 =>
    obtain ⟨hx, h⟩ := Option.ite_none_right_eq_some.mp h
    exact encode_of_decodeGroup0 hop hx h
  case h_6 | h_10 =>
    obtain ⟨hn, h⟩ := Option.ite_none_right_eq_some.mp h
    cases h
    simpa only [encode, hop, hn] using wordOfNibbles_fields w
  case h_9 => exact encode_of_decodeGroup8 hop h
  case h_14 =>
    cases h
    simpa only [encode, hop] using wordOfNibbles_fields w
  case h_15 => exact encode_of_decodeGroupE hop h
  case h_16 => exact encode_of_decodeGroupF hop h
  case h_17 => cases h
  case h_2 | h_3 | h_11 | h_12 =>
    cases h
    simpa only [encode, hop] using wordA_fields w
  case h_4 | h_5 | h_7 | h_8 | h_13 =>
    cases h
    simpa only [encode, hop] using wordXNN_fields w

/-! ### The illegal words (R56) -/

theorem decodeGroup0_eq_none_iff {w : Word} (hw : w.toNat < 0x100) :
    decodeGroup0 w = none ↔
      w.toNat ≤ 0x00BF ∨ (0x00D0 ≤ w.toNat ∧ w.toNat ≤ 0x00DF) ∨ (0x00E1 ≤ w.toNat ∧ w.toNat ≤ 0x00ED) ∨
        (0x00EF ≤ w.toNat ∧ w.toNat ≤ 0x00FA) := by
  unfold decodeGroup0
  rw [toNat_fieldNN, Nat.mod_eq_of_lt hw, val_fieldY]
  split
  case h_8 =>
    simp only [imp_false] at *
    simp
    omega
  all_goals simp [*]

theorem decodeGroup8_eq_none_iff (w : Word) :
    decodeGroup8 w = none ↔ w.toNat % 16 ∈ [0x8, 0x9, 0xA, 0xB, 0xC, 0xD, 0xF] := by
  have hlt : w.toNat % 16 < 16 := Nat.mod_lt _ (by decide)
  unfold decodeGroup8
  rw [val_fieldN]
  split
  case h_10 =>
    simp only [imp_false] at *
    simp
    omega
  all_goals simp [*]

theorem decodeGroupE_eq_none_iff (w : Word) : decodeGroupE w = none ↔ w.toNat % 256 ∉ [0x9E, 0xA1] := by
  unfold decodeGroupE
  rw [toNat_fieldNN]
  split <;> simp_all

theorem decodeGroupF_eq_none_iff (w : Word) :
    decodeGroupF w = none ↔
      w.toNat % 256 ∉ [0x07, 0x0A, 0x15, 0x18, 0x1E, 0x29, 0x30, 0x33, 0x55, 0x65, 0x75, 0x85] := by
  unfold decodeGroupF
  rw [toNat_fieldNN]
  split <;> simp_all

/-- Settles O44, by the leading nibble, with one list of illegal words per group. -/
theorem illegalWordsAreTheListed : Obligations.IllegalWordsAreTheListed := by
  intro w
  have hlt := fieldOp_lt w
  unfold decodeWord
  split <;> rename_i hop
  case h_17 =>
    generalize fieldOp w = op at *
    interval_cases op <;> contradiction
  all_goals rw [fieldOp_eq] at hop
  case h_1 =>
    rw [val_fieldX]
    split
    · rw [decodeGroup0_eq_none_iff (by omega)]
      simp [hop]
      omega
    · simp [hop]
      omega
  case h_6 | h_10 =>
    rw [ite_eq_right_iff, val_fieldN]
    simp [hop]
    omega
  case h_9 => rw [decodeGroup8_eq_none_iff]; simp [hop]; omega
  case h_15 => rw [decodeGroupE_eq_none_iff]; simp [hop]; omega
  case h_16 => rw [decodeGroupF_eq_none_iff]; simp [hop]; omega
  all_goals simp [hop]; omega

/-! ### The masks of the opcode table (R53) -/

section Fields

variable (w m : Word) (k : Nat)

@[simp] theorem fieldOp_and : fieldOp (w &&& m) = fieldOp w &&& fieldOp m := by
  rw [fieldOp_eq, fieldOp_eq, fieldOp_eq, BitVec.toNat_and, Nat.and_div_two_pow (n := 12)]

@[simp] theorem val_fieldX_and : (fieldX (w &&& m)).val = (fieldX w).val &&& (fieldX m).val := by
  simp only [val_fieldX, BitVec.toNat_and, Nat.and_div_two_pow (n := 8), Nat.and_mod_two_pow (n := 4)]

@[simp] theorem val_fieldY_and : (fieldY (w &&& m)).val = (fieldY w).val &&& (fieldY m).val := by
  simp only [val_fieldY, BitVec.toNat_and, Nat.and_div_two_pow (n := 4), Nat.and_mod_two_pow (n := 4)]

@[simp] theorem val_fieldN_and : (fieldN (w &&& m)).val = (fieldN w).val &&& (fieldN m).val := by
  simp only [val_fieldN, BitVec.toNat_and, Nat.and_mod_two_pow (n := 4)]

@[simp] theorem fieldOp_ofNat : fieldOp (BitVec.ofNat 16 k) = k % 65536 / 4096 % 16 := by
  rw [fieldOp, BitVec.toNat_ofNat]

@[simp] theorem val_fieldX_ofNat : (fieldX (BitVec.ofNat 16 k)).val = k % 65536 / 256 % 16 := by
  rw [val_fieldX, BitVec.toNat_ofNat]

@[simp] theorem val_fieldY_ofNat : (fieldY (BitVec.ofNat 16 k)).val = k % 65536 / 16 % 16 := by
  rw [val_fieldY, BitVec.toNat_ofNat]

@[simp] theorem val_fieldN_ofNat : (fieldN (BitVec.ofNat 16 k)).val = k % 65536 % 16 := by
  rw [val_fieldN, BitVec.toNat_ofNat]

@[simp] theorem fieldNN_ofNat : fieldNN (BitVec.ofNat 16 k) = BitVec.ofNat 8 (k % 65536) := by
  rw [fieldNN, BitVec.toNat_ofNat]

end Fields

theorem val_fieldY_wordXNN {op : Nat} (x : RegIx) (nn : Byte) (hop : op < 16) :
    (fieldY (wordXNN op x nn)).val = nn.toNat / 16 := by
  have := nn.isLt
  rw [val_fieldY, toNat_wordXNN x nn hop]
  omega

theorem val_fieldN_wordXNN {op : Nat} (x : RegIx) (nn : Byte) (hop : op < 16) :
    (fieldN (wordXNN op x nn)).val = nn.toNat % 16 := by
  rw [val_fieldN, toNat_wordXNN x nn hop]
  omega

/-- An encoding matches its own row, nibble by nibble: the mask drops the operands and keeps the fixed nibbles. -/
theorem encode_and_mask (i : Instr) : encode i &&& i.row.mask = i.row.pattern := by
  cases i with
  | cls | ret | scr | scl | exit | low | high => decide
  | _ =>
    apply word_ext <;>
      simp [encode, Instr.row, val_fieldY_wordXNN, val_fieldN_wordXNN]

theorem nibble_eq_of_masked {a b m : Nat} (h : a &&& m = b &&& m) (hm : m = 15) (ha : a < 16) (hb : b < 16) :
    a = b := by
  rw [hm, Nat.and_two_pow_sub_one_eq_mod a 4, Nat.and_two_pow_sub_one_eq_mod b 4] at h
  omega

section Masked

variable {w w' m : Word} (h : w &&& m = w' &&& m)
include h

/-! Words that agree under a mask agree in every field that the mask keeps. -/

theorem fieldOp_eq_of_masked (hm : fieldOp m = 15) : fieldOp w = fieldOp w' :=
  nibble_eq_of_masked (by simpa using congrArg fieldOp h) hm (fieldOp_lt w) (fieldOp_lt w')

theorem fieldX_eq_of_masked (hm : (fieldX m).val = 15) : fieldX w = fieldX w' :=
  Fin.ext (nibble_eq_of_masked (by simpa using congrArg (fun v => (fieldX v).val) h) hm (fieldX w).isLt
    (fieldX w').isLt)

theorem fieldY_eq_of_masked (hm : (fieldY m).val = 15) : fieldY w = fieldY w' :=
  Fin.ext (nibble_eq_of_masked (by simpa using congrArg (fun v => (fieldY v).val) h) hm (fieldY w).isLt
    (fieldY w').isLt)

theorem fieldN_eq_of_masked (hm : (fieldN m).val = 15) : fieldN w = fieldN w' :=
  Fin.ext (nibble_eq_of_masked (by simpa using congrArg (fun v => (fieldN v).val) h) hm (fieldN w).isLt
    (fieldN w').isLt)

theorem fieldNN_eq_of_masked (hm : fieldNN m = 0xFF) : fieldNN w = fieldNN w' := by
  have hbyte : m.toNat % 256 = 255 := by rw [← toNat_fieldNN, hm]; rfl
  have hy := congrArg Fin.val (fieldY_eq_of_masked h (by rw [val_fieldY]; omega))
  have hn := congrArg Fin.val (fieldN_eq_of_masked h (by rw [val_fieldN]; omega))
  rw [val_fieldY, val_fieldY] at hy
  rw [val_fieldN, val_fieldN] at hn
  apply BitVec.eq_of_toNat_eq
  rw [toNat_fieldNN, toNat_fieldNN]
  omega

end Masked

/-- Every mask keeps the leading nibble. -/
theorem fieldOp_mask (i : Instr) : fieldOp i.row.mask = 15 := by
  cases i <;> simp [Instr.row]

/-- A word that matches the row of `i` shares with its encoding the fields that the row's mask keeps, which are those
the decoder dispatches on. -/
theorem decodeWord_of_matches_row {i : Instr} {w : Word} (h : w &&& i.row.mask = i.row.pattern) :
    ∃ j, decodeWord w = some j ∧ j.row = i.row := by
  rw [← encode_and_mask] at h
  have hop := fieldOp_eq_of_masked h (fieldOp_mask i)
  cases i with
  | cls | ret | scr | scl | exit | low | high =>
    have hx := fieldX_eq_of_masked h rfl
    have hy := fieldY_eq_of_masked h rfl
    have hn := fieldN_eq_of_masked h rfl
    rw [word_ext hop (congrArg Fin.val hx) (congrArg Fin.val hy) (congrArg Fin.val hn)]
    exact ⟨_, decodeOfEncode _, rfl⟩
  | scd n =>
    have hx := fieldX_eq_of_masked h (by simp [Instr.row])
    have hy := fieldY_eq_of_masked h (by simp [Instr.row])
    have hw : encode (.scd (fieldN w)) = w := by
      simpa [encode, hop, hx, hy] using wordOfNibbles_fields w
    rw [← hw]
    exact ⟨.scd (fieldN w), decodeOfEncode _, rfl⟩
  | seReg | ldReg | orReg | andReg | xorReg | addReg | subReg | shrReg | subnReg | shlReg | sneReg =>
    have hn := fieldN_eq_of_masked h (by simp [Instr.row])
    simp [decodeWord, decodeGroup8, hop, hn, encode, Instr.row]
  | skp | sknp | ldVxDT | ldVxK | ldDTVx | ldSTVx | addI | ldF | ldHF | ldB | ldMemVx | ldVxMem | ldRVx | ldVxR =>
    have hnn := fieldNN_eq_of_masked h (by simp [Instr.row])
    simp [decodeWord, decodeGroupE, decodeGroupF, hop, hnn, encode, Instr.row]
  | _ => simp [decodeWord, hop, encode, Instr.row]

/-- Settles O45, by `encode_and_mask` and `decodeWord_of_matches_row`. -/
theorem decodingFollowsTheMaskTable : Obligations.DecodingFollowsTheMaskTable :=
  ⟨encode_and_mask, fun _ _ => decodeWord_of_matches_row⟩

/-! ### The gates (R54) -/

/-- The dialect decides by the gate of the instruction's row. -/
theorem decode_encode_of_wf {c : VariantConfig} {i : Instr} (h : i.wf c = true) : decode c (encode i) = .ok i :=
  (Machine.decode_eq_ok_iff c _ i).mpr ⟨decodeOfEncode i, h⟩

theorem decode_encode_of_not_wf {c : VariantConfig} {i : Instr} (h : i.wf c = false) :
    ∃ g, i.gate = some g ∧ decode c (encode i) = .error (.gated g) := by
  unfold Instr.wf at h
  split at h
  · cases h
  · rename_i g hg
    refine ⟨g, hg, ?_⟩
    simp [decode, decodeOfEncode i, hg, h]

/-- Settles O46: the table of features is the gates of R54, so the enabled rows are the well-formed instructions. -/
theorem gatesOfTheDialect : Obligations.GatesOfTheDialect := by
  intro c i enabled h
  have hwf : enabled = i.wf c := by cases i <;> exact h
  subst hwf
  exact ⟨decode_encode_of_wf, decode_encode_of_not_wf⟩

/-- Settles O47, by evaluating the decoder. -/
theorem sampleWordsDecode : Obligations.SampleWordsDecode := by
  unfold Obligations.SampleWordsDecode
  decide

end Sys2Proof

/-! Frames: what each operation on the state leaves alone, and from that, once for all instructions, everything an
instruction can do to the state (10_state.md, the writers of each piece of state): complete in the frame of its
writers, or raise. -/

namespace Sys2Proof.Machine

/-! ### Frames of the operations -/

theorem Unchanged.refl (s : State) (c : Component) : Unchanged s s c := by
  cases c with
  | v | stack | fr | mem => exact ⟨rfl, fun _ => rfl⟩
  | fb => exact ⟨rfl, fun _ _ => rfl⟩
  | _ => exact Eq.refl _

theorem Unchanged.trans {s t u : State} {c : Component} (h : Unchanged s t c) (h' : Unchanged t u c) :
    Unchanged s u c := by
  cases c with
  | v | stack | fr | mem => exact ⟨h'.1.trans h.1, fun a => (h'.2 a).trans (h.2 a)⟩
  | fb => exact ⟨h'.1.trans h.1, fun r k => (h'.2 r k).trans (h.2 r k)⟩
  | _ => exact Eq.trans h' h

theorem KeepsAllBut.refl (cs : List Component) (s : State) : KeepsAllBut cs s s := fun c _ => Unchanged.refl s c

/-- Two operations in a row leave alone what both leave alone. -/
theorem KeepsAllBut.trans {cs ds : List Component} {s t u : State} (h : KeepsAllBut cs s t) (h' : KeepsAllBut ds t u) :
    KeepsAllBut (cs ++ ds) s u := fun c hc =>
  (h c fun hcs => hc (List.mem_append_left ds hcs)).trans (h' c fun hds => hc (List.mem_append_right cs hds))

/-- A frame may be composed with itself any number of times. -/
theorem KeepsAllBut.trans_same {cs : List Component} {s t u : State} (h : KeepsAllBut cs s t)
    (h' : KeepsAllBut cs t u) : KeepsAllBut cs s u := fun c hc => (h c hc).trans (h' c hc)

section Operations

variable (s : State)

/-- The fetch's advance of `pc` (R52). -/
theorem keepsAllBut_advance : KeepsAllBut [.pc] s s.advance := keepsAllBut_setPc s (s.pc + 2)

/-- A skip after it writes `pc` again (R61). -/
theorem keepsAllBut_advance_skipIf (c : Bool) : KeepsAllBut [.pc] s (s.advance.skipIf c) := by
  rw [State.advance_skipIf]
  exact keepsAllBut_setPc s _

theorem keepsAllBut_setI (a : Word) : KeepsAllBut [.i] s (s.setI a) := by
  intro c hc
  have hrefl := Unchanged.refl s c
  cases c with
  | i => exact absurd (by decide) hc
  | _ => exact hrefl

theorem keepsAllBut_setV (x : RegIx) (b : Byte) : KeepsAllBut [.v] s (s.setV x b) := fun c hc =>
  (unchanged_setV_iff fun e => hc (by simp [e])).mpr (Unchanged.refl s c)

theorem keepsAllBut_setResultFlag (x : RegIx) (r : Byte × Bool) : KeepsAllBut [.v] s (s.setResultFlag x r) :=
  (keepsAllBut_setV s x r.1).trans_same (keepsAllBut_setV _ flagReg _)

theorem keepsAllBut_setLogic (x : RegIx) (b : Byte) : KeepsAllBut [.v] s (s.setLogic x b) := by
  cases hq : s.params.cfg.logicQuirk with
  | false => rw [State.setLogic_of_no_quirk hq]; exact keepsAllBut_setV s x b
  | true => rw [State.setLogic_of_quirk hq]; exact (keepsAllBut_setV s x b).trans_same (keepsAllBut_setV _ flagReg 0)

theorem keepsAllBut_setVUpTo (x : RegIx) (f : RegIx → Byte) : KeepsAllBut [.v] s (s.setVUpTo x f) := by
  intro c hc
  have hrefl := Unchanged.refl s c
  cases c with
  | v => exact absurd (by decide) hc
  | _ => exact hrefl

theorem keepsAllBut_setFRUpTo (x : RegIx) (f : RegIx → Byte) : KeepsAllBut [.fr] s (s.setFRUpTo x f) := by
  intro c hc
  have hrefl := Unchanged.refl s c
  cases c with
  | fr => exact absurd (by decide) hc
  | _ => exact hrefl

theorem keepsAllBut_setRandom (x : RegIx) (rand nn : Byte) :
    KeepsAllBut [.v, .draws] s (s.setRandom x rand nn) := by
  intro c hc
  have hrefl := Unchanged.refl s c
  cases c with
  | v | draws => exact absurd (by decide) hc
  | _ => exact hrefl

theorem keepsAllBut_setFb (fb : Framebuffer) : KeepsAllBut [.fb] s (s.setFb fb) := by
  intro c hc
  have hrefl := Unchanged.refl s c
  cases c with
  | fb => exact absurd (by decide) hc
  | _ => exact hrefl

theorem keepsAllBut_switchRes (r : Resolution) : KeepsAllBut [.fb, .currRes] s (s.switchRes r) := by
  intro c hc
  have hrefl := Unchanged.refl s c
  cases c with
  | fb | currRes => exact absurd (by decide) hc
  | _ => exact hrefl

theorem keepsAllBut_draw (ps : List Pixel) : KeepsAllBut [.v, .fb, .vblankPending] s (s.draw ps) := by
  intro c hc
  have hrefl := Unchanged.refl s c
  cases c with
  | v | fb | vblankPending => exact absurd (by decide) hc
  | _ => exact hrefl

theorem keepsAllBut_setExec (e : ExecState) : KeepsAllBut [.execState] s (s.setExec e) := by
  intro c hc
  have hrefl := Unchanged.refl s c
  cases c with
  | execState => exact absurd (by decide) hc
  | _ => exact hrefl

theorem keepsAllBut_writeBytes (a : Nat) (ws : List Byte) : KeepsAllBut [.mem] s (s.writeBytes a ws) := by
  intro c hc
  rw [State.writeBytes_eq]
  have hrefl := Unchanged.refl s c
  cases c with
  | mem => exact absurd (by decide) hc
  | _ => exact hrefl

/-- The dump with its post-increment (R91). -/
theorem keepsAllBut_advance_writeBytes_setI (a : Nat) (ws : List Byte) (i : Word) :
    KeepsAllBut [.pc, .i, .mem] s ((s.advance.writeBytes a ws).setI i) :=
  (((keepsAllBut_advance s).trans (keepsAllBut_writeBytes _ a ws)).trans (keepsAllBut_setI _ i)).mono (by decide)

/-- The load with its post-increment (R92). -/
theorem keepsAllBut_advance_setVUpTo_setI (x : RegIx) (f : RegIx → Byte) (i : Word) :
    KeepsAllBut [.pc, .i, .v] s ((s.advance.setVUpTo x f).setI i) :=
  (((keepsAllBut_advance s).trans (keepsAllBut_setVUpTo _ x f)).trans (keepsAllBut_setI _ i)).mono (by decide)

/-- Fault entry writes the fault register alone (R116). -/
theorem keepsAllBut_enterFault (cause : FaultCause) (opcode : Option Word) (addr : Option Nat) :
    KeepsAllBut [.fault] s (s.enterFault cause opcode addr) := by
  intro c hc
  have hrefl := Unchanged.refl s c
  cases c with
  | fault => exact absurd (by decide) hc
  | _ => exact hrefl

theorem keepsAllBut_of_pop {s t : State} {a : Word} (h : s.pop = some (a, t)) : KeepsAllBut [.sp] s t := by
  obtain ⟨-, -, rfl⟩ := State.pop_eq_some h
  intro c hc
  have hrefl := Unchanged.refl s c
  cases c with
  | sp => exact absurd (by decide) hc
  | _ => exact hrefl

theorem keepsAllBut_of_push {s t : State} {a : Word} (h : s.push a = some t) : KeepsAllBut [.sp, .stack] s t := by
  obtain ⟨-, rfl⟩ := State.push_eq_some h
  intro c hc
  have hrefl := Unchanged.refl s c
  cases c with
  | sp | stack => exact absurd (by decide) hc
  | _ => exact hrefl

/-- A return from the advanced state (R62). -/
theorem keepsAllBut_pop_setPc {t : State} {a : Word} (h : s.advance.pop = some (a, t)) (target : Word) :
    KeepsAllBut [.pc, .sp] s (t.setPc target) :=
  ((keepsAllBut_advance s).trans (keepsAllBut_of_pop h)).trans_same ((keepsAllBut_setPc t target).mono (by decide))

/-- A call from the advanced state (R63). -/
theorem keepsAllBut_push_setPc {t : State} {a : Word} (h : s.advance.push a = some t) (target : Word) :
    KeepsAllBut [.pc, .sp, .stack] s (t.setPc target) :=
  ((keepsAllBut_advance s).trans (keepsAllBut_of_push h)).trans_same ((keepsAllBut_setPc t target).mono (by decide))

end Operations

/-! ### Return, call and draw -/

/-- RET with an entry on the stack, and on an empty stack (R62). -/
theorem exec_ret_cases (s : State) :
    (0 < s.sp ∧ ∃ t, s.advance.pop = some (s.stackEntry (s.sp - 1), t) ∧
        exec .ret s = .next (t.setPc (s.stackEntry (s.sp - 1)))) ∨
      (s.sp = 0 ∧ exec .ret s = .next (s.enterFault .stackUnderflow (some (encode .ret)) none)) := by
  by_cases hsp : s.sp = 0
  · have hpop : s.advance.pop = none := if_pos hsp
    exact .inr ⟨hsp, by simp only [exec, execRet, hpop]; rfl⟩
  · have hpop : s.advance.pop = some (s.stackEntry (s.sp - 1), _) := if_neg hsp
    exact .inl ⟨Nat.pos_of_ne_zero hsp, _, hpop, by simp only [exec, execRet, hpop]⟩

/-- CALL with a free entry, and on a full stack (R63). -/
theorem exec_call_cases (nnn : Addr12) (s : State) :
    (s.sp < 16 ∧ ∃ t, s.advance.push (s.pc + 2) = some t ∧
        exec (.call nnn) s = .next (t.setPc (nnn.setWidth 16))) ∨
      (16 ≤ s.sp ∧ exec (.call nnn) s = .next (s.enterFault .stackOverflow (some (encode (.call nnn))) none)) := by
  by_cases hsp : s.sp < 16
  · have hpush : s.advance.push (s.pc + 2) = some _ := if_pos hsp
    exact .inl ⟨hsp, _, hpush, by simp only [exec, execCall, State.advance_pc, hpush]⟩
  · have hpush : s.advance.push (s.pc + 2) = none := if_neg hsp
    exact .inr ⟨Nat.le_of_not_lt hsp, by simp only [exec, execCall, State.advance_pc, hpush]; rfl⟩

/-- DRW of a sprite in memory (R98). -/
theorem exec_drw {x y : RegIx} {n : Fin 16} {s : State} (h : s.spriteInMemory n) :
    exec (.drw x y n) s = .next (s.advance.draw (s.spritePixels x y n)) :=
  checkRange_spriteInMemory (.drw x y n) s n _ h

/-! ### Everything an instruction can do -/

/-- The pieces of state an instruction may write when it completes (10_state.md). -/
def writtenBy : Instr → List Component
  | .cls | .scd _ | .scr | .scl => [.pc, .fb]
  | .low | .high => [.pc, .fb, .currRes]
  | .exit | .ldVxK _ => [.pc, .execState]
  | .ret => [.pc, .sp]
  | .call _ => [.pc, .sp, .stack]
  | .jp _ | .jpV0 _ | .seImm _ _ | .sneImm _ _ | .seReg _ _ | .sneReg _ _ | .skp _ | .sknp _ => [.pc]
  | .ldImm _ _ | .addImm _ _ | .ldReg _ _ | .orReg _ _ | .andReg _ _ | .xorReg _ _ | .addReg _ _ | .subReg _ _
  | .shrReg _ _ | .subnReg _ _ | .shlReg _ _ | .ldVxDT _ | .ldVxR _ => [.pc, .v]
  | .rnd _ _ => [.pc, .v, .draws]
  | .ldI _ | .addI _ | .ldF _ | .ldHF _ => [.pc, .i]
  | .drw _ _ _ => [.pc, .v, .fb, .vblankPending]
  | .ldDTVx _ => [.pc, .dt]
  | .ldSTVx _ => [.pc, .st]
  | .ldB _ => [.pc, .mem]
  | .ldMemVx _ => [.pc, .i, .mem]
  | .ldVxMem _ => [.pc, .i, .v]
  | .ldRVx _ => [.pc, .fr]

/-- The jumps, CALL, RET and the skips: the instructions that may leave another `pc` than the next word's. -/
def branches : Instr → Bool
  | .ret | .jp _ | .call _ | .jpV0 _ | .seImm _ _ | .sneImm _ _ | .seReg _ _ | .sneReg _ _ | .skp _ | .sknp _ => true
  | _ => false

/-- The instruction has run to its end in the frame of its writers, and `pc` has advanced by 2 unless it branches. -/
def Completes (i : Instr) (s t : State) : Prop :=
  KeepsAllBut (writtenBy i) s t ∧ (branches i = false → t.pc = s.pc + 2)

/-- When an executing instruction may raise, and what it then reports (60_exceptions.md R114). -/
def MayRaise (i : Instr) (s : State) (cause : FaultCause) (addr : Option Nat) : Prop :=
  (i = .ret ∧ s.sp = 0 ∧ cause = .stackUnderflow ∧ addr = none) ∨
    ((∃ nnn, i = .call nnn) ∧ 16 ≤ s.sp ∧ cause = .stackOverflow ∧ addr = none) ∨
    (((∃ x y n, i = .drw x y n) ∨ (∃ x, i = .ldB x ∨ i = .ldMemVx x ∨ i = .ldVxMem x)) ∧
      cause = .addressOutOfRange ∧ addr = some (max s.i.toNat 0x1000))

/-- The instruction has raised: only the fault register is written, with the instruction's own address and word. -/
def Raises (i : Instr) (s t : State) : Prop :=
  ∃ cause addr, MayRaise i s cause addr ∧ t = s.enterFault cause (some (encode i)) addr

/-- An instruction that answers `u` completes when `u` is in the frame of its writers. -/
theorem completes_of_exec {i : Instr} {s u : State} (hexec : exec i s = .next u)
    (hframe : KeepsAllBut (writtenBy i) s u) (hpc : branches i = false → u.pc = s.pc + 2) :
    ∃ t, exec i s = .next t ∧ (Completes i s t ∨ Raises i s t) :=
  ⟨u, hexec, .inl ⟨hframe, hpc⟩⟩

/-- What a range check before `u` has answered. -/
theorem checkRange_next {i : Instr} {s t u : State} {base len : Nat}
    (h : checkRange i s base len (.next u) = .next t) :
    ((len = 0 ∨ base + len ≤ 0x1000) ∧ t = u) ∨
      t = s.enterFault .addressOutOfRange (some (encode i)) (some (max base 0x1000)) := by
  rcases checkRange_cases i s base len (.next u) with ⟨-, -, hraise⟩ | ⟨hin, hgo⟩
  · cases h.symm.trans hraise
    exact .inr rfl
  · cases h.symm.trans hgo
    exact .inl ⟨hin, rfl⟩

/-- The same behind a range check, which may raise instead (R84). -/
theorem completes_or_raises_of_checkRange {i : Instr} {s u : State} {len : Nat}
    (hi : (∃ x y n, i = .drw x y n) ∨ (∃ x, i = .ldB x ∨ i = .ldMemVx x ∨ i = .ldVxMem x))
    (hexec : exec i s = checkRange i s s.i.toNat len (.next u)) (hframe : KeepsAllBut (writtenBy i) s u)
    (hpc : u.pc = s.pc + 2) : ∃ t, exec i s = .next t ∧ (Completes i s t ∨ Raises i s t) := by
  rcases checkRange_cases i s s.i.toNat len (.next u) with ⟨-, -, hraise⟩ | ⟨-, hgo⟩
  · exact ⟨_, hexec.trans hraise, .inr ⟨_, _, .inr (.inr ⟨hi, rfl, rfl⟩), rfl⟩⟩
  · exact completes_of_exec (hexec.trans hgo) hframe fun _ => hpc

/-- Everything an instruction can do: it always answers a next state, in which it has completed or raised. -/
theorem exec_completes_or_raises (i : Instr) (s : State) :
    ∃ t, exec i s = .next t ∧ (Completes i s t ∨ Raises i s t) := by
  have hadv := keepsAllBut_advance s
  cases i with
  | cls | scd | scr | scl => exact completes_of_exec rfl (hadv.trans (keepsAllBut_setFb _ _)) fun _ => rfl
  | low | high => exact completes_of_exec rfl (hadv.trans (keepsAllBut_switchRes _ _)) fun _ => rfl
  | exit | ldVxK => exact completes_of_exec rfl (hadv.trans (keepsAllBut_setExec _ _)) fun _ => rfl
  | ret =>
    rcases exec_ret_cases s with ⟨-, t, hpop, hexec⟩ | ⟨hsp, hexec⟩
    · exact completes_of_exec hexec (keepsAllBut_pop_setPc s hpop _) nofun
    · exact ⟨_, hexec, .inr ⟨_, _, .inl ⟨rfl, hsp, rfl, rfl⟩, rfl⟩⟩
  | call nnn =>
    rcases exec_call_cases nnn s with ⟨-, t, hpush, hexec⟩ | ⟨hsp, hexec⟩
    · exact completes_of_exec hexec (keepsAllBut_push_setPc s hpush _) nofun
    · exact ⟨_, hexec, .inr ⟨_, _, .inr (.inl ⟨⟨nnn, rfl⟩, hsp, rfl, rfl⟩), rfl⟩⟩
  | jp | jpV0 => exact completes_of_exec rfl (keepsAllBut_setPc s _) nofun
  | seImm | sneImm | seReg | sneReg | skp | sknp =>
    exact completes_of_exec rfl (keepsAllBut_advance_skipIf s _) nofun
  | ldImm | addImm | ldReg | ldVxDT => exact completes_of_exec rfl (hadv.trans (keepsAllBut_setV _ _ _)) fun _ => rfl
  | orReg | andReg | xorReg =>
    exact completes_of_exec rfl (hadv.trans (keepsAllBut_setLogic _ _ _)) fun _ => by rw [State.setLogic_eq]; rfl
  | addReg | subReg | shrReg | subnReg | shlReg =>
    exact completes_of_exec rfl (hadv.trans (keepsAllBut_setResultFlag _ _ _)) fun _ => rfl
  | rnd => exact completes_of_exec rfl (hadv.trans (keepsAllBut_setRandom _ _ _ _)) fun _ => rfl
  | ldI | addI | ldF | ldHF => exact completes_of_exec rfl (keepsAllBut_advance_setI s _) fun _ => rfl
  | ldDTVx => exact completes_of_exec rfl (keepsAllBut_advance_setDt s _) fun _ => rfl
  | ldSTVx => exact completes_of_exec rfl (keepsAllBut_advance_setSt s _) fun _ => rfl
  | ldRVx => exact completes_of_exec rfl (hadv.trans (keepsAllBut_setFRUpTo _ _ _)) fun _ => rfl
  | ldVxR => exact completes_of_exec rfl (hadv.trans (keepsAllBut_setVUpTo _ _ _)) fun _ => rfl
  | drw x y n =>
    exact completes_or_raises_of_checkRange (.inl ⟨x, y, n, rfl⟩) rfl (hadv.trans (keepsAllBut_draw _ _)) rfl
  | ldB x =>
    exact completes_or_raises_of_checkRange (.inr ⟨x, .inl rfl⟩) rfl (hadv.trans (keepsAllBut_writeBytes _ _ _))
      (State.writeBytes_pc _ _ _)
  | ldMemVx x =>
    exact completes_or_raises_of_checkRange (.inr ⟨x, .inr (.inl rfl)⟩) rfl
      (keepsAllBut_advance_writeBytes_setI s _ _ _) (State.writeBytes_pc _ _ _)
  | ldVxMem x =>
    exact completes_or_raises_of_checkRange (.inr ⟨x, .inr (.inr rfl)⟩) rfl
      (keepsAllBut_advance_setVUpTo_setI s _ _ _) rfl

/-- The same as a case split on what an instruction has answered. -/
theorem exec_cases {i : Instr} {s t : State} (h : exec i s = .next t) : Completes i s t ∨ Raises i s t := by
  obtain ⟨u, hu, hcases⟩ := exec_completes_or_raises i s
  cases h.symm.trans hu
  exact hcases

/-- An instruction leaves alone all but the fault register and what it is named a writer of. -/
theorem unchanged_of_exec {i : Instr} {s t : State} {c : Component} (h : exec i s = .next t) (hc : c ∉ writtenBy i)
    (hf : c ≠ .fault) : Unchanged s t c := by
  rcases exec_cases h with ⟨hframe, -⟩ | ⟨cause, addr, -, rfl⟩
  · exact hframe c hc
  · exact keepsAllBut_enterFault s _ _ _ c (by simpa using hf)

/-- What completes writes no fault register, no parameter, no key and no load window. -/
theorem notWritten (i : Instr) : ∀ c ∈ [Component.fault, .params, .keys, .loadOpen], c ∉ writtenBy i := by
  cases i <;> simp [writtenBy]

end Sys2Proof.Machine

/-! The writers of each piece of state, and precise faults: each statement reads off `exec_cases` which instructions
name the piece in `writtenBy`, or which may raise. -/

namespace Sys2Proof.Machine

/-! ### Which instructions are named as writers -/

section Writers

variable {i : Instr}

theorem eq_of_writes_v : .v ∈ writtenBy i →
    (∃ x nn, i = .ldImm x nn ∨ i = .addImm x nn ∨ i = .rnd x nn) ∨
      (∃ x y, i = .ldReg x y ∨ i = .orReg x y ∨ i = .andReg x y ∨ i = .xorReg x y ∨ i = .addReg x y ∨ i = .subReg x y ∨
        i = .shrReg x y ∨ i = .subnReg x y ∨ i = .shlReg x y) ∨
      (∃ x y n, i = .drw x y n) ∨ ∃ x, i = .ldVxDT x ∨ i = .ldVxMem x ∨ i = .ldVxR x := by
  cases i <;> simp [writtenBy]

theorem eq_of_branches : branches i = true →
    i = .ret ∨ (∃ nnn, i = .jp nnn ∨ i = .call nnn ∨ i = .jpV0 nnn) ∨
      (∃ x nn, i = .seImm x nn ∨ i = .sneImm x nn) ∨ (∃ x y, i = .seReg x y ∨ i = .sneReg x y) ∨
      ∃ x, i = .skp x ∨ i = .sknp x := by
  cases i <;> simp [branches]

theorem eq_of_writes_dt : .dt ∈ writtenBy i → ∃ x, i = .ldDTVx x := by
  cases i <;> simp [writtenBy]

theorem eq_of_writes_st : .st ∈ writtenBy i → ∃ x, i = .ldSTVx x := by
  cases i <;> simp [writtenBy]

theorem eq_of_writes_mem : .mem ∈ writtenBy i → ∃ x, i = .ldB x ∨ i = .ldMemVx x := by
  cases i <;> simp [writtenBy]

theorem eq_of_writes_fr : .fr ∈ writtenBy i → ∃ x, i = .ldRVx x := by
  cases i <;> simp [writtenBy]

theorem eq_of_writes_stack : .stack ∈ writtenBy i → ∃ nnn, i = .call nnn := by
  cases i <;> simp [writtenBy]

theorem eq_of_writes_sp : .sp ∈ writtenBy i → i = .ret ∨ ∃ nnn, i = .call nnn := by
  cases i <;> simp [writtenBy]

theorem eq_of_writes_i : .i ∈ writtenBy i →
    (∃ nnn, i = .ldI nnn) ∨ ∃ x, i = .addI x ∨ i = .ldF x ∨ i = .ldHF x ∨ i = .ldMemVx x ∨ i = .ldVxMem x := by
  cases i <;> simp [writtenBy]

theorem eq_of_writes_currRes : .currRes ∈ writtenBy i → i = .low ∨ i = .high := by
  cases i <;> simp [writtenBy]

theorem eq_of_writes_fb : .fb ∈ writtenBy i →
    i = .cls ∨ i = .scr ∨ i = .scl ∨ i = .low ∨ i = .high ∨ (∃ n, i = .scd n) ∨ ∃ x y n, i = .drw x y n := by
  cases i <;> simp [writtenBy]

theorem eq_of_writes_execState : .execState ∈ writtenBy i → i = .exit ∨ ∃ x, i = .ldVxK x := by
  cases i <;> simp [writtenBy]

theorem eq_of_writes_vblankPending : .vblankPending ∈ writtenBy i → ∃ x y n, i = .drw x y n := by
  cases i <;> simp [writtenBy]

theorem eq_of_writes_draws : .draws ∈ writtenBy i → ∃ x nn, i = .rnd x nn := by
  cases i <;> simp [writtenBy]

end Writers

/-! ### What has changed was written -/

section Exec

variable {i : Instr} {s t : State} (h : exec i s = .next t)
include h

theorem written_of_changed {c : Component} (hne : ¬ Unchanged s t c) (hf : c ≠ .fault) : c ∈ writtenBy i :=
  not_imp_comm.mp (fun hc => unchanged_of_exec h hc hf) hne

theorem exec_params : t.params = s.params := unchanged_of_exec h (notWritten i .params (by decide)) nofun

theorem exec_keys : t.keys = s.keys := unchanged_of_exec h (notWritten i .keys (by decide)) nofun

theorem exec_loadOpen : t.loadOpen = s.loadOpen := unchanged_of_exec h (notWritten i .loadOpen (by decide)) nofun

/-- Another fault register than before means that the instruction raised. -/
theorem raises_of_fault_ne (hf : t.fault ≠ s.fault) : Raises i s t :=
  (exec_cases h).resolve_left fun hc => hf (hc.1 .fault (notWritten i .fault (by decide)))

/-- DRW changes the vblank signal under its quirk only (R99). -/
theorem vblankQuirk_of_changed (hne : t.vblankPending ≠ s.vblankPending) :
    s.params.cfg.vblankQuirk = true ∧ ∃ x y n, i = .drw x y n := by
  obtain ⟨x, y, n, rfl⟩ := eq_of_writes_vblankPending (written_of_changed h (c := .vblankPending) hne nofun)
  refine ⟨?_, x, y, n, rfl⟩
  rcases checkRange_next h with ⟨-, rfl⟩ | rfl
  · cases hq : s.params.cfg.vblankQuirk with
    | true => rfl
    | false => exact absurd (by simp [State.draw, hq]) hne
  · exact absurd rfl hne

/-- `pc` advances by 2 but for the branches, and but for what raises, which keeps it. -/
theorem pc_cases : t.pc = s.pc + 2 ∨ branches i = true ∨ Raises i s t := by
  rcases exec_cases h with ⟨-, hpc⟩ | hraise
  · cases hb : branches i with
    | true => exact .inr (.inl rfl)
    | false => exact .inl (hpc hb)
  · exact .inr (.inr hraise)

end Exec

/-! ### The obligations -/

/-- Settles O39: an active unit's cycle answers in each of its three outcomes, and any other unit answers itself. -/
theorem everyStepAnswers : Obligations.EveryStepAnswers := by
  intro s hp
  by_cases ha : s.active
  · rw [step_of_active hp ha]
    unfold cycle
    split
    · unfold runWord
      split
      · rename_i i _
        obtain ⟨t, ht, -⟩ := exec_completes_or_raises i { s with loadOpen := false }
        exact ⟨t, ht⟩
      · exact ⟨_, rfl⟩
    · exact ⟨_, rfl⟩
  · exact ⟨s, step_of_not_active hp ha⟩

/-- Settles O38: only a raise writes the fault register, and it writes nothing else. -/
theorem faultsArePrecise : Obligations.FaultsArePrecise := by
  intro i s t h hf
  obtain ⟨cause, addr, hmay, rfl⟩ := raises_of_fault_ne h hf
  exact ⟨keepsAllBut_enterFault s _ _ _, cause, addr, rfl, hmay⟩

/-- Settles O40, component by component. -/
theorem writersOfEachPieceOfState : Obligations.WritersOfEachPieceOfState := by
  intro i s t h
  have written {c : Component} (hne : ¬ Unchanged s t c) (hf : c ≠ .fault) : c ∈ writtenBy i :=
    written_of_changed h hne hf
  refine ⟨exec_params h, exec_keys h, exec_loadOpen h,
    fun hne => eq_of_writes_v (written (fun hu => hne hu.1) nofun), fun hpc => ?_, fun hf => ?_,
    fun hne => eq_of_writes_dt (written hne nofun), fun hne => eq_of_writes_st (written hne nofun),
    fun hne => eq_of_writes_mem (written (fun hu => hne hu.1) nofun),
    fun hne => eq_of_writes_fr (written (fun hu => hne hu.1) nofun),
    fun hne => eq_of_writes_stack (written (fun hu => hne hu.1) nofun),
    fun hne => eq_of_writes_sp (written hne nofun), fun hne => eq_of_writes_i (written hne nofun),
    fun hne => eq_of_writes_currRes (written hne nofun),
    fun hne => eq_of_writes_fb (written (fun hu => hne hu.1) nofun),
    fun hne => eq_of_writes_execState (written hne nofun), vblankQuirk_of_changed h,
    fun hne => eq_of_writes_draws (written hne nofun)⟩
  · rcases pc_cases h with hpc' | hb | ⟨cause, addr, hmay, rfl⟩
    · exact absurd hpc' hpc
    · exact .inl (eq_of_branches hb)
    · rcases hmay with ⟨rfl, -⟩ | ⟨⟨nnn, rfl⟩, -⟩ | ⟨hi, -⟩
      · exact .inl (.inl rfl)
      · exact .inl (.inr (.inl ⟨nnn, .inr (.inl rfl)⟩))
      · exact .inr ⟨rfl, nofun, hi⟩
  · obtain ⟨cause, addr, hmay, -⟩ := raises_of_fault_ne h hf
    rcases hmay with ⟨hi, -⟩ | ⟨hi, -⟩ | ⟨hi, -⟩
    · exact .inl hi
    · exact .inr (.inl hi)
    · exact .inr (.inr hi)

/-! ### Register by register -/

section Registers

variable {s : State} {x r : RegIx}

theorem eq_of_setV_changed {b : Byte} (h : (s.setV x b).getV r ≠ s.getV r) : r = x :=
  of_not_not fun hr => h (State.getV_setV_other s x r b hr)

theorem eq_of_setResultFlag_changed {res : Byte × Bool} (h : (s.setResultFlag x res).getV r ≠ s.getV r) :
    r = x ∨ r = flagReg := by
  by_contra hr
  obtain ⟨hx, hflag⟩ := not_or.mp hr
  exact h (by rw [State.getV_setResultFlag, if_neg hflag, if_neg hx])

theorem eq_of_setLogic_changed {b : Byte} (h : (s.setLogic x b).getV r ≠ s.getV r) :
    r = x ∨ (r = flagReg ∧ s.params.cfg.logicQuirk = true) := by
  by_contra hr
  obtain ⟨hx, hflag⟩ := not_or.mp hr
  exact h (by rw [State.getV_setLogic, if_neg hflag, if_neg hx])

theorem le_of_setVUpTo_changed {f : RegIx → Byte} (h : (s.setVUpTo x f).getV r ≠ s.getV r) : r ≤ x :=
  of_not_not fun hr => h (by rw [State.getV_setVUpTo, if_neg hr])

theorem eq_of_draw_changed {ps : List Pixel} (h : (s.draw ps).getV r ≠ s.getV r) : r = flagReg :=
  of_not_not fun hr => h (by rw [State.getV_draw, if_neg hr])

end Registers

/-- Settles O41: each writer of `V` goes through one register operation, which says what it may change. -/
theorem writersOfGeneralRegisters : Obligations.WritersOfGeneralRegisters := by
  intro i s t r h hne
  cases i with
  | ldImm | addImm | rnd | ldReg | ldVxDT =>
    cases h
    obtain rfl := eq_of_setV_changed (s := s.advance) hne
    simp
  | orReg | andReg | xorReg =>
    cases h
    rcases eq_of_setLogic_changed (s := s.advance) hne with rfl | ⟨rfl, hq⟩
    · simp
    · exact .inr (.inr (.inr (.inr ⟨rfl, .inr (.inl ⟨hq, by simp⟩)⟩)))
  | addReg | subReg | shrReg | subnReg | shlReg =>
    cases h
    rcases eq_of_setResultFlag_changed (s := s.advance) hne with rfl | rfl
    · simp
    · exact .inr (.inr (.inr (.inr ⟨rfl, .inl (by simp)⟩)))
  | drw x y n =>
    rcases checkRange_next h with ⟨-, rfl⟩ | rfl
    · exact .inr (.inr (.inr (.inr ⟨eq_of_draw_changed (s := s.advance) hne, .inr (.inr ⟨x, y, n, rfl⟩)⟩)))
    · exact absurd rfl hne
  | ldVxMem x =>
    rcases checkRange_next h with ⟨-, rfl⟩ | rfl
    · exact .inr (.inr (.inr (.inl ⟨x, le_of_setVUpTo_changed (s := s.advance) hne, .inl rfl⟩)))
    · exact absurd rfl hne
  | ldVxR x =>
    cases h
    exact .inr (.inr (.inr (.inl ⟨x, le_of_setVUpTo_changed (s := s.advance) hne, .inr rfl⟩)))
  | _ => exact absurd ((unchanged_of_exec h (c := .v) (by simp [writtenBy]) nofun).2 r) hne

end Sys2Proof.Machine

/-! One step: fetch, decode and execute (30_encoding.md R52), and the invariant of 10_state.md R31, which every step and
every other transaction of the host keeps. -/

namespace Sys2Proof.Machine

/-! ### The cycle -/

/-- A word stored high byte first reads back (R39). -/
theorem wordOfBytes_highByte_lowByte (w : Word) : wordOfBytes (highByte w) (lowByte w) = w := by
  have := w.isLt
  apply BitVec.eq_of_toNat_eq
  simp only [wordOfBytes, highByte, lowByte, BitVec.toNat_ofNat]
  omega

/-- The load window closes at the first step (log 6), and nothing else changes by that. -/
theorem keepsAllBut_closeLoad (s : State) : KeepsAllBut [.loadOpen] s { s with loadOpen := false } := by
  intro c hc
  have hrefl := Unchanged.refl s c
  cases c with
  | loadOpen => exact absurd (by decide) hc
  | _ => exact hrefl

section Cycle

variable {s : State} (hp : s.params.wf = true) (ha : s.active)
include hp ha

theorem step_of_fetch {w : Word} (hfetch : s.fetch = .ok w) : step s = runWord { s with loadOpen := false } w := by
  rw [step_of_active hp ha, cycle, show State.fetch { s with loadOpen := false } = .ok w from hfetch]

theorem step_of_fetch_inside (hpc : s.pc.toNat ≤ 0xFFE) :
    step s = runWord { s with loadOpen := false }
      (wordOfBytes (s.readByte s.pc.toNat) (s.readByte (s.pc.toNat + 1))) :=
  step_of_fetch hp ha (State.fetch_inside s hpc)

theorem step_of_fetch_outside (hpc : 0xFFE < s.pc.toNat) :
    step s = .next (State.enterFault { s with loadOpen := false } .addressOutOfRange none
      (some (max s.pc.toNat 0x1000))) := by
  rw [step_of_active hp ha, cycle, State.fetch_outside { s with loadOpen := false } hpc]
  rfl

end Cycle

theorem runWord_of_decode {s : State} {w : Word} {i : Instr} (h : decode s.params.cfg w = .ok i) :
    runWord s w = exec i s := by
  rw [runWord, h]

theorem runWord_of_reject {s : State} {w : Word} (h : ∀ i, decode s.params.cfg w ≠ .ok i) :
    runWord s w = .next (s.enterFault .illegalInstruction (some w) none) := by
  unfold runWord
  split
  · rename_i i hi
    exact absurd hi (h i)
  · rfl

/-- Settles O35: the fetch gives the word, and the cycle runs what it decodes to. -/
theorem stepRunsTheDecodedInstruction : Obligations.StepRunsTheDecodedInstruction := by
  intro s i hp hf hrun hpc hdecode
  rw [step_of_fetch_inside hp ⟨hf, hrun⟩ hpc]
  exact runWord_of_decode hdecode

/-- Settles O36: the two bytes make up the encoding, which the dialect decodes to the instruction. -/
theorem stepRunsTheEncodedInstruction : Obligations.StepRunsTheEncodedInstruction := by
  intro s i hp hf hrun hpc hwf hbytes
  obtain ⟨hhi, hlo⟩ : s.readByte s.pc.toNat = highByte (encode i) ∧
      s.readByte (s.pc.toNat + 1) = lowByte (encode i) := by
    simpa [encodeBytes] using hbytes
  refine stepRunsTheDecodedInstruction s i hp hf hrun hpc ?_
  rw [hhi, hlo, wordOfBytes_highByte_lowByte]
  exact decode_encode_of_wf hwf

/-- Settles O37: either raise enters its fault after the load window has closed. -/
theorem fetchAndDecodeFaults : Obligations.FetchAndDecodeFaults := by
  intro s hp hf hrun
  have hframe (cause opcode addr) :
      KeepsAllBut [.fault, .loadOpen] s (State.enterFault { s with loadOpen := false } cause opcode addr) :=
    ((keepsAllBut_closeLoad s).trans (keepsAllBut_enterFault _ cause opcode addr)).mono (by decide)
  refine ⟨fun hpc => ⟨_, step_of_fetch_outside hp ⟨hf, hrun⟩ hpc, rfl, hframe _ _ _⟩, ?_⟩
  rintro hpc w rfl hreject
  refine ⟨_, (step_of_fetch_inside hp ⟨hf, hrun⟩ hpc).trans (runWord_of_reject hreject), rfl, hframe _ _ _⟩

/-! ### The invariant, field by field -/

/-- The invariant does not need the load window open. -/
theorem State.Inv.closeLoad {s : State} (h : s.Inv) : State.Inv { s with loadOpen := false } :=
  { h with load_open := nofun }

/-- A running unit past its load window may take a fault. -/
theorem State.Inv.enterFault {s : State} (h : s.Inv) (hrun : s.execState = .running) (hload : s.loadOpen = false)
    (cause : FaultCause) (opcode : Option Word) (addr : Option Nat) : (s.enterFault cause opcode addr).Inv :=
  { h with
    fault_running := fun _ => hrun
    load_open := fun ho => absurd ho (by simp [hload]) }

section Exec

variable {i : Instr} {s t : State} (hs : s.Inv) (h : exec i s = .next t)
include hs h

theorem exec_keeps_mem_wf : t.memWf := by
  by_cases hm : t.mem = s.mem
  · simpa only [State.memWf, exec_params h, hm] using hs.mem_wf
  have hadv : s.advance.memWf := hs.mem_wf
  obtain ⟨x, rfl | rfl⟩ := eq_of_writes_mem (written_of_changed h (c := .mem) (fun hu => hm hu.1) nofun)
  · rcases checkRange_next h with ⟨hin, rfl⟩ | rfl
    · exact State.writeBytes_memWf hadv (by simpa [bcdDigits] using hin)
    · exact hs.mem_wf
  · rcases checkRange_next h with ⟨hin, rfl⟩ | rfl
    · have hlen : (s.vUpTo x).length = x.val + 1 := by simp [State.vUpTo]
      exact State.writeBytes_memWf hadv (by rw [hlen]; simpa using hin)
    · exact hs.mem_wf

theorem exec_keeps_fb_wf :
    Framebuffer.wf t.params.cfg.maxRes.height t.params.cfg.maxRes.width t.fb = true := by
  rw [exec_params h]
  by_cases hfb : t.fb = s.fb
  · rw [hfb]
    exact hs.fb_wf
  rcases eq_of_writes_fb (written_of_changed h (c := .fb) (fun hu => hfb hu.1) nofun) with
    rfl | rfl | rfl | rfl | rfl | ⟨n, rfl⟩ | ⟨x, y, n, rfl⟩
  · cases h; rfl
  · cases h; exact Framebuffer.scrollRight_wf _ hs.fb_wf
  · cases h; exact Framebuffer.scrollLeft_wf _ hs.fb_wf
  · cases h; rfl
  · cases h; rfl
  · cases h; exact Framebuffer.scrollDown_wf _ hs.fb_wf
  · rcases checkRange_next h with ⟨-, rfl⟩ | rfl
    · obtain ⟨hx, hy⟩ := State.scale_pos hs.params_wf hs.res_mem
      exact Framebuffer.xorAll_wf hs.fb_wf fun q hq => ((State.mem_spritePixels s x y n q.1 q.2 hx hy).mp hq).1
    · exact hs.fb_wf

theorem exec_keeps_sp_le : t.sp ≤ 16 := by
  by_cases hsp : t.sp = s.sp
  · exact hsp.trans_le hs.sp_le
  rcases eq_of_writes_sp (written_of_changed h (c := .sp) hsp nofun) with rfl | ⟨nnn, rfl⟩
  · rcases exec_ret_cases s with ⟨-, u, hpop, hexec⟩ | ⟨-, hexec⟩ <;> cases h.symm.trans hexec
    · obtain ⟨-, -, rfl⟩ := State.pop_eq_some hpop
      exact (Nat.sub_le _ _).trans hs.sp_le
    · exact hs.sp_le
  · rcases exec_call_cases nnn s with ⟨hlt, u, hpush, hexec⟩ | ⟨-, hexec⟩ <;> cases h.symm.trans hexec
    · obtain ⟨-, rfl⟩ := State.push_eq_some hpush
      exact hlt
    · exact hs.sp_le

theorem exec_keeps_res_known : t.currRes = t.params.cfg.baseRes ∨ t.currRes = t.params.cfg.maxRes := by
  rw [exec_params h]
  by_cases hr : t.currRes = s.currRes
  · rw [hr]
    exact hs.res_known
  rcases eq_of_writes_currRes (written_of_changed h (c := .currRes) hr nofun) with rfl | rfl
  · cases h; exact .inl rfl
  · cases h; exact .inr rfl

/-- A call from inside memory pushes at most 0x1000 (R63). -/
theorem exec_keeps_stack_le (hpc : s.pc.toNat ≤ 0xFFE) (k : Nat) : (t.stackEntry k).toNat ≤ 0x1000 := by
  by_cases hst : Unchanged s t .stack
  · exact (congrArg BitVec.toNat (hst.2 k)).trans_le (hs.stack_le k)
  obtain ⟨nnn, rfl⟩ := eq_of_writes_stack (written_of_changed h hst nofun)
  rcases exec_call_cases nnn s with ⟨-, u, hpush, hexec⟩ | ⟨-, hexec⟩ <;> cases h.symm.trans hexec
  · have hentry := stackEntry_push hpush k
    rw [State.setPc_stackEntry, hentry]
    split
    · rw [BitVec.toNat_add]
      simp
      omega
    · exact hs.stack_le k
  · exact hs.stack_le k

/-- From inside memory `pc` reaches at most 0x10FE, by JP V0 (R16). -/
theorem exec_keeps_pc_le (hpc : s.pc.toNat ≤ 0xFFE) : t.pc.toNat ≤ 0x10FE := by
  have hskip (c : Bool) : (s.advance.skipIf c).pc.toNat ≤ 0x10FE := by
    rw [State.advance_skipIf, State.setPc_pc]
    cases c <;> simp <;> omega
  have haddr (nnn : Addr12) : (nnn.setWidth 16 : Word).toNat ≤ 0xFFF := by
    have := nnn.isLt
    simp
    omega
  rcases pc_cases h with hnext | hb | ⟨cause, addr, -, rfl⟩
  · rw [hnext]
    simp
    omega
  · rcases eq_of_branches hb with rfl | ⟨nnn, rfl | rfl | rfl⟩ | ⟨x, nn, rfl | rfl⟩ | ⟨x, y, rfl | rfl⟩ | ⟨x, rfl | rfl⟩
    · rcases exec_ret_cases s with ⟨-, u, -, hexec⟩ | ⟨-, hexec⟩ <;> cases h.symm.trans hexec
      · exact (hs.stack_le _).trans (by decide)
      · exact hs.pc_le
    · cases h; exact (haddr nnn).trans (by decide)
    · rcases exec_call_cases nnn s with ⟨-, u, -, hexec⟩ | ⟨-, hexec⟩ <;> cases h.symm.trans hexec
      · exact (haddr nnn).trans (by decide)
      · exact hs.pc_le
    · cases h
      have hn := haddr nnn
      have hv := (s.getV (jumpOffsetReg s.params.cfg nnn)).isLt
      simp at hn ⊢
      omega
    all_goals cases h; exact hskip _
  · exact hs.pc_le

/-- Without its quirk the vblank signal stays false (R142). -/
theorem exec_keeps_vblank_quirk (hv : t.vblankPending = true) : t.params.cfg.vblankQuirk = true := by
  rw [exec_params h]
  by_cases hvb : t.vblankPending = s.vblankPending
  · exact hs.vblank_quirk (hvb ▸ hv)
  · exact (vblankQuirk_of_changed h hvb).1

/-- The invariant holds after an instruction, whether it completes or raises. -/
theorem exec_keeps_inv (ha : s.active) (hload : s.loadOpen = false) (hpc : s.pc.toNat ≤ 0xFFE) : t.Inv := by
  rcases exec_cases h with ⟨hframe, -⟩ | ⟨cause, addr, -, rfl⟩
  · have hfault : t.fault = none := Eq.trans (hframe .fault (notWritten i .fault (by decide))) ha.1
    have hclosed : t.loadOpen = false := (exec_loadOpen h).trans hload
    exact {
      params_wf := by rw [exec_params h]; exact hs.params_wf
      mem_wf := exec_keeps_mem_wf hs h
      fb_wf := exec_keeps_fb_wf hs h
      sp_le := exec_keeps_sp_le hs h
      res_known := exec_keeps_res_known hs h
      pc_le := exec_keeps_pc_le hs h hpc
      stack_le := exec_keeps_stack_le hs h hpc
      fault_running := fun hf => absurd hfault hf
      vblank_quirk := exec_keeps_vblank_quirk hs h
      load_open := fun ho => absurd ho (by simp [hclosed]) }
  · exact hs.enterFault ha.2 hload _ _ _

end Exec

/-- Settles O51: a step does nothing, takes a fault, or executes one instruction with the load window closed. -/
theorem stepKeepsTheInvariant : Obligations.StepKeepsTheInvariant := by
  intro s t hs h
  obtain ⟨-, ⟨-, rfl⟩ | ⟨ha, -, rfl⟩ | ⟨ha, hpc, w, -, ⟨-, rfl⟩ | ⟨i, -, hexec⟩⟩⟩ := step_cases h
  · exact hs
  · exact hs.closeLoad.enterFault ha.2 rfl _ _ _
  · exact hs.closeLoad.enterFault ha.2 rfl _ _ _
  · exact exec_keeps_inv hs.closeLoad hexec ha rfl hpc

end Sys2Proof.Machine

/-! The host's transactions other than the step (60_exceptions.md): key events, the frame tick and the ROM load, each in
its frame, and that they keep the invariant, which holds from construction on. -/

namespace Sys2Proof.Machine

/-! ### Frames of the transactions -/

section Frames

variable (s : State)

theorem keepsAllBut_setKeys (a : BitVec 16) : KeepsAllBut [.keys] s { s with keys := a } := by
  intro c hc
  have hrefl := Unchanged.refl s c
  cases c with
  | keys => exact absurd (by decide) hc
  | _ => exact hrefl

theorem keepsAllBut_decrementOnce : KeepsAllBut [.dt, .st, .vblankPending] s (decrementOnce s) := by
  intro c hc
  have hrefl := Unchanged.refl s c
  cases c with
  | dt | st | vblankPending => exact absurd (by decide) hc
  | _ => exact hrefl

/-- The state after a load that succeeded (R38). -/
theorem keepsAllBut_load (a : Nat) (bytes : List Byte) :
    KeepsAllBut [.mem, .loadOpen] s { s.writeBytes a bytes with loadOpen := false } :=
  (keepsAllBut_writeBytes s a bytes).trans (keepsAllBut_closeLoad _)

/-- A release that ends a wait writes the awaited register and `exec_state`. -/
theorem keepsAllBut_resolveWait (k : Nat) : KeepsAllBut [.v, .execState] s (s.resolveWait k) := by
  rcases State.resolveWait_cases s k with ⟨r, -, -, ht⟩ | ⟨-, ht⟩ <;> rw [ht]
  · exact (keepsAllBut_setV s r _).trans (keepsAllBut_setExec _ .running)
  · exact KeepsAllBut.refl _ s

end Frames

/-! ### Key events and the frame tick -/

theorem getLsbD_keyBit {j k : Nat} (hj : j < 16) : (keyBit k).getLsbD j = decide (j = k) := by
  rw [keyBit, BitVec.getLsbD_ofNat, Nat.testBit_two_pow]
  simp [hj, eq_comm]

theorem pressKey_of_le {k : Nat} (hk : k ≤ 15) (s : State) :
    pressKey k s = .next { s with keys := s.keys ||| keyBit k } := if_pos hk

theorem releaseKey_of_le {k : Nat} (hk : k ≤ 15) (s : State) :
    releaseKey k s = .next (State.resolveWait { s with keys := s.keys &&& ~~~(keyBit k) } k) := if_pos hk

theorem toNat_countDown (b : Byte) : (countDown b).toNat = b.toNat - 1 := by
  unfold countDown
  split
  · rename_i hb
    subst hb
    rfl
  · rename_i hb
    have : b.toNat ≠ 0 := fun h => hb (BitVec.eq_of_toNat_eq h)
    bv_omega

/-- Settles O53: a press and a release each write the mask, and a release then ends a wait as
`State.resolveWait_cases` says. -/
theorem keyEvents : Obligations.KeyEvents := by
  intro k s
  refine ⟨fun hk => ⟨if_neg (by omega), if_neg (by omega)⟩, fun hk => ⟨?_, ?_⟩⟩
  · refine ⟨_, pressKey_of_le hk s, fun j hj => ?_, keepsAllBut_setKeys s _⟩
    rw [BitVec.getLsbD_or, getLsbD_keyBit hj, Bool.or_comm]
  · have hkeys := keepsAllBut_setKeys s (s.keys &&& ~~~(keyBit k))
    refine ⟨_, releaseKey_of_le hk s, fun j hj => ?_, fun r hf hwait => ?_, fun hno => ?_⟩
    · have hmask := keepsAllBut_resolveWait { s with keys := s.keys &&& ~~~(keyBit k) } k .keys (by decide)
      rw [show State.keys _ = _ from hmask, BitVec.getLsbD_and, BitVec.getLsbD_not, getLsbD_keyBit hj, Bool.and_comm]
      simp [hj]
    · rcases State.resolveWait_cases { s with keys := s.keys &&& ~~~(keyBit k) } k with
        ⟨q, -, hq, ht⟩ | ⟨hno, -⟩
      · cases hwait.symm.trans hq
        rw [ht]
        refine ⟨?_, fun q hq => State.getV_setV_other _ r q _ hq, rfl,
          hkeys.trans ((keepsAllBut_setV _ r _).trans (keepsAllBut_setExec _ .running))⟩
        have hv := State.getV_setV_same { s with keys := s.keys &&& ~~~(keyBit k) } r (BitVec.ofNat 8 k)
        refine (congrArg BitVec.toNat hv).trans ?_
        simp
        omega
      · exact absurd hno (by simp [hf, hwait])
    · rcases State.resolveWait_cases { s with keys := s.keys &&& ~~~(keyBit k) } k with
        ⟨q, hf, hq, -⟩ | ⟨-, ht⟩
      · rcases hno with hno | hno
        · exact absurd hf hno
        · exact absurd hq (hno q)
      · rw [ht]
        exact hkeys

/-- Settles O54, timer by timer. -/
theorem frameTick : Obligations.FrameTick := fun s =>
  ⟨toNat_countDown s.dt, toNat_countDown s.st, rfl, keepsAllBut_decrementOnce s⟩

/-! ### The ROM load -/

theorem loadRom_of_open {bytes : List Byte} {s : State} (hopen : s.loadOpen = true)
    (hfits : bytes.length ≤ 4096 - s.params.cfg.pcStart.toNat) :
    loadRom bytes s = .next { s.writeBytes s.params.cfg.pcStart.toNat bytes with loadOpen := false } := by
  rw [loadRom, hopen, (romFits_iff bytes s).mpr hfits]
  rfl

theorem loadRom_of_closed (bytes : List Byte) {s : State} (hclosed : s.loadOpen = false) :
    loadRom bytes s = .fault .romLoadError := by
  rw [loadRom, hclosed]
  rfl

/-- The loaded bytes, read back from `pc_start` on. -/
theorem readByte_loaded {s : State} (hs : s.memWf) {bytes : List Byte}
    (hfits : bytes.length ≤ 4096 - s.params.cfg.pcStart.toNat) {k : Nat} {b : Byte} (hb : bytes[k]? = some b) :
    (s.writeBytes s.params.cfg.pcStart.toNat bytes).readByte (s.params.cfg.pcStart.toNat + k) = b := by
  obtain ⟨hk, rfl⟩ := List.getElem?_eq_some_iff.mp hb
  have := s.params.cfg.pcStart.isLt
  exact State.readByte_writeBytes_inside hs _ k bytes (by omega) hk

/-- No step leaves the load window open (log 6): an active unit's step closes it, and for any other unit it is closed
already. -/
theorem loadOpen_after_step {s t : State} (hs : s.Inv) (h : step s = .next t) : t.loadOpen = false := by
  obtain ⟨-, ⟨hidle, rfl⟩ | ⟨-, -, rfl⟩ | ⟨-, -, w, -, ⟨-, rfl⟩ | ⟨i, -, hexec⟩⟩⟩ := step_cases h
  · exact Bool.eq_false_iff.mpr fun ho => hidle (hs.load_open ho)
  · rfl
  · rfl
  · exact exec_loadOpen hexec

/-- Settles O55: a load that succeeds closes its own window, as a step does. -/
theorem loadRomOnce : Obligations.LoadRomOnce := by
  intro bytes s hs
  refine ⟨fun hopen hfits => ⟨_, loadRom_of_open hopen hfits, fun k b hb => readByte_loaded hs.mem_wf hfits hb,
    fun a ha => State.readByte_writeBytes_outside s _ a bytes ha, keepsAllBut_load s _ bytes,
    fun more => loadRom_of_closed more rfl⟩, ?_, fun t h => loadRom_of_closed bytes (loadOpen_after_step hs h)⟩
  rintro (hclosed | hlong)
  · exact loadRom_of_closed bytes hclosed
  · rcases loadRom_cases bytes s with ⟨-, hfits, -⟩ | ⟨-, hfail⟩
    · have := (romFits_iff bytes s).mp hfits
      omega
    · exact hfail

/-! ### The invariant -/

theorem State.stackEntry_init (p : Params) (k : Nat) : (State.init p).stackEntry k = 0 := by
  simp only [State.stackEntry, State.init, Vector.toList_replicate, List.getD_eq_getElem?_getD, List.getElem?_replicate]
  split
  · rfl
  · rfl

/-- The invariant holds in every constructed state. -/
theorem State.init_inv {p : Params} (hp : p.wf = true) : (State.init p).Inv where
  params_wf := hp
  mem_wf := State.init_memWf p
  fb_wf := rfl
  sp_le := Nat.zero_le 16
  res_known := .inl rfl
  pc_le := by
    have := p.cfg.pcStart.isLt
    simp [State.init]
    omega
  stack_le k := by
    rw [State.stackEntry_init]
    decide
  fault_running := fun h => absurd rfl h
  vblank_quirk := nofun
  load_open := fun _ => ⟨rfl, rfl⟩

theorem State.construct_eq_some {p : Params} {s : State} (h : State.construct p = some s) :
    p.wf = true ∧ s = State.init p := by
  obtain ⟨hp, hs⟩ := Option.ite_none_right_eq_some.mp h
  exact ⟨hp, (Option.some.inj hs).symm⟩

/-- Settles O50: `State.reset` is constructed from parameters that are well formed. -/
theorem invariantAtReset : Obligations.InvariantAtReset := by
  refine ⟨State.init_inv (by decide), fun p s h => ?_⟩
  obtain ⟨hp, rfl⟩ := State.construct_eq_some h
  exact State.init_inv hp

/-- The invariant speaks of no key. -/
theorem State.Inv.setKeys {s : State} (hs : s.Inv) (a : BitVec 16) : State.Inv { s with keys := a } := { hs with }

/-- The end of a key wait keeps the invariant: the unit has no fault, and its load window is closed while it waits. -/
theorem State.Inv.resolveWait {s : State} (hs : s.Inv) (k : Nat) : (s.resolveWait k).Inv := by
  rcases State.resolveWait_cases s k with ⟨r, hf, hwait, ht⟩ | ⟨-, ht⟩ <;> rw [ht]
  · exact { hs with
      fault_running := fun _ => rfl
      load_open := fun ho => ⟨hf, rfl⟩ }
  · exact hs

/-- Settles O52, transaction by transaction. -/
theorem transactionsKeepTheInvariant : Obligations.TransactionsKeepTheInvariant := by
  intro tr s t hstep hs h
  cases tr with
  | step => exact absurd rfl hstep
  | loadRom bytes =>
    obtain ⟨-, hfits, rfl⟩ := loadRom_next h
    have := s.params.cfg.pcStart.isLt
    have hmem := State.writeBytes_memWf (ws := bytes) hs.mem_wf (a := s.params.cfg.pcStart.toNat)
      (by have := (romFits_iff bytes s).mp hfits; omega)
    rw [State.memWf, State.writeBytes_params] at hmem
    rw [State.writeBytes_eq]
    exact { hs with
      mem_wf := hmem
      load_open := nofun }
  | decrementOnce =>
    cases h
    exact { hs with vblank_quirk := nofun }
  | pressKey k =>
    obtain ⟨-, rfl⟩ := pressKey_next h
    exact hs.setKeys _
  | releaseKey k =>
    obtain ⟨-, rfl⟩ := releaseKey_next h
    exact (hs.setKeys _).resolveWait k

end Sys2Proof.Machine

/-! The state after reset (70_reset_and_hazards.md R134, R135): its values, and its memory, the fonts at their bases. -/

namespace Sys2Proof.Machine

/-- R25: the base resolution is the first entry of a well-formed configuration. -/
theorem head?_resolutions {c : VariantConfig} (h : c.wf = true) : c.resolutions.head? = some c.baseRes := by
  rw [VariantConfig.baseRes, List.headD_eq_head?_getD, List.head?_eq_some_head (VariantConfig.resolutions_ne_nil h)]
  rfl

/-- R25: the maximum is its last. -/
theorem getLast?_resolutions {c : VariantConfig} (h : c.wf = true) : c.resolutions.getLast? = some c.maxRes := by
  rw [VariantConfig.maxRes, List.getLastD_eq_getLast?,
    List.getLast?_eq_some_getLast (VariantConfig.resolutions_ne_nil h)]
  rfl

/-! ### The fonts -/

theorem initialByte_small {p : Params} {k : Nat} (hk : k < 80) :
    initialByte p (p.smallFontBase + k) = p.fontSmall.getD k 0 := by
  rw [initialByte, if_pos (by omega), Nat.add_sub_cancel_left]

/-- The tables are disjoint, so the small font does not hide the big one (R36). -/
theorem initialByte_big {p : Params} (hp : p.wf = true) {k : Nat} (hk : k < 16 * p.bigGlyphBytes) :
    initialByte p (p.bigFontBase + k) = bigFontByte p k := by
  obtain ⟨-, -, -, hdisjoint⟩ := Params.fonts_of_wf hp
  rw [initialByte, if_neg (by omega), if_pos (by omega), Nat.add_sub_cancel_left]

theorem initialByte_outside {p : Params} {a : Nat} (hsmall : a < p.smallFontBase ∨ p.smallFontEnd ≤ a)
    (hbig : a < p.bigFontBase ∨ p.bigFontEnd ≤ a) : initialByte p a = 0 := by
  unfold Params.smallFontEnd at hsmall
  unfold Params.bigFontEnd at hbig
  rw [initialByte, if_neg (by omega), if_neg (by omega)]

/-- Nothing is listed at reset, so every address reads as its initial byte (log 14). -/
theorem State.readByte_init (p : Params) (a : Nat) : (State.init p).readByte a = initialByte p a := rfl

/-! ### The obligations -/

/-- Settles O48: the first resolution exists, since a well-formed configuration has one. -/
theorem resetValues : Obligations.ResetValues := by
  intro p
  refine ⟨fun hp => if_neg (by simp [hp]), fun hp => ⟨State.init p, if_pos hp, rfl, fun r => ?_, rfl, ?_,
    State.stackEntry_init p, rfl, rfl, rfl, rfl, rfl, rfl, fun r => ?_, head?_resolutions (Params.cfg_of_wf hp),
    fun r c => rfl, rfl⟩⟩
  · simp [State.getV, State.init]
  · exact BitVec.toNat_setWidth_of_le (by decide)
  · simp [State.getFR, State.init]

/-- Settles O49, table by table. -/
theorem resetMemory : Obligations.ResetMemory := by
  intro p hp
  obtain ⟨hsmall, hbig⟩ := Params.fontSizes_of_wf hp
  refine ⟨fun k b hb => ?_, fun big k b hsome hb => ?_, fun a => initialByte_outside⟩
  · obtain ⟨hk, -⟩ := List.getElem?_eq_some_iff.mp hb
    rw [State.readByte_init, initialByte_small (hsmall ▸ hk), List.getD_eq_getElem?_getD, hb]
    rfl
  · obtain ⟨hk, -⟩ := List.getElem?_eq_some_iff.mp hb
    rw [State.readByte_init, initialByte_big hp (hbig big hsome ▸ hk), bigFontByte, hsome]
    dsimp only
    rw [List.getD_eq_getElem?_getD, hb]
    rfl

end Sys2Proof.Machine

/-! Sequences of the host's transactions: units that a step does not run, units that spin, the draws between two frame
ticks, and the runs that keep the host's duties. Each is one lemma on a single transaction, carried along the
sequence. -/

namespace Sys2Proof.Machine

/-! ### One transaction

A transaction that fails changes nothing, so each frame holds whether or not it succeeds. -/

theorem after_loadRom_keeps (bytes : List Byte) (s : State) :
    KeepsAllBut [.mem, .loadOpen] s (after (.loadRom bytes) s) := by
  rcases after_cases (.loadRom bytes) s with hnext | hsame
  · obtain ⟨-, -, ht⟩ := loadRom_next hnext
    rw [ht]
    exact keepsAllBut_load s _ bytes
  · rw [hsame]
    exact KeepsAllBut.refl _ s

theorem after_pressKey_keeps (k : Nat) (s : State) : KeepsAllBut [.keys] s (after (.pressKey k) s) := by
  rcases after_cases (.pressKey k) s with hnext | hsame
  · obtain ⟨-, ht⟩ := pressKey_next hnext
    rw [ht]
    exact keepsAllBut_setKeys s _
  · rw [hsame]
    exact KeepsAllBut.refl _ s

theorem after_releaseKey_keeps (k : Nat) (s : State) :
    KeepsAllBut [.keys, .v, .execState] s (after (.releaseKey k) s) := by
  rcases after_cases (.releaseKey k) s with hnext | hsame
  · obtain ⟨-, ht⟩ := releaseKey_next hnext
    rw [ht]
    exact (keepsAllBut_setKeys s _).trans (keepsAllBut_resolveWait _ k)
  · rw [hsame]
    exact KeepsAllBut.refl _ s

/-- A release writes the mask alone where no wait of a unit without a fault is to end. -/
theorem after_releaseKey_keeps_of_no_wait (k : Nat) {s : State}
    (h : s.fault ≠ none ∨ ∀ r, s.execState ≠ .waitingForKey r) : KeepsAllBut [.keys] s (after (.releaseKey k) s) := by
  rcases after_cases (.releaseKey k) s with hnext | hsame
  · obtain ⟨-, ht⟩ := releaseKey_next hnext
    rw [ht]
    rcases State.resolveWait_cases { s with keys := s.keys &&& ~~~(keyBit k) } k with ⟨r, hf, hwait, -⟩ | ⟨-, hw⟩
    · rcases h with h | h
      · exact absurd hf h
      · exact absurd hwait (h r)
    · rw [hw]
      exact keepsAllBut_setKeys s _
  · rw [hsame]
    exact KeepsAllBut.refl _ s

/-- A step writes no parameter, and leaves a closed load window closed. -/
theorem after_step_params_loadOpen (s : State) :
    (after .step s).params = s.params ∧ (s.loadOpen = false → (after .step s).loadOpen = false) := by
  rcases after_cases .step s with hnext | hsame
  · obtain ⟨-, ⟨-, ht⟩ | ⟨-, -, ht⟩ | ⟨-, -, w, -, ⟨-, ht⟩ | ⟨i, -, hexec⟩⟩⟩ := step_cases hnext
    · rw [ht]
      exact ⟨rfl, id⟩
    · rw [ht]
      exact ⟨rfl, fun _ => rfl⟩
    · rw [ht]
      exact ⟨rfl, fun _ => rfl⟩
    · exact ⟨exec_params (s := { s with loadOpen := false }) hexec, fun _ => exec_loadOpen hexec⟩
  · rw [hsame]
    exact ⟨rfl, id⟩

/-- No transaction writes the parameters (R3, log 1). -/
theorem after_params (tr : Transaction) (s : State) : (after tr s).params = s.params := by
  cases tr with
  | loadRom bytes => exact after_loadRom_keeps bytes s .params (by decide)
  | step => exact (after_step_params_loadOpen s).1
  | decrementOnce => rfl
  | pressKey k => exact after_pressKey_keeps k s .params (by decide)
  | releaseKey k => exact after_releaseKey_keeps k s .params (by decide)

/-- A load on a closed window fails (R118). -/
theorem after_loadRom_of_closed (bytes : List Byte) {s : State} (hclosed : s.loadOpen = false) :
    after (.loadRom bytes) s = s := by
  rw [after, perform, loadRom_of_closed bytes hclosed]

/-- A closed load window stays closed (log 6). -/
theorem after_loadOpen_of_closed (tr : Transaction) {s : State} (hclosed : s.loadOpen = false) :
    (after tr s).loadOpen = false := by
  cases tr with
  | loadRom bytes => rw [after_loadRom_of_closed bytes hclosed, hclosed]
  | step => exact (after_step_params_loadOpen s).2 hclosed
  | decrementOnce => exact hclosed
  | pressKey k => exact Eq.trans (after_pressKey_keeps k s .loadOpen (by decide)) hclosed
  | releaseKey k => exact Eq.trans (after_releaseKey_keeps k s .loadOpen (by decide)) hclosed

/-- Only a step and a tick write the vblank signal. -/
theorem after_vblankPending {tr : Transaction} (s : State) (hstep : tr ≠ .step) (htick : tr ≠ .decrementOnce) :
    (after tr s).vblankPending = s.vblankPending := by
  cases tr with
  | loadRom bytes => exact after_loadRom_keeps bytes s .vblankPending (by decide)
  | step => exact absurd rfl hstep
  | decrementOnce => exact absurd rfl htick
  | pressKey k => exact after_pressKey_keeps k s .vblankPending (by decide)
  | releaseKey k => exact after_releaseKey_keeps k s .vblankPending (by decide)

/-- Key events and ticks leave `pc` and memory alone. -/
theorem after_keeps_of_event {tr : Transaction} (s : State) (hstep : tr ≠ .step)
    (hload : ∀ bytes, tr ≠ .loadRom bytes) :
    KeepsAllBut [.keys, .dt, .st, .vblankPending, .v, .execState] s (after tr s) := by
  cases tr with
  | loadRom bytes => exact absurd rfl (hload bytes)
  | step => exact absurd rfl hstep
  | decrementOnce => exact (keepsAllBut_decrementOnce s).mono (by decide)
  | pressKey k => exact (after_pressKey_keeps k s).mono (by decide)
  | releaseKey k => exact (after_releaseKey_keeps k s).mono (by decide)

/-! ### A unit that no step runs (R107, R110, R117) -/

/-- A step leaves a unit that is not active as it is. -/
theorem after_step_of_idle {s : State} (hidle : ¬ s.active) : after .step s = s := by
  rcases after_cases .step s with hnext | hsame
  · obtain ⟨-, ⟨-, ht⟩ | ⟨ha, -⟩ | ⟨ha, -⟩⟩ := step_cases hnext
    · exact ht
    · exact absurd ha hidle
    · exact absurd ha hidle
  · exact hsame

/-- One transaction on a unit that is not active, past its load window, and not released from a wait. -/
theorem after_keeps_of_idle {tr : Transaction} {s : State} (hidle : ¬ s.active) (hclosed : s.loadOpen = false)
    (hrel : (∀ k, tr ≠ .releaseKey k) ∨ s.fault ≠ none ∨ ∀ r, s.execState ≠ .waitingForKey r) :
    KeepsAllBut [.keys, .dt, .st, .vblankPending] s (after tr s) := by
  cases tr with
  | loadRom bytes =>
    rw [after_loadRom_of_closed bytes hclosed]
    exact KeepsAllBut.refl _ s
  | step =>
    rw [after_step_of_idle hidle]
    exact KeepsAllBut.refl _ s
  | decrementOnce => exact (keepsAllBut_decrementOnce s).mono (by decide)
  | pressKey k => exact (after_pressKey_keeps k s).mono (by decide)
  | releaseKey k =>
    have hno := hrel.resolve_left fun h => h k rfl
    exact (after_releaseKey_keeps_of_no_wait k hno).mono (by decide)

/-- The same along a sequence: what makes the unit idle is in the frame. -/
theorem afterAll_keeps_of_idle {trs : List Transaction} {s : State} (hidle : ¬ s.active) (hclosed : s.loadOpen = false)
    (hrel : (∀ k, .releaseKey k ∉ trs) ∨ s.fault ≠ none ∨ ∀ r, s.execState ≠ .waitingForKey r) :
    KeepsAllBut [.keys, .dt, .st, .vblankPending] s (afterAll trs s) := by
  induction trs generalizing s with
  | nil => exact KeepsAllBut.refl _ s
  | cons tr trs ih =>
    have hone : KeepsAllBut [.keys, .dt, .st, .vblankPending] s (after tr s) :=
      after_keeps_of_idle hidle hclosed (hrel.imp_left fun h k e => h k (e ▸ List.mem_cons_self))
    have hfault : (after tr s).fault = s.fault := hone .fault (by decide)
    have hexec : (after tr s).execState = s.execState := hone .execState (by decide)
    refine hone.trans_same (ih ?_ (Eq.trans (hone .loadOpen (by decide)) hclosed) ?_)
    · rwa [State.active, hfault, hexec]
    · rw [hfault, hexec]
      exact hrel.imp_left fun h k hk => h k (List.mem_cons_of_mem _ hk)

/-- A unit of the invariant that is not active is past its load window. -/
theorem State.Inv.loadOpen_of_idle {s : State} (hs : s.Inv) (hidle : ¬ s.active) : s.loadOpen = false :=
  Bool.eq_false_iff.mpr fun ho => hidle (hs.load_open ho)

/-- Settles O56: a halted or faulted unit is idle, and no release ends a wait in it. -/
theorem stoppedUnitStaysStopped : Obligations.StoppedUnitStaysStopped := by
  intro trs s hs hstop
  have hidle : ¬ s.active := by
    rintro ⟨hf, hrun⟩
    rcases hstop with h | h
    · exact h hf
    · cases hrun.symm.trans h
  refine afterAll_keeps_of_idle hidle (hs.loadOpen_of_idle hidle) (.inr (hstop.imp_right fun hhalt r hwait => ?_))
  cases hhalt.symm.trans hwait

/-- Settles O57: a waiting unit is idle. -/
theorem keyWaitHolds : Obligations.KeyWaitHolds := by
  intro trs s r hs hwait hrel
  have hidle : ¬ s.active := by
    rintro ⟨-, hrun⟩
    cases hrun.symm.trans hwait
  exact afterAll_keeps_of_idle hidle (hs.loadOpen_of_idle hidle) (.inl hrel)

/-! ### A unit that spins (R137) -/

theorem fetch_congr {s t : State} (hpc : t.pc = s.pc) (hread : ∀ a, t.readByte a = s.readByte a) :
    t.fetch = s.fetch := by
  simp only [State.fetch, hpc, hread]

/-- Whether a run has ended does not depend on the timers, the vblank signal or the load window. -/
theorem runEnd_congr {s t : State} (h : KeepsAllBut [.dt, .st, .vblankPending, .loadOpen] s t) :
    runEnd t = runEnd s := by
  have hpc : t.pc = s.pc := h .pc (by decide)
  have hfault : t.fault = s.fault := h .fault (by decide)
  have hexec : t.execState = s.execState := h .execState (by decide)
  have hfetch := fetch_congr hpc (h .mem (by decide)).2
  rw [runEnd, runEnd, hfault, hexec, spinsHere, spinsHere, hfetch, hpc]

/-- What it says of a unit that it spins: it is active, and the word at `pc` is a jump to itself. -/
theorem spins_of_runEnd {s : State} (h : runEnd s = some .spinning) :
    s.active ∧ s.pc.toNat ≤ 0xFFE ∧
      wordOfBytes (s.readByte s.pc.toNat) (s.readByte (s.pc.toNat + 1)) = encode (.jp (s.pc.setWidth 12)) := by
  unfold runEnd at h
  split at h
  case h_4 hf hrun =>
    refine ⟨⟨hf, hrun⟩, ?_⟩
    have hspin : spinsHere s = true := by
      by_contra hno
      rw [if_neg hno] at h
      cases h
    by_cases hpc : s.pc.toNat ≤ 0xFFE
    · rw [spinsHere, State.fetch_inside s hpc] at hspin
      exact ⟨hpc, (of_decide_eq_true hspin).1⟩
    · rw [spinsHere, State.fetch_outside s (by omega)] at hspin
      cases hspin
  all_goals cases h

/-- The step of a spinning unit closes the load window and changes nothing else (log 6). -/
theorem step_of_spinning {s : State} (hp : s.params.wf = true) (h : runEnd s = some .spinning) :
    step s = .next { s with loadOpen := false } := by
  obtain ⟨ha, hpc, hword⟩ := spins_of_runEnd h
  have htarget : ((s.pc.setWidth 12).setWidth 16 : Word) = s.pc := by
    apply BitVec.eq_of_toNat_eq
    simp
    omega
  rw [step_of_fetch_inside hp ha hpc, hword, runWord_of_decode (decode_encode_of_wf rfl), exec_jp, htarget]
  rfl

/-- Settles O58: each step and each tick stays in the frame, on which the end of the run does not depend. -/
theorem spinningUnitKeepsSpinning : Obligations.SpinningUnitKeepsSpinning := by
  intro trs s hs
  have hp := hs.params_wf
  clear hs
  induction trs generalizing s with
  | nil => exact fun h _ => ⟨KeepsAllBut.refl _ s, h⟩
  | cons tr trs ih =>
    intro h hall
    have hone : KeepsAllBut [.dt, .st, .vblankPending, .loadOpen] s (after tr s) := by
      rcases hall tr List.mem_cons_self with rfl | rfl
      · rw [after_of_next (tr := .step) (step_of_spinning hp h)]
        exact (keepsAllBut_closeLoad s).mono (by decide)
      · exact (keepsAllBut_decrementOnce s).mono (by decide)
    have hparams : (after tr s).params = s.params := hone .params (by decide)
    obtain ⟨hrest, hend⟩ := ih (after tr s) (hparams ▸ hp) ((runEnd_congr hone).trans h)
      fun tr' htr' => hall tr' (List.mem_cons_of_mem _ htr')
    exact ⟨hone.trans_same hrest, hend⟩

/-! ### Draws between two frame ticks (R142) -/

/-- A step that executes a draw leaves the vblank signal set under its quirk (R99). -/
theorem vblankPending_after_draw {s : State} (hq : s.params.cfg.vblankQuirk = true) (h : executesDraw s = true) :
    (after .step s).vblankPending = true := by
  unfold executesDraw at h
  split at h
  case h_1 w hf hrun hfetch =>
    split at h
    case h_1 x y n hdecode =>
      obtain ⟨hp, hin⟩ := Bool.and_eq_true_iff.mp h
      have hmem : State.spriteInMemory { s with loadOpen := false } n := by
        have hrange : ¬ (0 < _ ∧ 0x1000 < _) := (outOfRange_iff _ _).not.mp (by simpa using hin)
        unfold State.spriteInMemory
        change (s.spriteShape n).bytes = 0 ∨ s.i.toNat + (s.spriteShape n).bytes ≤ 0x1000
        omega
      have hstep := (step_of_fetch hp ⟨hf, hrun⟩ hfetch).trans
        ((runWord_of_decode (s := { s with loadOpen := false }) hdecode).trans (exec_drw hmem))
      rw [after_of_next (tr := .step) hstep]
      simp [State.draw, hq]
    case h_2 => cases h
  case h_2 => cases h

/-- While the vblank signal is set, the duty admits no step before the next tick, and so no draw. -/
theorem drawCount_of_pending {trs : List Transaction} {s : State} (hq : s.params.cfg.vblankQuirk = true)
    (hpending : s.vblankPending = true) (htick : .decrementOnce ∉ trs) (hduty : keepsVblankDuty trs s = true) :
    drawCount trs s = 0 := by
  induction trs generalizing s with
  | nil => rfl
  | cons tr trs ih =>
    obtain ⟨hnow, hlater⟩ := Bool.and_eq_true_iff.mp hduty
    obtain ⟨htr, htrs⟩ := List.ne_and_not_mem_of_not_mem_cons htick
    have hstep : tr ≠ .step := by simpa [hostMayStep, isVblankPending, hq, hpending] using hnow
    rw [drawCount, if_neg fun h => hstep h.1, ih (after_params tr s ▸ hq)
      ((after_vblankPending s hstep htr.symm).trans hpending) htrs hlater]

/-- Settles O59: the first step that executes a draw sets the signal, and after it no step is made. -/
theorem oneDrawPerFrame : Obligations.OneDrawPerFrame := by
  intro trs s hs
  clear hs
  induction trs generalizing s with
  | nil => exact fun _ _ _ => Nat.zero_le 1
  | cons tr trs ih =>
    intro hq htick hduty
    obtain ⟨-, hlater⟩ := Bool.and_eq_true_iff.mp hduty
    have htrs := (List.ne_and_not_mem_of_not_mem_cons htick).2
    have hq' : (after tr s).params.cfg.vblankQuirk = true := after_params tr s ▸ hq
    rw [drawCount]
    split
    · rename_i hdraw
      obtain ⟨rfl, hdraw⟩ := hdraw
      rw [drawCount_of_pending hq' (vblankPending_after_draw hq hdraw) htrs hlater]
    · rw [Nat.zero_add]
      exact ih (after tr s) hq' htrs hlater

/-! ### The runs that keep the duties (R136, R142) -/

theorem afterAll_keeps_of_events {trs : List Transaction} (s : State) (hstep : .step ∉ trs)
    (hload : ∀ bytes, .loadRom bytes ∉ trs) :
    KeepsAllBut [.keys, .dt, .st, .vblankPending, .v, .execState] s (afterAll trs s) := by
  induction trs generalizing s with
  | nil => exact KeepsAllBut.refl _ s
  | cons tr trs ih =>
    exact (after_keeps_of_event s (fun e => hstep (e ▸ List.mem_cons_self))
      fun bytes e => hload bytes (e ▸ List.mem_cons_self)).trans_same
      (ih _ (fun h => hstep (List.mem_cons_of_mem _ h)) fun bytes h => hload bytes (List.mem_cons_of_mem _ h))

/-- With the load window open the boot duty admits a load alone. -/
theorem keepsBootDuty_of_open {tr : Transaction} {trs : List Transaction} {s : State} (hopen : s.loadOpen = true)
    (h : keepsBootDuty (tr :: trs) s = true) :
    ∃ bytes, tr = .loadRom bytes ∧ (romFits bytes s = true ∨ trs = []) ∧
      keepsBootDuty trs (after (.loadRom bytes) s) = true := by
  cases tr with
  | loadRom bytes =>
    simp only [keepsBootDuty, Bool.and_eq_true, Bool.or_eq_true, List.isEmpty_iff] at h
    obtain ⟨⟨-, hfits⟩, hrest⟩ := h
    exact ⟨bytes, rfl, hfits, hrest⟩
  | _ => simp [keepsBootDuty, hopen] at h

/-- With the load window closed it admits no load. -/
theorem no_load_of_closed {trs : List Transaction} {s : State} (hclosed : s.loadOpen = false)
    (h : keepsBootDuty trs s = true) (bytes : List Byte) : .loadRom bytes ∉ trs := by
  induction trs generalizing s with
  | nil => simp
  | cons tr trs ih =>
    have hclosed' := after_loadOpen_of_closed tr hclosed
    cases tr with
    | loadRom more => simp [keepsBootDuty, hclosed] at h
    | _ =>
      obtain ⟨-, hrest⟩ := Bool.and_eq_true_iff.mp h
      simpa using ih hclosed' hrest

/-- Settles O60: the duty makes the first transaction a load, which fits unless nothing follows, and closes the window;
before the first step only key events and ticks remain. -/
theorem admittedRunsLoadOnceThenStep : Obligations.AdmittedRunsLoadOnceThenStep := by
  intro p trs h
  unfold admitted at h
  split at h
  case h_2 => cases h
  case h_1 s hs =>
    refine ⟨s, hs, ?_⟩
    obtain ⟨-, rfl⟩ := State.construct_eq_some hs
    obtain ⟨hboot, -⟩ := Bool.and_eq_true_iff.mp (Bool.and_eq_true_iff.mp h).1
    cases trs with
    | nil => exact .inl rfl
    | cons tr rest =>
      obtain ⟨bytes, rfl, hfits, hrest⟩ := keepsBootDuty_of_open rfl hboot
      refine .inr ⟨bytes, rest, rfl, ?_⟩
      by_cases hnil : rest = []
      · subst hnil
        exact ⟨fun more => by simp, fun hne => absurd rfl hne⟩
      · have hlen := (romFits_iff bytes _).mp (hfits.resolve_right hnil)
        have hload := loadRom_of_open (s := State.init p) rfl hlen
        rw [after_of_next (tr := .loadRom bytes) hload] at hrest
        have hno := no_load_of_closed rfl hrest
        refine ⟨hno, fun _ => ⟨hlen, _, hload, fun pre post hsplit hpre => ?_⟩⟩
        have hframe (t : State) := afterAll_keeps_of_events t hpre fun more hmem =>
          hno more (hsplit ▸ List.mem_append_left _ hmem)
        refine ⟨?_, fun k b hb => ?_⟩
        · refine (congrArg BitVec.toNat (hframe _ .pc (by decide))).trans ?_
          rw [State.writeBytes_pc]
          exact BitVec.toNat_setWidth_of_le (by decide)
        · exact ((hframe _ .mem (by decide)).2 _).trans (readByte_loaded (State.init_memWf p) hlen hb)

end Sys2Proof.Machine

/-! Single instructions of control flow, registers, halt and keys (40_control_flow.md, 41_register_alu.md,
44_keys_timers_system.md): each is an operation or two over the advanced state, in the frame of those operations. -/

namespace Sys2Proof.Machine

/-! ### Control flow -/

/-- Settles O1, by the two cases of a return. -/
theorem retPopsOrUnderflows : Obligations.RetPopsOrUnderflows := by
  intro s
  rcases exec_ret_cases s with ⟨hpos, t, hpop, hexec⟩ | ⟨hzero, hexec⟩
  · refine ⟨fun _ => ⟨_, hexec, ?_, rfl, keepsAllBut_pop_setPc s hpop _⟩, fun h => by omega⟩
    obtain ⟨-, -, rfl⟩ := State.pop_eq_some hpop
    rfl
  · exact ⟨fun h => by omega, fun _ => ⟨_, hexec, rfl, keepsAllBut_enterFault s _ _ _⟩⟩

/-- Settles O2, by the two cases of a call. -/
theorem callPushesOrOverflows : Obligations.CallPushesOrOverflows := by
  intro nnn s
  rcases exec_call_cases nnn s with ⟨hfree, t, hpush, hexec⟩ | ⟨hfull, hexec⟩
  · refine ⟨fun _ => ⟨_, hexec, ?_, BitVec.toNat_setWidth_of_le (by decide), ?_, fun k hk => ?_,
      keepsAllBut_push_setPc s hpush _⟩, fun h => by omega⟩
    · obtain ⟨-, rfl⟩ := State.push_eq_some hpush
      rfl
    · exact (stackEntry_push hpush s.sp).trans (if_pos rfl)
    · exact (stackEntry_push hpush k).trans (if_neg hk)
  · exact ⟨fun h => by omega, fun _ => ⟨_, hexec, rfl, keepsAllBut_enterFault s _ _ _⟩⟩

/-- R65: an address and a byte sum up without a carry out of the word. -/
theorem toNat_addr_add_byte (nnn : Addr12) (b : Byte) :
    (nnn.setWidth 16 + b.setWidth 16 : Word).toNat = nnn.toNat + b.toNat := by
  have := nnn.isLt
  have := b.isLt
  simp
  omega

/-- Settles O4: the quirk selects the register, and the sum is exact. -/
theorem jumpPlusOffsetSetsPc : Obligations.JumpPlusOffsetSetsPc := by
  intro nnn s
  refine ⟨_, rfl, keepsAllBut_setPc s _, fun hq => ?_, fun hq x hx => ?_⟩
  · rw [State.setPc_pc, toNat_addr_add_byte, jumpOffsetReg, if_neg (by simp [hq])]
  · have hreg : Fin.ofNat 16 (nnn.toNat / 256) = x := Fin.ext (by simp [← hx])
    rw [State.setPc_pc, toNat_addr_add_byte, jumpOffsetReg, if_pos hq, hreg]

/-! ### Registers -/

/-- Settles O7: one write of `V[x]`. -/
theorem registerCopy : Obligations.RegisterCopy := fun _ _ _ => setV_spec rfl

/-- Settles O11, by the difference and its not-underflow bit, as for SUB with the operands exchanged. -/
theorem subnStoresReverseDifference : Obligations.SubnStoresReverseDifference := fun _ _ _ =>
  setResultFlag_spec rfl (toNat_subFlag_fst _ _) (toNat_boolByte_decide _)

/-- A random write of `V` is a write of the masked byte (R83). -/
theorem State.getV_setRandom (s : State) (x q : RegIx) (rand nn : Byte) :
    (s.setRandom x rand nn).getV q = (s.setV x (rand &&& nn)).getV q := rfl

/-- Settles O13: one write of `V[x]` and of the draw counter. -/
theorem randomByteUnderMask : Obligations.RandomByteUnderMask := by
  intro x nn s
  refine ⟨_, rfl, ?_, rfl, rfl, fun r hr => ?_, (keepsAllBut_advance s).trans (keepsAllBut_setRandom _ x _ nn)⟩
  · rw [State.getV_setRandom, State.getV_setV_same]
  · rw [State.getV_setRandom, State.getV_setV_other _ _ _ _ hr, State.advance_getV]

/-! ### Halt and keys -/

/-- Settles O32: one write of `exec_state` each. -/
theorem exitHaltsAndKeyWaitStarts : Obligations.ExitHaltsAndKeyWaitStarts := fun x s =>
  ⟨⟨_, rfl, rfl, rfl, (keepsAllBut_advance s).trans (keepsAllBut_setExec _ .halted)⟩,
    ⟨_, rfl, rfl, rfl, (keepsAllBut_advance s).trans (keepsAllBut_setExec _ (.waitingForKey x))⟩⟩

/-- The mask bit the key instructions test (D12). -/
theorem State.keyHeld_lowNibble (s : State) (b : Byte) : s.keyHeld (lowNibble b) = s.keys.getLsbD (b.toNat % 16) := rfl

/-- Settles O33: both are skips, at the mask bit of the low nibble and at its negation. -/
theorem keySkips : Obligations.KeySkips := by
  intro x s
  refine ⟨skip_spec (c := s.keyHeld (lowNibble (s.getV x))) rfl rfl,
    skip_spec (c := !s.keyHeld (lowNibble (s.getV x))) rfl ?_⟩
  rw [State.keyHeld_lowNibble]
  cases s.keys.getLsbD ((s.getV x).toNat % 16) with
  | false => rfl
  | true => rfl

end Sys2Proof.Machine

/-! The index register and memory of 42_index_memory.md: glyph addresses and the sum of ADD I, the stores and loads
inside memory, byte by byte, and the raise of the four instructions outside it; and that equal memories are equal lists. -/

namespace Sys2Proof.Machine

/-! ### Addresses -/

theorem toNat_smallGlyphAddr {p : Params} (hp : p.wf = true) (b : Byte) :
    (smallGlyphAddr p (lowNibble b)).toNat = p.smallFontBase + 5 * (b.toNat % 16) := by
  obtain ⟨hend, -, hstart, -⟩ := Params.fonts_of_wf hp
  have hval : (lowNibble b).val = b.toNat % 16 := rfl
  rw [smallGlyphAddr, BitVec.toNat_ofNat, hval]
  omega

theorem toNat_bigGlyphAddr {p : Params} (hp : p.wf = true) (b : Byte) :
    (bigGlyphAddr p (lowNibble b)).toNat = p.bigFontBase + p.bigGlyphBytes * (b.toNat % 16) := by
  obtain ⟨-, hend, hstart, -⟩ := Params.fonts_of_wf hp
  have hval : (lowNibble b).val = b.toNat % 16 := rfl
  have hglyph : p.bigGlyphBytes * (b.toNat % 16) ≤ p.bigGlyphBytes * 16 :=
    Nat.mul_le_mul_left _ (Nat.mod_lt _ (by decide)).le
  rw [bigGlyphAddr, BitVec.toNat_ofNat, hval]
  omega

/-- Settles O15: one write of `I` each, and a glyph lies in its table, so its address does not wrap. -/
theorem glyphAddresses : Obligations.GlyphAddresses := fun x s hp =>
  ⟨⟨_, rfl, toNat_smallGlyphAddr hp (s.getV x), rfl, keepsAllBut_advance_setI s _⟩,
    ⟨_, rfl, toNat_bigGlyphAddr hp (s.getV x), rfl, keepsAllBut_advance_setI s _⟩⟩

theorem toNat_addToIndex_unmasked {p : Params} (h : p.addIMask12 = false) (i : Word) (b : Byte) :
    (addToIndex p i b).toNat = (i.toNat + b.toNat) % 65536 := by
  simp [addToIndex, h]

theorem toNat_addToIndex_masked {p : Params} (h : p.addIMask12 = true) (i : Word) (b : Byte) :
    (addToIndex p i b).toNat = (i.toNat + b.toNat) % 4096 := by
  have hmask : (0xFFF : Word).toNat = 2 ^ 12 - 1 := rfl
  rw [addToIndex, if_pos h, BitVec.toNat_and, hmask, Nat.and_two_pow_sub_one_eq_mod, BitVec.toNat_ofNat]
  omega

theorem postIncrement_none {c : VariantConfig} (h : c.loadStoreOffset = none) (i : Word) (x : RegIx) :
    postIncrement c i x = i := by
  rw [postIncrement, h]

theorem toNat_postIncrement_some {c : VariantConfig} {k : Nat} (h : c.loadStoreOffset = some k) (i : Word) (x : RegIx) :
    (postIncrement c i x).toNat = (i.toNat + x.val + k) % 65536 := by
  rw [postIncrement, h]
  exact BitVec.toNat_ofNat _ 16

/-! ### Stores and loads inside memory -/

section Inside

variable {s : State} {x : RegIx}

theorem exec_ldB (h : s.i.toNat + 2 ≤ 0xFFF) :
    exec (.ldB x) s = .next (s.advance.writeBytes s.i.toNat (bcdDigits (s.getV x))) :=
  checkRange_inside (.ldB x) s _ (by omega)

theorem exec_ldMemVx (h : s.i.toNat + x.val ≤ 0xFFF) :
    exec (.ldMemVx x) s =
      .next ((s.advance.writeBytes s.i.toNat (s.vUpTo x)).setI (postIncrement s.params.cfg s.i x)) :=
  checkRange_inside (.ldMemVx x) s _ (by omega)

theorem exec_ldVxMem (h : s.i.toNat + x.val ≤ 0xFFF) :
    exec (.ldVxMem x) s =
      .next ((s.advance.setVUpTo x fun k => s.readByte (s.i.toNat + k.val)).setI (postIncrement s.params.cfg s.i x)) :=
  checkRange_inside (.ldVxMem x) s _ (by omega)

theorem length_vUpTo : (s.vUpTo x).length = x.val + 1 := by
  simp [State.vUpTo]

theorem getElem_vUpTo {k : RegIx} (hk : k ≤ x) :
    (s.vUpTo x)[k.val]'(by rw [length_vUpTo]; exact Nat.lt_succ_of_le hk) = s.getV k := by
  simp [State.vUpTo, State.getV]

end Inside

/-- Settles O17: the stores of three bytes read back. -/
theorem bcdStoresDigits : Obligations.BcdStoresDigits := by
  intro x s hs hin
  have hinside (k : Nat) (hk : k < 3) := State.readByte_writeBytes_inside (s := s.advance) hs.mem_wf s.i.toNat k
    (bcdDigits (s.getV x)) (by simp [bcdDigits]; omega) hk
  have hv := (s.getV x).isLt
  refine ⟨_, exec_ldB hin, ?_, ?_, ?_,
    fun a ha => State.readByte_writeBytes_outside _ _ a _ ha, State.writeBytes_pc _ _ _,
    (keepsAllBut_advance s).trans (keepsAllBut_writeBytes _ _ _)⟩
  · refine (congrArg BitVec.toNat (hinside 0 (by decide))).trans ?_
    simp [bcdDigits]
    omega
  · refine (congrArg BitVec.toNat (hinside 1 (by decide))).trans ?_
    simp [bcdDigits]
    omega
  · refine (congrArg BitVec.toNat (hinside 2 (by decide))).trans ?_
    simp [bcdDigits]
    omega

/-- Settles O18: the stored registers read back, and `I` is written after them. -/
theorem registerDump : Obligations.RegisterDump := by
  intro x s hs hin
  refine ⟨_, exec_ldMemVx hin, fun k hk => ?_, fun a ha => ?_, fun h => postIncrement_none h s.i x,
    fun k h => toNat_postIncrement_some h s.i x, State.writeBytes_pc _ _ _, keepsAllBut_advance_writeBytes_setI s _ _ _⟩
  · rw [State.setI_readByte, State.readByte_writeBytes_inside (s := s.advance) hs.mem_wf s.i.toNat k.val (s.vUpTo x)
      (by rw [length_vUpTo]; omega) (by rw [length_vUpTo]; exact Nat.lt_succ_of_le hk)]
    exact getElem_vUpTo hk
  · exact State.readByte_writeBytes_outside _ _ a _ (by rw [length_vUpTo]; omega)

/-- Settles O19, register by register. -/
theorem registerLoad : Obligations.RegisterLoad := by
  intro x s hin
  refine ⟨_, exec_ldVxMem hin, fun k hk => ?_, fun k hk => ?_, fun h => postIncrement_none h s.i x,
    fun k h => toNat_postIncrement_some h s.i x, rfl, keepsAllBut_advance_setVUpTo_setI s _ _ _⟩
  · rw [State.setI_getV, State.getV_setVUpTo, if_pos hk]
  · rw [State.setI_getV, State.getV_setVUpTo, if_neg (Fin.not_le.mpr hk), State.advance_getV]

/-- Settles O21, register by register. -/
theorem flagRegisterDumpAndLoad : Obligations.FlagRegisterDumpAndLoad := by
  intro x s
  have hadv := keepsAllBut_advance s
  refine ⟨⟨_, rfl, fun k hk => ?_, fun k hk => ?_, rfl, hadv.trans (keepsAllBut_setFRUpTo _ x _)⟩,
    ⟨_, rfl, fun k hk => ?_, fun k hk => ?_, rfl, hadv.trans (keepsAllBut_setVUpTo _ x _)⟩⟩
  · rw [State.getFR_setFRUpTo, if_pos hk]
  · rw [State.getFR_setFRUpTo, if_neg (Fin.not_le.mpr hk), State.advance_getFR]
  · rw [State.getV_setVUpTo, if_pos hk]
  · rw [State.getV_setVUpTo, if_neg (Fin.not_le.mpr hk), State.advance_getV]

/-- Settles O23: the dump's bytes are what the fetch reads. -/
theorem fetchSeesStores : Obligations.FetchSeesStores := by
  intro x k k' s t hs hin hk hk' h
  obtain ⟨u, hu, hstored, -⟩ := registerDump x s hs hin
  cases h.symm.trans hu
  have hpc : (BitVec.ofNat 16 (s.i.toNat + k.val)).toNat = s.i.toNat + k.val := by
    rw [BitVec.toNat_ofNat]
    omega
  have hle : k'.val ≤ x.val := hk'
  have hlow := hstored k (Fin.le_def.mpr (by omega))
  have hhigh := hstored k' hk'
  rw [hk, ← Nat.add_assoc] at hhigh
  rw [State.fetch_inside { t with pc := BitVec.ofNat 16 (s.i.toNat + k.val) } (by rw [hpc]; omega), hpc, ← hlow,
    ← hhigh]
  rfl

/-! ### Outside memory -/

/-- Settles O20: the range check raises before anything is written. -/
theorem outOfRangeRaisesAndWritesNothing : Obligations.OutOfRangeRaisesAndWritesNothing := by
  intro x y n s i len hi hlast
  have hraise (hpos : 0 < len) (k : Result) := checkRange_outside i s k hpos (base := s.i.toNat) (by omega)
  refine ⟨_, ?_, rfl, keepsAllBut_enterFault s _ _ _⟩
  rcases hi with ⟨rfl, rfl⟩ | ⟨rfl, rfl⟩ | ⟨rfl, rfl⟩ | ⟨rfl, rfl, hpos⟩
  · exact hraise (by decide) _
  · exact hraise (Nat.succ_pos _) _
  · exact hraise (Nat.succ_pos _) _
  · exact hraise hpos _

/-! ### The canonical form (log 14) -/

theorem Memory.wfAbove_cons {d : Nat → Byte} {lo b : Nat} {w : Byte} {m : Memory} :
    Memory.wfAbove d lo ((b, w) :: m) = true ↔
      lo ≤ b ∧ b < 0x1000 ∧ w ≠ d b ∧ Memory.wfAbove d (b + 1) m = true := by
  simp [Memory.wfAbove, and_assoc]

theorem Memory.lookup_head (d : Nat → Byte) (b : Nat) (w : Byte) (m : Memory) :
    Memory.lookup d b ((b, w) :: m) = w := by
  simp [Memory.lookup]

/-- A listed byte differs from the initial one, so a canonical listing whose head lies higher reads otherwise there. -/
theorem Memory.not_lt_of_lookup_eq {d : Nat → Byte} {lo b b' : Nat} {w w' : Byte} {m m' : Memory}
    (hm : Memory.wfAbove d lo ((b, w) :: m) = true) (hm' : Memory.wfAbove d lo ((b', w') :: m') = true)
    (h : ∀ a, Memory.lookup d a ((b, w) :: m) = Memory.lookup d a ((b', w') :: m')) : ¬ b < b' := by
  intro hlt
  obtain ⟨-, -, hw, -⟩ := Memory.wfAbove_cons.mp hm
  obtain ⟨-, hb', hw', hrest'⟩ := Memory.wfAbove_cons.mp hm'
  have habove : Memory.wfAbove d b' ((b', w') :: m') = true := Memory.wfAbove_cons.mpr ⟨Nat.le_refl _, hb', hw', hrest'⟩
  exact hw ((Memory.lookup_head d b w m).symm.trans ((h b).trans (Memory.lookup_below habove hlt)))

/-- Canonical listings that read alike are the same list: their heads are the lowest address that reads other than its
initial byte. -/
theorem Memory.ext_of_lookup {d : Nat → Byte} {lo : Nat} {m m' : Memory} (hm : Memory.wfAbove d lo m = true)
    (hm' : Memory.wfAbove d lo m' = true) (h : ∀ a, Memory.lookup d a m = Memory.lookup d a m') : m = m' := by
  induction m generalizing lo m' with
  | nil =>
    cases m' with
    | nil => rfl
    | cons c m' =>
      obtain ⟨-, -, hw, -⟩ := Memory.wfAbove_cons.mp hm'
      exact absurd ((Memory.lookup_head d c.1 c.2 m').symm.trans (h c.1).symm) hw
  | cons c m ih =>
    obtain ⟨b, w⟩ := c
    cases m' with
    | nil =>
      obtain ⟨-, -, hw, -⟩ := Memory.wfAbove_cons.mp hm
      exact absurd ((Memory.lookup_head d b w m).symm.trans (h b)) hw
    | cons c' m' =>
      obtain ⟨b', w'⟩ := c'
      have hbb : b = b' := Nat.le_antisymm (Nat.not_lt.mp (Memory.not_lt_of_lookup_eq hm' hm fun a => (h a).symm))
        (Nat.not_lt.mp (Memory.not_lt_of_lookup_eq hm hm' h))
      subst hbb
      have hww : w = w' := by simpa only [Memory.lookup_head] using h b
      subst hww
      obtain ⟨-, -, -, hrest⟩ := Memory.wfAbove_cons.mp hm
      obtain ⟨-, -, -, hrest'⟩ := Memory.wfAbove_cons.mp hm'
      rw [ih hrest hrest' fun a => ?_]
      by_cases ha : b = a
      · rw [Memory.lookup_below hrest (by omega), Memory.lookup_below hrest' (by omega)]
      · simpa [Memory.lookup, ha] using h a

/-- Settles O22, by `Memory.ext_of_lookup` from address 0 on. -/
theorem memoryIsItsReads : Obligations.MemoryIsItsReads := fun _ _ _ hm hm' h => Memory.ext_of_lookup hm hm' h

end Sys2Proof.Machine

namespace Sys2Proof

open Machine

/-- Settles O16. It stands outside `Sys2Proof.Machine`, where the model's own `addToIndex` has this name. -/
theorem addToIndex : Obligations.AddToIndex := fun x s =>
  ⟨_, rfl, fun h => toNat_addToIndex_unmasked h s.i (s.getV x), fun h => toNat_addToIndex_masked h s.i (s.getV x), rfl,
    keepsAllBut_advance_setI s _⟩

end Sys2Proof

/-! The framebuffer instructions of 43_display.md, pixel by pixel: the clearing ones, the scrolls, and the draw, whose
effect is stated once and then used twice in a row. -/

namespace Sys2Proof.Machine

/-! ### Clearing and scrolling -/

/-- Settles O24: the listing of the true cells becomes empty. -/
theorem clearScreen : Obligations.ClearScreen := fun s =>
  ⟨_, rfl, fun _ _ => rfl, rfl, (keepsAllBut_advance s).trans (keepsAllBut_setFb _ [])⟩

/-- Settles O31: the first and the last entry exist, since a well-formed configuration has one. -/
theorem resolutionSwitchClears : Obligations.ResolutionSwitchClears := by
  intro s hp
  have hcfg := Params.cfg_of_wf hp
  have hadv := keepsAllBut_advance s
  exact ⟨⟨_, rfl, head?_resolutions hcfg, fun _ _ => rfl, rfl, hadv.trans (keepsAllBut_switchRes _ _)⟩,
    ⟨_, rfl, getLast?_resolutions hcfg, fun _ _ => rfl, rfl, hadv.trans (keepsAllBut_switchRes _ _)⟩⟩

/-- A pixel of a listing, as an equation between Booleans. -/
theorem State.pixel_setFb_eq {s : State} {fb : Framebuffer} {r c : Nat} {b : Bool} (h : (r, c) ∈ fb ↔ b = true) :
    (s.setFb fb).pixel r c = b :=
  Bool.eq_iff_iff.mpr ((State.pixel_iff _ r c).trans h)

/-- Settles O29, cell by cell. -/
theorem scrollDownMovesRows : Obligations.ScrollDownMovesRows := by
  rintro n s _ rfl
  refine ⟨_, rfl, fun r c hg => State.pixel_setFb_eq ?_, rfl, (keepsAllBut_advance s).trans (keepsAllBut_setFb _ _)⟩
  rw [Framebuffer.mem_scrollDown, Bool.and_eq_true, State.pixel_iff, decide_eq_true_eq]
  exact and_iff_right hg.1

/-- Settles O30: a cell that a left scroll would bring in from beyond the right edge is not listed. -/
theorem sideScrollsMoveColumns : Obligations.SideScrollsMoveColumns := by
  rintro s _ hs rfl
  have hframe (fb : Framebuffer) := (keepsAllBut_advance s).trans (keepsAllBut_setFb s.advance fb)
  refine ⟨⟨_, rfl, fun r c hg => State.pixel_setFb_eq ?_, rfl, hframe _⟩,
    ⟨_, rfl, fun r c hg => State.pixel_setFb_eq ?_, rfl, hframe _⟩⟩
  · rw [Framebuffer.mem_scrollRight, Bool.and_eq_true, State.pixel_iff, decide_eq_true_eq]
    exact and_iff_right hg.2
  · rw [Framebuffer.mem_scrollLeft, Bool.and_eq_true, State.pixel_iff, decide_eq_true_eq]
    exact ⟨fun h => ⟨(Framebuffer.wfFrom_mem hs.fb_wf h).2.2, h⟩, And.right⟩

/-! ### Sprites -/

/-- Settles O25, branch by branch of the shape. -/
theorem spriteShape : Obligations.SpriteShape := by
  intro n s
  refine ⟨fun hn => ?_, fun hn hhires w0 hw0 => ⟨fun hmode => ?_, fun hmode => ?_⟩, fun hn hno => ?_⟩
  · exact if_pos fun h => hn (Fin.ext h)
  · simp [State.spriteShape, hn, hhires, hw0, hmode]
  · simp [State.spriteShape, hn, hhires, hw0, hmode]
  · rcases hno with hno | hno
    · simp [State.spriteShape, hn, hno]
    · simp only [State.spriteShape, hn, hno]
      split
      · contradiction
      · split <;> rfl

/-- What a draw needs of the invariant, and keeps. -/
structure State.Drawable (s : State) : Prop where
  params_wf : s.params.wf = true
  res_mem : s.currRes ∈ s.params.cfg.resolutions
  fb_wf : Framebuffer.wf s.params.cfg.maxRes.height s.params.cfg.maxRes.width s.fb = true

theorem State.Inv.drawable {s : State} (h : s.Inv) : s.Drawable := ⟨h.params_wf, h.res_mem, h.fb_wf⟩

theorem boolByte_eq_one_iff (b : Bool) : boolByte b = 1 ↔ b = true := by
  cases b <;> decide

section Draw

variable {x y : RegIx} {n : Fin 16} {s : State}

theorem State.Drawable.mem_spritePixels (hs : s.Drawable) (r c : Nat) :
    (r, c) ∈ s.spritePixels x y n ↔ s.onGrid r c ∧ s.spriteCovers x y n r c = true := by
  obtain ⟨hx, hy⟩ := State.scale_pos hs.params_wf hs.res_mem
  exact State.mem_spritePixels s x y n r c hx hy

theorem State.Drawable.spritePixels_onGrid (hs : s.Drawable) :
    ∀ q ∈ s.spritePixels x y n, q.1 < s.params.cfg.maxRes.height ∧ q.2 < s.params.cfg.maxRes.width :=
  fun q hq => ((hs.mem_spritePixels q.1 q.2).mp hq).1

theorem State.Drawable.pixel_off_grid (hs : s.Drawable) {r c : Nat} (h : ¬ s.onGrid r c) : s.pixel r c = false := by
  rw [← Bool.not_eq_true, State.pixel_iff]
  exact fun hmem => h (Framebuffer.wfFrom_mem hs.fb_wf hmem).2

/-- The state after a draw, pixel by pixel on and off the grid, and when it reports a collision (R98). -/
theorem State.Drawable.draw_spec (hs : s.Drawable) :
    (∀ r c, s.onGrid r c → (s.advance.draw (s.spritePixels x y n)).pixel r c =
        (s.pixel r c != s.spriteCovers x y n r c)) ∧
      ((s.advance.draw (s.spritePixels x y n)).getV flagReg = 1 ↔
        ∃ r c, s.onGrid r c ∧ s.spriteCovers x y n r c = true ∧ s.pixel r c = true) ∧
      (s.advance.draw (s.spritePixels x y n)).Drawable := by
  obtain ⟨hx, hy⟩ := State.scale_pos hs.params_wf hs.res_mem
  obtain ⟨hmem, hcollision⟩ := Framebuffer.xorAll_spec hs.fb_wf (hs.spritePixels_onGrid (x := x) (y := y) (n := n))
    (State.nodup_spritePixels s x y n hx hy)
  refine ⟨fun r c hg => Bool.eq_iff_iff.mpr ?_, ?_, hs.params_wf, hs.res_mem,
    Framebuffer.xorAll_wf hs.fb_wf hs.spritePixels_onGrid⟩
  · have hcovers := (hs.mem_spritePixels (x := x) (y := y) (n := n) r c).trans (and_iff_right hg)
    rw [State.pixel_iff]
    refine (hmem (r, c)).trans ?_
    rw [hcovers, ← State.pixel_iff]
    cases s.pixel r c <;> cases s.spriteCovers x y n r c <;> decide
  · rw [State.getV_draw, if_pos rfl, boolByte_eq_one_iff]
    refine hcollision.trans ⟨?_, ?_⟩
    · rintro ⟨⟨r, c⟩, hq, hfb⟩
      obtain ⟨hg, hcov⟩ := (hs.mem_spritePixels r c).mp hq
      exact ⟨r, c, hg, hcov, (State.pixel_iff s r c).mpr hfb⟩
    · rintro ⟨r, c, hg, hcov, hpix⟩
      exact ⟨(r, c), (hs.mem_spritePixels r c).mpr ⟨hg, hcov⟩, (State.pixel_iff s r c).mp hpix⟩

/-- The flag of a draw is a bit. -/
theorem State.getV_draw_flag (s : State) (ps : List Pixel) :
    (s.draw ps).getV flagReg = 0 ∨ (s.draw ps).getV flagReg = 1 := by
  rw [State.getV_draw, if_pos rfl]
  cases (Framebuffer.xorAll ps s.fb).1 with
  | false => exact .inl rfl
  | true => exact .inr rfl

theorem State.getV_draw_other (s : State) (ps : List Pixel) {r : RegIx} (hr : r ≠ flagReg) :
    (s.draw ps).getV r = s.getV r := by
  rw [State.getV_draw, if_neg hr]

theorem keepsAllBut_advance_draw (s : State) (ps : List Pixel) :
    KeepsAllBut [.pc, .v, .fb, .vblankPending] s (s.advance.draw ps) :=
  (keepsAllBut_advance s).trans (keepsAllBut_draw _ ps)

/-! Where a sprite lies depends on the parameters, the resolution, `I` and memory, and on the two registers. -/

section Frame

variable {t : State} (h : KeepsAllBut [.pc, .v, .fb, .vblankPending] s t)
include h

theorem hiresMode_congr : t.hiresMode = s.hiresMode := by
  have hparams : t.params = s.params := h .params (by decide)
  have hres : t.currRes = s.currRes := h .currRes (by decide)
  rw [State.hiresMode, State.hiresMode, hparams, hres]

theorem spriteShape_congr : t.spriteShape n = s.spriteShape n := by
  have hparams : t.params = s.params := h .params (by decide)
  rw [State.spriteShape, State.spriteShape, hiresMode_congr h, hparams]

theorem scale_congr : t.scaleX = s.scaleX ∧ t.scaleY = s.scaleY := by
  have hparams : t.params = s.params := h .params (by decide)
  have hres : t.currRes = s.currRes := h .currRes (by decide)
  rw [State.scaleX, State.scaleX, State.scaleY, State.scaleY, hparams, hres]
  exact ⟨rfl, rfl⟩

theorem spriteBit_congr (sh : SpriteShape) (r c : Nat) : t.spriteBit sh r c = s.spriteBit sh r c := by
  have hi : t.i = s.i := h .i (by decide)
  rw [State.spriteBit, State.spriteBit, hi, (h .mem (by decide)).2]

theorem spriteInMemory_congr (hm : s.spriteInMemory n) : t.spriteInMemory n := by
  have hi : t.i = s.i := h .i (by decide)
  rwa [State.spriteInMemory, spriteShape_congr h, hi]

theorem spriteX_congr (hx : t.getV x = s.getV x) : t.spriteX x = s.spriteX x := by
  have hres : t.currRes = s.currRes := h .currRes (by decide)
  rw [State.spriteX, State.spriteX, hx, hres]

theorem spriteY_congr (hy : t.getV y = s.getV y) : t.spriteY y = s.spriteY y := by
  have hres : t.currRes = s.currRes := h .currRes (by decide)
  rw [State.spriteY, State.spriteY, hy, hres]

theorem onGrid_congr (r c : Nat) : t.onGrid r c ↔ s.onGrid r c := by
  have hparams : t.params = s.params := h .params (by decide)
  rw [State.onGrid, State.onGrid, hparams]

theorem spriteCovers_congr (hx : t.spriteX x = s.spriteX x) (hy : t.spriteY y = s.spriteY y) (r c : Nat) :
    t.spriteCovers x y n r c = s.spriteCovers x y n r c := by
  obtain ⟨hsx, hsy⟩ := scale_congr h
  unfold State.spriteCovers
  dsimp only
  rw [spriteShape_congr h, hsx, hsy, hx, hy, spriteBit_congr h]

end Frame

end Draw

/-! ### The draw, alone, twice, and on a clear screen -/

/-- Settles O26, by `State.Drawable.draw_spec` in the frame of a draw. -/
theorem drawFlipsTheCoveredPixels : Obligations.DrawFlipsTheCoveredPixels := by
  intro x y n s hs hm
  obtain ⟨hpixel, hflag, hdrawn⟩ := hs.drawable.draw_spec (x := x) (y := y) (n := n)
  exact ⟨_, exec_drw hm, hpixel, fun r c hg => hdrawn.pixel_off_grid hg, State.getV_draw_flag _ _, hflag, rfl,
    fun r hr => State.getV_draw_other _ _ hr, rfl, keepsAllBut_advance_draw s _⟩

/-- Two canonical framebuffers over one grid with the same pixels are the same list (log 13). -/
theorem fb_eq_of_pixel_eq {s t : State} (hs : s.Drawable) (ht : t.Drawable) (hparams : t.params = s.params)
    (h : ∀ r c, t.pixel r c = s.pixel r c) : t.fb = s.fb := by
  have hwf := ht.fb_wf
  rw [hparams] at hwf
  refine Framebuffer.ext_of_mem _ _ _ hwf hs.fb_wf fun p => ?_
  rw [← State.pixel_iff t p.1 p.2, ← State.pixel_iff s p.1 p.2, h]

/-- Settles O27: the second draw is a draw from the state after the first, in which the sprite is the same but for its
place. -/
theorem drawTwiceRestores : Obligations.DrawTwiceRestores := by
  intro x y n s hs hm
  have hs := hs.drawable
  obtain ⟨hpixel, -, ht⟩ := hs.draw_spec (x := x) (y := y) (n := n)
  have hframe := keepsAllBut_advance_draw s (s.spritePixels x y n)
  have hother (r : RegIx) (hr : r ≠ flagReg) := State.getV_draw_other s.advance (s.spritePixels x y n) hr
  generalize hdrawn : s.advance.draw (s.spritePixels x y n) = t at *
  obtain ⟨hpixel', hflag', hu⟩ := ht.draw_spec (x := x) (y := y) (n := n)
  have hboth (r c : Nat) (hg : s.onGrid r c) :
      (t.advance.draw (t.spritePixels x y n)).pixel r c =
        ((s.pixel r c != s.spriteCovers x y n r c) != t.spriteCovers x y n r c) := by
    rw [hpixel' r c ((onGrid_congr hframe r c).mpr hg), hpixel r c hg]
  refine ⟨t, _, hdrawn ▸ exec_drw hm, exec_drw (spriteInMemory_congr hframe hm), hboth,
    fun hx => spriteX_congr hframe (hother x hx), fun hy => spriteY_congr hframe (hother y hy), fun hx hy => ⟨?_, ?_⟩⟩
  · have hparams : t.params = s.params := hframe .params (by decide)
    refine fb_eq_of_pixel_eq hs hu hparams fun r c => ?_
    by_cases hg : s.onGrid r c
    · rw [hboth r c hg, spriteCovers_congr hframe hx hy]
      simp
    · rw [hs.pixel_off_grid hg]
      exact hu.pixel_off_grid fun hg' => hg ((onGrid_congr hframe r c).mp hg')
  · refine hflag'.trans (exists_congr fun r => exists_congr fun c => ?_)
    rw [onGrid_congr hframe, spriteCovers_congr hframe hx hy]
    refine and_congr_right fun hg => and_congr_right fun hcov => ?_
    rw [hpixel r c hg, hcov]
    simp

/-- Settles O28: after CLS no pixel is true, and the sprite lies where it lay before. -/
theorem clearThenDrawShowsTheSprite : Obligations.ClearThenDrawShowsTheSprite := by
  intro x y n s hs hm
  obtain ⟨t, hcls, hclear, -, hkeeps⟩ := clearScreen s
  have hframe : KeepsAllBut [.pc, .v, .fb, .vblankPending] s t := hkeeps.mono (by decide)
  have ht : t.Drawable := by
    cases hcls
    exact ⟨hs.params_wf, hs.res_mem, rfl⟩
  have hv := (hkeeps .v (by decide)).2
  obtain ⟨hpixel, hflag, -⟩ := ht.draw_spec (x := x) (y := y) (n := n)
  refine ⟨t, _, hcls, exec_drw (spriteInMemory_congr hframe hm), (State.getV_draw_flag _ _).resolve_right fun h => ?_,
    fun r c hg => ?_⟩
  · obtain ⟨r, c, -, -, hpix⟩ := hflag.mp h
    rw [hclear] at hpix
    cases hpix
  · rw [hpixel r c ((onGrid_congr hframe r c).mpr hg), hclear, Bool.false_bne,
      spriteCovers_congr hframe (spriteX_congr hframe (hv x)) (spriteY_congr hframe (hv y))]

end Sys2Proof.Machine
